-- ==== Sys2Proof/Word.lean ====
section
/-! DEFINITION. The word types of DMR-PWM: the 32-bit register and bus word, the byte, the 8-bit level (00_scope.md R2). -/

namespace Sys2Proof

/-- Register width and host data bus are 32 bits (R2). -/
abbrev Word := BitVec 32

/-- One RAM byte. -/
abbrev Byte := BitVec 8

/-- A level: 8 bits unsigned, the duty cycle is level/256 (R2, glossary). -/
abbrev Level := BitVec 8

/-- An offset in the 65536-byte window (R2). -/
abbrev Offset := BitVec 16

end Sys2Proof
end

