-- ==== Sys2Proof/Config.lean ====
section
/-! DEFINITION. What an implementation of DMR-PWM fixes: the parameters of 00_scope.md R1 and the fixed values of R2.
The spec leaves no result of an executed operation undefined, so no free value stands here. -/

namespace Sys2Proof

/-- The parameters of R1, "none has a value in any source". A record carries its legal ranges, so that an illegal choice cannot
be built. The model takes them as data in `Machine.State`, and no step changes them (log entry 1). -/
structure Params where
  /-- `P_BASE`: host byte address of offset 0x0000, 64 KiB aligned. -/
  base : Nat
  /-- `P_CAP_PAIRS`: capacity of CAP_RAM in stereo pairs and of OUT_RAM in bytes. -/
  capPairs : Nat
  /-- `P_REND_LEN`: capacity of REND_RAM in bytes. -/
  rendLen : Nat
  /-- `P_F_CLK` in Hz; no rule depends on it. -/
  fClk : Nat
  base_aligned : base % 65536 = 0 := by decide
  capPairs_legal : 1 ≤ capPairs ∧ capPairs ≤ 1024 := by decide
  rendLen_legal : 1 ≤ rendLen ∧ rendLen ≤ 4096 := by decide
  fClk_legal : 0 < fClk := by decide
deriving DecidableEq, Repr

/-- The parameters `State.reset` takes, the largest RAMs the window holds. DESIGN CHOICE, unsafe (log entry 1): R1 leaves them
OPEN; no statement of this package rests on these values. -/
def Config.params : Params := { base := 0, capPairs := 1024, rendLen := 4096, fClk := 1 }

/-- The constant of the ID register (10_state.md R14): "DMR", version 1. -/
def Config.idValue : Word := 0x444D5201#32

/-- The mid-scale offset of R2 and R57. -/
def Config.midScale : Int := 128

end Sys2Proof
end

