-- ==== Sys2Proof/Syntax.lean ====
section
/-! DEFINITION. The host accesses of DMR-PWM as syntax: one constructor of `Instr` per row of spec/opcode_table.json. -/

namespace Sys2Proof

/-- The width of a bus transfer: 1, 2 or 4 bytes; no other exists on the 32-bit bus (20_memory.md R39, 30_encoding.md R50). -/
inductive Width where
  | b1 | b2 | b4
deriving DecidableEq, Repr

/-- The number of bytes a width moves. -/
def Width.bytes : Width → Nat
  | .b1 => 1
  | .b2 => 2
  | .b4 => 4

/-- The direction of an access, bit 16 of the bus operation descriptor: 0 = read, 1 = write (30_encoding.md R48). -/
inductive Dir where
  | read | write
deriving DecidableEq, Repr

/-- The two formats of the opcode table: MMIO (R48) and CMD (R49). -/
inductive Format where
  | mmio | cmd
deriving DecidableEq, Repr

/-- Every host access the opcode table names. Registers and reserved space carry the bus width, writes their data `d`, RAM rows the
byte index into their window, fallback rows the window offset, and command rows the bits of the CMD word that R49 ignores. -/
inductive Instr where
  /-- RD.ID, R77. -/
  | rdId (w : Width)
  /-- RD.CTRL, R78. -/
  | rdCtrl (w : Width)
  /-- RD.CFG, R79. -/
  | rdCfg (w : Width)
  /-- RD.NPAIRS, R80. -/
  | rdNpairs (w : Width)
  /-- RD.CMD, R81. -/
  | rdCmd (w : Width)
  /-- RD.DUTY_STAGE, R82. -/
  | rdDutyStage (w : Width)
  /-- RD.DUTY_COMMIT, R83. -/
  | rdDutyCommit (w : Width)
  /-- RD.DUTY_ACTIVE, R84. -/
  | rdDutyActive (w : Width)
  /-- RD.PWM_CFG, R85. -/
  | rdPwmCfg (w : Width)
  /-- RD.PWM_CNT, R86. -/
  | rdPwmCnt (w : Width)
  /-- RD.TICK_DIV, R87. -/
  | rdTickDiv (w : Width)
  /-- RD.RLEN, R88. -/
  | rdRlen (w : Width)
  /-- RD.RPOS, R89. -/
  | rdRpos (w : Width)
  /-- RD.STATUS, R90. -/
  | rdStatus (w : Width)
  /-- RD.INT_STATUS, R91. -/
  | rdIntStatus (w : Width)
  /-- RD.INT_EN, R92. -/
  | rdIntEn (w : Width)
  /-- WR.ID, R93. -/
  | wrId (w : Width) (d : Word)
  /-- WR.CTRL, R67. -/
  | wrCtrl (w : Width) (d : Word)
  /-- WR.CFG, R94. -/
  | wrCfg (w : Width) (d : Word)
  /-- WR.NPAIRS, R95. -/
  | wrNpairs (w : Width) (d : Word)
  /-- WR.CMD, R96. -/
  | wrCmd (w : Width) (d : Word)
  /-- WR.DUTY_STAGE, R63. -/
  | wrDutyStage (w : Width) (d : Word)
  /-- WR.DUTY_COMMIT, R99. -/
  | wrDutyCommit (w : Width) (d : Word)
  /-- WR.DUTY_ACTIVE, R100. -/
  | wrDutyActive (w : Width) (d : Word)
  /-- WR.PWM_CFG, R66. -/
  | wrPwmCfg (w : Width) (d : Word)
  /-- WR.PWM_CNT, R101. -/
  | wrPwmCnt (w : Width) (d : Word)
  /-- WR.TICK_DIV, R102. -/
  | wrTickDiv (w : Width) (d : Word)
  /-- WR.RLEN, R103. -/
  | wrRlen (w : Width) (d : Word)
  /-- WR.RPOS, R104. -/
  | wrRpos (w : Width) (d : Word)
  /-- WR.STATUS, R105. -/
  | wrStatus (w : Width) (d : Word)
  /-- WR.INT_STATUS, R120. -/
  | wrIntStatus (w : Width) (d : Word)
  /-- WR.INT_EN, R106. -/
  | wrIntEn (w : Width) (d : Word)
  /-- CMD.NOP, R97; `rsv` is d[31:4]. -/
  | cmdNop (rsv : BitVec 28)
  /-- CMD.TRANSFORM, R59; `rsv` is d[31:4]. -/
  | cmdTransform (rsv : BitVec 28)
  /-- CMD.COMMIT, R64; `rsv` is d[31:4]. -/
  | cmdCommit (rsv : BitVec 28)
  /-- CMD.RENDER, R72; `rsv` is d[31:4]. -/
  | cmdRender (rsv : BitVec 28)
  /-- CMD.RSVD, OPC 0x4..0x7, R98; `opc` is d[1:0], `rsv` is d[31:4]. -/
  | cmdRsvd4 (opc : BitVec 2) (rsv : BitVec 28)
  /-- CMD.RSVD, OPC 0x8..0xF, R98; `opc` is d[2:0], `rsv` is d[31:4]. -/
  | cmdRsvd8 (opc : BitVec 3) (rsv : BitVec 28)
  /-- RD.CAP, R107; `i` is the byte index, the offset less the window's base. -/
  | rdCap (w : Width) (i : BitVec 13)
  /-- WR.CAP, R108. -/
  | wrCap (w : Width) (i : BitVec 13) (d : Word)
  /-- RD.OUT, R109; `i` is the byte index, the offset less the window's base. -/
  | rdOut (w : Width) (i : BitVec 10)
  /-- WR.OUT, R110. -/
  | wrOut (w : Width) (i : BitVec 10) (d : Word)
  /-- RD.REND, R111; `i` is the byte index, the offset less the window's base. -/
  | rdRend (w : Width) (i : BitVec 12)
  /-- WR.REND, R112. -/
  | wrRend (w : Width) (i : BitVec 12) (d : Word)
  /-- RSVD.RD, R113: the fallback row of reads. -/
  | rsvdRd (w : Width) (off : Offset)
  /-- RSVD.WR, R114: the fallback row of writes. -/
  | rsvdWr (w : Width) (off : Offset) (d : Word)
deriving DecidableEq, Repr

end Sys2Proof
end

