-- ==== Sys2Proof/WellFormed.lean ====
section
/-! DEFINITION. Which instructions are well formed: a write's data has exactly its width's bytes, and a fallback row carries an
offset that no other row matches. Every other operand is bounded by its type. -/

namespace Sys2Proof

/-- A write of `w` bytes has `w` bytes of data (30_encoding.md R48: "its data d (w bytes)"). -/
def Width.fits (w : Width) (d : Word) : Bool := decide (d.toNat < 256 ^ w.bytes)

/-- The offsets no row but a fallback row matches: outside the registers and the three RAM windows (20_memory.md R35,
43_register_access.md R113), and inside the registers every offset that is not 4-byte aligned (log entry 13). -/
def reservedOffset (off : Offset) : Bool :=
  let a := off.toNat
  (decide (a < 0x40) && decide (a % 4 ≠ 0)) || (decide (0x40 ≤ a) && decide (a < 0x2000)) ||
    (decide (0x4400 ≤ a) && decide (a < 0x6000)) || decide (0x7000 ≤ a)

/-- Well-formedness, constructor by constructor. -/
def Instr.wf : Instr → Bool
  | .rdId _ => true
  | .rdCtrl _ => true
  | .rdCfg _ => true
  | .rdNpairs _ => true
  | .rdCmd _ => true
  | .rdDutyStage _ => true
  | .rdDutyCommit _ => true
  | .rdDutyActive _ => true
  | .rdPwmCfg _ => true
  | .rdPwmCnt _ => true
  | .rdTickDiv _ => true
  | .rdRlen _ => true
  | .rdRpos _ => true
  | .rdStatus _ => true
  | .rdIntStatus _ => true
  | .rdIntEn _ => true
  | .wrId w d => w.fits d
  | .wrCtrl w d => w.fits d
  | .wrCfg w d => w.fits d
  | .wrNpairs w d => w.fits d
  | .wrCmd w d => w.fits d
  | .wrDutyStage w d => w.fits d
  | .wrDutyCommit w d => w.fits d
  | .wrDutyActive w d => w.fits d
  | .wrPwmCfg w d => w.fits d
  | .wrPwmCnt w d => w.fits d
  | .wrTickDiv w d => w.fits d
  | .wrRlen w d => w.fits d
  | .wrRpos w d => w.fits d
  | .wrStatus w d => w.fits d
  | .wrIntStatus w d => w.fits d
  | .wrIntEn w d => w.fits d
  | .cmdNop _ => true
  | .cmdTransform _ => true
  | .cmdCommit _ => true
  | .cmdRender _ => true
  | .cmdRsvd4 _ _ => true
  | .cmdRsvd8 _ _ => true
  | .rdCap _ _ => true
  | .wrCap w _ d => w.fits d
  | .rdOut _ _ => true
  | .wrOut w _ d => w.fits d
  | .rdRend _ _ => true
  | .wrRend w _ d => w.fits d
  | .rsvdRd _ off => reservedOffset off
  | .rsvdWr w off d => w.fits d && reservedOffset off

end Sys2Proof
end

