-- ==== Sys2Proof/Decode.lean ====
section
/-! DEFINITION. From the bytes of a transfer to an instruction and back: the rows of spec/opcode_table.json with their masks and
matches (30_encoding.md R48, R49), the decoder, the encoder, and the host's view `decodeTableWord`.

The spec gives bod, width and data of an access, and not their layout as bytes. The layout here is the model's (log entries 4, 5):
an MMIO transfer is seven bytes, bits 16..0 bod, bits 18..17 the width code, bits 23..19 zero, bits 55..24 the data word, little-endian;
a CMD transfer is the four bytes of the data word of a 4-byte write of CMD. -/

namespace Sys2Proof

/-- The 17-bit bus operation descriptor {dir, offset} (R48). -/
abbrev Bod := BitVec 17

/-- bit 16 of bod: 0 = read, 1 = write (R48). -/
def Dir.bit : Dir → BitVec 1
  | .read => 0#1
  | .write => 1#1

/-- `bod = {dir, offset}` (R48). -/
def mkBod (dir : Dir) (off : Offset) : Bod := dir.bit ++ off

/-- The width field of a record: 0 is the 4 bytes of the bus, so that a table word with no operand bits is a whole access.
DESIGN CHOICE, safe (log entry 5). -/
def Width.code : Width → BitVec 2
  | .b4 => 0#2
  | .b1 => 1#2
  | .b2 => 2#2

/-- The width a code stands for; code 3 is no width of the bus. -/
def Width.ofCode (c : BitVec 2) : Option Width :=
  if c = 0#2 then some .b4 else if c = 1#2 then some .b1 else if c = 2#2 then some .b2 else none

/-- The byte lanes a transfer of this width carries, zero-extended; the other lanes carry nothing (log entry 18). -/
def Width.lanes (w : Width) (d : Word) : Word :=
  match w with
  | .b1 => (d.extractLsb' 0 8).setWidth 32
  | .b2 => (d.extractLsb' 0 16).setWidth 32
  | .b4 => d

/-- Why bytes are no transfer of the bus. -/
inductive DecodeError where
  /-- The record has another length than its format's. -/
  | recordLength (f : Format) (n : Nat)
  /-- The width code stands for no width (R39: a 3-byte or wider access does not exist). -/
  | noSuchWidth
  /-- Bits 23..19 of an MMIO record are not zero. -/
  | recordPadding
deriving DecidableEq, Repr

/-- One row of the opcode table, MMIO format: `bod &&& mask = pattern`, and the instruction it stands for. -/
structure MmioRow where
  mask : Bod
  pattern : Bod
  build : Width → Offset → Word → Instr

/-- A row matches a descriptor (R48). -/
def MmioRow.hits (r : MmioRow) (bod : Bod) : Bool := bod &&& r.mask == r.pattern

/-- The exact rows of register reads, masks 0x1FFFF. -/
def readRows : List MmioRow :=
  [⟨0x1FFFF#17, 0x00000#17, fun w _ _ => .rdId w⟩,
   ⟨0x1FFFF#17, 0x00004#17, fun w _ _ => .rdCtrl w⟩,
   ⟨0x1FFFF#17, 0x00008#17, fun w _ _ => .rdCfg w⟩,
   ⟨0x1FFFF#17, 0x0000C#17, fun w _ _ => .rdNpairs w⟩,
   ⟨0x1FFFF#17, 0x00010#17, fun w _ _ => .rdCmd w⟩,
   ⟨0x1FFFF#17, 0x00014#17, fun w _ _ => .rdDutyStage w⟩,
   ⟨0x1FFFF#17, 0x00018#17, fun w _ _ => .rdDutyCommit w⟩,
   ⟨0x1FFFF#17, 0x0001C#17, fun w _ _ => .rdDutyActive w⟩,
   ⟨0x1FFFF#17, 0x00020#17, fun w _ _ => .rdPwmCfg w⟩,
   ⟨0x1FFFF#17, 0x00024#17, fun w _ _ => .rdPwmCnt w⟩,
   ⟨0x1FFFF#17, 0x00028#17, fun w _ _ => .rdTickDiv w⟩,
   ⟨0x1FFFF#17, 0x0002C#17, fun w _ _ => .rdRlen w⟩,
   ⟨0x1FFFF#17, 0x00030#17, fun w _ _ => .rdRpos w⟩,
   ⟨0x1FFFF#17, 0x00034#17, fun w _ _ => .rdStatus w⟩,
   ⟨0x1FFFF#17, 0x00038#17, fun w _ _ => .rdIntStatus w⟩,
   ⟨0x1FFFF#17, 0x0003C#17, fun w _ _ => .rdIntEn w⟩]

/-- The exact rows of register writes, masks 0x1FFFF. -/
def writeRows : List MmioRow :=
  [⟨0x1FFFF#17, 0x10000#17, fun w _ d => .wrId w d⟩,
   ⟨0x1FFFF#17, 0x10004#17, fun w _ d => .wrCtrl w d⟩,
   ⟨0x1FFFF#17, 0x10008#17, fun w _ d => .wrCfg w d⟩,
   ⟨0x1FFFF#17, 0x1000C#17, fun w _ d => .wrNpairs w d⟩,
   ⟨0x1FFFF#17, 0x10010#17, fun w _ d => .wrCmd w d⟩,
   ⟨0x1FFFF#17, 0x10014#17, fun w _ d => .wrDutyStage w d⟩,
   ⟨0x1FFFF#17, 0x10018#17, fun w _ d => .wrDutyCommit w d⟩,
   ⟨0x1FFFF#17, 0x1001C#17, fun w _ d => .wrDutyActive w d⟩,
   ⟨0x1FFFF#17, 0x10020#17, fun w _ d => .wrPwmCfg w d⟩,
   ⟨0x1FFFF#17, 0x10024#17, fun w _ d => .wrPwmCnt w d⟩,
   ⟨0x1FFFF#17, 0x10028#17, fun w _ d => .wrTickDiv w d⟩,
   ⟨0x1FFFF#17, 0x1002C#17, fun w _ d => .wrRlen w d⟩,
   ⟨0x1FFFF#17, 0x10030#17, fun w _ d => .wrRpos w d⟩,
   ⟨0x1FFFF#17, 0x10034#17, fun w _ d => .wrStatus w d⟩,
   ⟨0x1FFFF#17, 0x10038#17, fun w _ d => .wrIntStatus w d⟩,
   ⟨0x1FFFF#17, 0x1003C#17, fun w _ d => .wrIntEn w d⟩]

/-- The rows of the RAM windows; the index is the offset less the window's base. -/
def ramRows : List MmioRow :=
  [⟨0x1E000#17, 0x02000#17, fun w off _ => .rdCap w (off.setWidth 13)⟩,
   ⟨0x1E000#17, 0x12000#17, fun w off d => .wrCap w (off.setWidth 13) d⟩,
   ⟨0x1FC00#17, 0x04000#17, fun w off _ => .rdOut w (off.setWidth 10)⟩,
   ⟨0x1FC00#17, 0x14000#17, fun w off d => .wrOut w (off.setWidth 10) d⟩,
   ⟨0x1F000#17, 0x06000#17, fun w off _ => .rdRend w (off.setWidth 12)⟩,
   ⟨0x1F000#17, 0x16000#17, fun w off d => .wrRend w (off.setWidth 12) d⟩]

/-- Every row but the two fallback rows. No two of them match one descriptor (Laws/Decode.lean), so the first match is the most
specific one. -/
def specificRows : List MmioRow := readRows ++ writeRows ++ ramRows

/-- The fallback rows, mask 0x10000, "taken only when no other row does" (R48). -/
def fallbackRow (dir : Dir) (w : Width) (off : Offset) (d : Word) : Instr :=
  match dir with
  | .read => .rsvdRd w off
  | .write => .rsvdWr w off d

/-- The row an access selects, most specific first (R48). Total: every descriptor is some row's. -/
def decodeAccess (dir : Dir) (off : Offset) (w : Width) (d : Word) : Instr :=
  match specificRows.find? (fun r => r.hits (mkBod dir off)) with
  | some r => r.build w off (w.lanes d)
  | none => fallbackRow dir w off (w.lanes d)

/-- The row of a CMD data word: OPC = d[3:0], d[31:4] ignored (R49). The last row is the table's match 0x8, mask 0x8. -/
def decodeCmdWord (d : Word) : Instr :=
  let opc := d.extractLsb' 0 4
  let rsv := d.extractLsb' 4 28
  if opc &&& 0xF#4 = 0x0#4 then .cmdNop rsv
  else if opc &&& 0xF#4 = 0x1#4 then .cmdTransform rsv
  else if opc &&& 0xF#4 = 0x2#4 then .cmdCommit rsv
  else if opc &&& 0xF#4 = 0x3#4 then .cmdRender rsv
  else if opc &&& 0xC#4 = 0x4#4 then .cmdRsvd4 (opc.extractLsb' 0 2) rsv
  else .cmdRsvd8 (opc.extractLsb' 0 3) rsv

/-- The decoder: total on any bytes, rejecting by name what is no transfer of the bus. -/
def decode (f : Format) (bytes : List Byte) : Except DecodeError Instr :=
  match f, bytes with
  | .mmio, [b0, b1, b2, d0, d1, d2, d3] =>
    if b2.extractLsb' 3 5 ≠ 0#5 then .error .recordPadding
    else
      match Width.ofCode (b2.extractLsb' 1 2) with
      | none => .error .noSuchWidth
      | some w =>
        .ok (decodeAccess (if b2.extractLsb' 0 1 = 1#1 then .write else .read) (b1 ++ b0) w (d3 ++ d2 ++ d1 ++ d0))
  | .cmd, [d0, d1, d2, d3] => .ok (decodeCmdWord (d3 ++ d2 ++ d1 ++ d0))
  | f, bs => .error (.recordLength f bs.length)

/-! The encoder. -/

/-- What an instruction is on the bus: direction, window offset, width, and the data word (0 for a read). -/
structure BusAccess where
  dir : Dir
  off : Offset
  width : Width
  data : Word
deriving DecidableEq, Repr

/-- The descriptor, width and data of every row, from the table's matches and the CMD format of R49. -/
def Instr.access : Instr → BusAccess
  | .rdId w => ⟨.read, 0x0000#16, w, 0#32⟩
  | .rdCtrl w => ⟨.read, 0x0004#16, w, 0#32⟩
  | .rdCfg w => ⟨.read, 0x0008#16, w, 0#32⟩
  | .rdNpairs w => ⟨.read, 0x000C#16, w, 0#32⟩
  | .rdCmd w => ⟨.read, 0x0010#16, w, 0#32⟩
  | .rdDutyStage w => ⟨.read, 0x0014#16, w, 0#32⟩
  | .rdDutyCommit w => ⟨.read, 0x0018#16, w, 0#32⟩
  | .rdDutyActive w => ⟨.read, 0x001C#16, w, 0#32⟩
  | .rdPwmCfg w => ⟨.read, 0x0020#16, w, 0#32⟩
  | .rdPwmCnt w => ⟨.read, 0x0024#16, w, 0#32⟩
  | .rdTickDiv w => ⟨.read, 0x0028#16, w, 0#32⟩
  | .rdRlen w => ⟨.read, 0x002C#16, w, 0#32⟩
  | .rdRpos w => ⟨.read, 0x0030#16, w, 0#32⟩
  | .rdStatus w => ⟨.read, 0x0034#16, w, 0#32⟩
  | .rdIntStatus w => ⟨.read, 0x0038#16, w, 0#32⟩
  | .rdIntEn w => ⟨.read, 0x003C#16, w, 0#32⟩
  | .wrId w d => ⟨.write, 0x0000#16, w, d⟩
  | .wrCtrl w d => ⟨.write, 0x0004#16, w, d⟩
  | .wrCfg w d => ⟨.write, 0x0008#16, w, d⟩
  | .wrNpairs w d => ⟨.write, 0x000C#16, w, d⟩
  | .wrCmd w d => ⟨.write, 0x0010#16, w, d⟩
  | .wrDutyStage w d => ⟨.write, 0x0014#16, w, d⟩
  | .wrDutyCommit w d => ⟨.write, 0x0018#16, w, d⟩
  | .wrDutyActive w d => ⟨.write, 0x001C#16, w, d⟩
  | .wrPwmCfg w d => ⟨.write, 0x0020#16, w, d⟩
  | .wrPwmCnt w d => ⟨.write, 0x0024#16, w, d⟩
  | .wrTickDiv w d => ⟨.write, 0x0028#16, w, d⟩
  | .wrRlen w d => ⟨.write, 0x002C#16, w, d⟩
  | .wrRpos w d => ⟨.write, 0x0030#16, w, d⟩
  | .wrStatus w d => ⟨.write, 0x0034#16, w, d⟩
  | .wrIntStatus w d => ⟨.write, 0x0038#16, w, d⟩
  | .wrIntEn w d => ⟨.write, 0x003C#16, w, d⟩
  | .cmdNop rsv => ⟨.write, 0x0010#16, .b4, rsv ++ 0x0#4⟩
  | .cmdTransform rsv => ⟨.write, 0x0010#16, .b4, rsv ++ 0x1#4⟩
  | .cmdCommit rsv => ⟨.write, 0x0010#16, .b4, rsv ++ 0x2#4⟩
  | .cmdRender rsv => ⟨.write, 0x0010#16, .b4, rsv ++ 0x3#4⟩
  | .cmdRsvd4 opc rsv => ⟨.write, 0x0010#16, .b4, rsv ++ (1#2 ++ opc)⟩
  | .cmdRsvd8 opc rsv => ⟨.write, 0x0010#16, .b4, rsv ++ (1#1 ++ opc)⟩
  | .rdCap w i => ⟨.read, 1#3 ++ i, w, 0#32⟩
  | .wrCap w i d => ⟨.write, 1#3 ++ i, w, d⟩
  | .rdOut w i => ⟨.read, 0x10#6 ++ i, w, 0#32⟩
  | .wrOut w i d => ⟨.write, 0x10#6 ++ i, w, d⟩
  | .rdRend w i => ⟨.read, 0x6#4 ++ i, w, 0#32⟩
  | .wrRend w i d => ⟨.write, 0x6#4 ++ i, w, d⟩
  | .rsvdRd w off => ⟨.read, off, w, 0#32⟩
  | .rsvdWr w off d => ⟨.write, off, w, d⟩

/-- The format of every row. -/
def Instr.format : Instr → Format
  | .cmdNop _ => .cmd
  | .cmdTransform _ => .cmd
  | .cmdCommit _ => .cmd
  | .cmdRender _ => .cmd
  | .cmdRsvd4 _ _ => .cmd
  | .cmdRsvd8 _ _ => .cmd
  | .rdId _ => .mmio
  | .rdCtrl _ => .mmio
  | .rdCfg _ => .mmio
  | .rdNpairs _ => .mmio
  | .rdCmd _ => .mmio
  | .rdDutyStage _ => .mmio
  | .rdDutyCommit _ => .mmio
  | .rdDutyActive _ => .mmio
  | .rdPwmCfg _ => .mmio
  | .rdPwmCnt _ => .mmio
  | .rdTickDiv _ => .mmio
  | .rdRlen _ => .mmio
  | .rdRpos _ => .mmio
  | .rdStatus _ => .mmio
  | .rdIntStatus _ => .mmio
  | .rdIntEn _ => .mmio
  | .wrId _ _ => .mmio
  | .wrCtrl _ _ => .mmio
  | .wrCfg _ _ => .mmio
  | .wrNpairs _ _ => .mmio
  | .wrCmd _ _ => .mmio
  | .wrDutyStage _ _ => .mmio
  | .wrDutyCommit _ _ => .mmio
  | .wrDutyActive _ _ => .mmio
  | .wrPwmCfg _ _ => .mmio
  | .wrPwmCnt _ _ => .mmio
  | .wrTickDiv _ _ => .mmio
  | .wrRlen _ _ => .mmio
  | .wrRpos _ _ => .mmio
  | .wrStatus _ _ => .mmio
  | .wrIntStatus _ _ => .mmio
  | .wrIntEn _ _ => .mmio
  | .rdCap _ _ => .mmio
  | .wrCap _ _ _ => .mmio
  | .rdOut _ _ => .mmio
  | .wrOut _ _ _ => .mmio
  | .rdRend _ _ => .mmio
  | .wrRend _ _ _ => .mmio
  | .rsvdRd _ _ => .mmio
  | .rsvdWr _ _ _ => .mmio

/-- The four bytes of a word, lowest lane first (20_memory.md R37). -/
def dataBytes (d : Word) : List Byte :=
  [d.extractLsb' 0 8, d.extractLsb' 8 8, d.extractLsb' 16 8, d.extractLsb' 24 8]

/-- The record of an MMIO access. -/
def encodeAccess (a : BusAccess) : List Byte :=
  a.off.extractLsb' 0 8 :: a.off.extractLsb' 8 8 :: (0#5 ++ a.width.code ++ a.dir.bit) :: dataBytes a.data

/-- The encoder: the format and the bytes of an instruction. -/
def encode (i : Instr) : Format × List Byte :=
  match i.format with
  | .mmio => (.mmio, encodeAccess i.access)
  | .cmd => (.cmd, dataBytes i.access.data)

/-! The host's view: words numbered as spec/opcode_table.json numbers them. -/

/-- The lowest `n` bytes of a number, lowest first. -/
def leBytes : Nat → Nat → List Byte
  | 0, _ => []
  | n + 1, w => BitVec.ofNat 8 w :: leBytes n (w / 256)

/-- The transfer a table word stands for: the table gives a CMD row 4 bits and an MMIO row 17, so a word of at most 16 bits is a
CMD data word and a longer one starts with bod (log entry 7). Bits above `nbits` are zero. -/
def tableTransfer (nbits w : Nat) : Format × List Byte :=
  if nbits ≤ 16 then (.cmd, leBytes 4 (w % 2 ^ nbits)) else (.mmio, leBytes 7 (w % 2 ^ nbits))

/-- The instruction the decoder reads from a table word. -/
def decodeTableWord (nbits w : Nat) : Option Instr :=
  match decode (tableTransfer nbits w).1 (tableTransfer nbits w).2 with
  | .ok i => some i
  | .error _ => none

end Sys2Proof
end

