-- ==== Sys2Proof/Machine/State.lean ====
section
/-! DEFINITION. The state of DMR-PWM, the reasons a step can stop, and the machine right after reset. -/

namespace Sys2Proof.Machine

/-- The three RAMs (10_state.md R30 to R32). -/
inductive Ram where
  | cap | out | rend
deriving DecidableEq, Repr

/-- The format of the capture samples, `CFG.FMT` (R16): 0 = S16, 1 = S32. -/
inductive SampleFormat where
  | s16 | s32
deriving DecidableEq, Repr

/-- RAM contents: (window offset, byte) pairs, offsets strictly rising. A listed byte has been written since reset, an unlisted one
has not and has no value (20_memory.md R40, log entry 10). -/
abbrev Memory := List Host.Cell

/-- What the block answered on the bus. The spec says what an access returns; that the answer stands in State until the next one
is the model's (log entry 8). -/
inductive BusResponse where
  /-- No access since reset. -/
  | idle
  /-- A read of width `w` returned `v`, zero-extended to 32 bits (30_encoding.md R54). -/
  | readData (w : Width) (v : Word)
  /-- A write completed normally, a command that recorded an error included (60_exceptions.md R116). -/
  | writeDone
  /-- The error response `BusError(offset, width, dir)` (00_scope.md R7). -/
  | busError (off : Offset) (w : Width) (dir : Dir)
deriving DecidableEq, Repr

/-- One step of an agent: an edge of CLK, the reset input, a host transfer in one of the table's formats, or a host bus cycle at
a host byte address (10_state.md R9, 70_reset_and_hazards.md R130, log entries 2, 14, 15). -/
inductive Input where
  | clock
  | reset
  | transfer (f : Format) (bytes : List Byte)
  | hostCycle (addr : Nat) (dir : Dir) (w : Width) (d : Word)
deriving DecidableEq, Repr

/-- Why the model stops. -/
inductive Fault where
  /-- `raise Poison(ram, i)`: an operation read byte `i` of a RAM that nothing has written since reset. Raised by RAM reads,
  TRANSFORM and a render tick (20_memory.md R40). Safe: the chip goes on with a value the model refuses to name. -/
  | poison (ram : Ram) (i : Nat)
deriving DecidableEq, Repr

/-- Why the model gives no meaning. -/
inductive Refusal where
  /-- Raised by exec for an instruction that has no meaning yet, by its table mnemonic. Safe. -/
  | notModelled (mnemonic : String)
  /-- Raised by step for bytes that are no transfer of the 32-bit bus (20_memory.md R39, log entries 4, 5). Safe. -/
  | noSuchTransfer (e : DecodeError)
deriving DecidableEq, Repr

/-- Everything the spec gives the machine, and two fields of the model's own, `inputs` and `resp`. `ID` and `CMD` have no storage
(R14, R18); `STATUS.PWM_OUT` and `IRQ` are computed (41_duty_sink.md R69, 60_exceptions.md R119). -/
structure State where
  /-- The parameters of 00_scope.md R1; no step changes them. -/
  params : Params
  /-- `CTRL.PWM_EN` (R15). -/
  pwmEn : Bool
  /-- `CFG.FMT` (R16). -/
  fmt : SampleFormat
  /-- `CFG.SHIFT` (R16). -/
  shift : BitVec 5
  /-- `NPAIRS.N` (R17). -/
  npairs : BitVec 16
  /-- `DUTY_STAGE.LEVEL` (R19). -/
  dutyStage : Level
  /-- `DUTY_COMMIT.LEVEL` (R20). -/
  dutyCommit : Level
  /-- `DUTY_ACTIVE.LEVEL` (R21). -/
  dutyActive : Level
  /-- `PWM_CFG.RES` (R22). -/
  pwmRes : BitVec 4
  /-- `PWM_CFG.DIV` (R22). -/
  pwmDiv : BitVec 16
  /-- `PWM_CNT.CNT` (R23). -/
  pwmCnt : BitVec 15
  /-- `TICK_DIV.T` (R24). -/
  tickDiv : BitVec 24
  /-- `RLEN.LEN` (R25). -/
  rlen : BitVec 13
  /-- `RPOS.POS` (R26). -/
  rpos : BitVec 13
  /-- `STATUS.RBUSY` (R27). -/
  rbusy : Bool
  /-- `STATUS.ERRCODE` (R27). -/
  errcode : BitVec 4
  /-- `INT_STATUS.RDONE` (R28). -/
  intRdone : Bool
  /-- `INT_STATUS.ERR` (R28). -/
  intErr : Bool
  /-- `INT_EN.RDONE_EN` (R29). -/
  rdoneEn : Bool
  /-- `INT_EN.ERR_EN` (R29). -/
  errEn : Bool
  /-- `h.PRE` (R33): the PWM prescaler count. -/
  hPre : BitVec 16
  /-- `h.TCNT` (R33): clock steps left before the next render tick. -/
  hTcnt : BitVec 24
  /-- `h.RLEN_L` (R33): the length latched by RENDER. -/
  hRlenL : BitVec 13
  /-- `h.TDIV_L` (R33): the tick interval latched by RENDER. -/
  hTdivL : BitVec 24
  /-- CAP_RAM, OUT_RAM and REND_RAM with the marks `h.wCAP`, `h.wOUT`, `h.wREND` (R30 to R33). -/
  mem : Memory
  /-- MODEL'S OWN: the inputs still to come, oldest first; when none is pending the clock steps (log entry 2). -/
  inputs : List Input
  /-- MODEL'S OWN: the last answer on the bus (log entry 8). -/
  resp : BusResponse
deriving DecidableEq, Repr

/-- What a step ends in. -/
abbrev Result := Host.Outcome State Fault Refusal

/-- The reset state of 70_reset_and_hazards.md R130 for given parameters: every register at the value of 10_state.md section 3,
hidden state at the values of R33, every RAM byte unwritten. -/
def State.resetWith (p : Params) : State where
  params := p
  pwmEn := false
  fmt := .s16
  shift := 8#5
  npairs := 0#16
  dutyStage := 0x80#8
  dutyCommit := 0x80#8
  dutyActive := 0x80#8
  pwmRes := 8#4
  pwmDiv := 1#16
  pwmCnt := 0#15
  tickDiv := 1#24
  rlen := 0#13
  rpos := 0#13
  rbusy := false
  errcode := 0#4
  intRdone := false
  intErr := false
  rdoneEn := false
  errEn := false
  hPre := 0#16
  hTcnt := 0#24
  hRlenL := 0#13
  hTdivL := 1#24
  mem := []
  inputs := []
  resp := .idle

/-- The machine right after reset, with the parameters of `Config.params` (log entry 1). -/
def State.reset : State := State.resetWith Config.params

end Sys2Proof.Machine
end

