-- ==== Sys2Proof/Machine/Ops.lean ====
section
/-! DEFINITION. The named operations over RAM, the bus and the error record. Recording a command error (60_exceptions.md R116) and
answering a bus error (00_scope.md R7) are one operation each, and the acknowledgement that re-arms the record (R120, R122) stands beside
them. -/

namespace Sys2Proof.Machine

/-! ## The address space (20_memory.md R35) -/

/-- The first window offset of a RAM. -/
def Ram.base : Ram → Nat
  | .cap => 0x2000
  | .out => 0x4000
  | .rend => 0x6000

/-- How many bytes of a RAM are implemented (R30 to R32). -/
def Ram.size (p : Params) : Ram → Nat
  | .cap => 8 * p.capPairs
  | .out => p.capPairs
  | .rend => p.rendLen

/-- The window offset of byte `i` of a RAM. -/
def Ram.addr (r : Ram) (i : Nat) : Nat := r.base + i

/-- The window offset of a host byte address, if the block decodes it (R35). -/
def windowOffset (p : Params) (addr : Nat) : Option Offset :=
  if p.base ≤ addr ∧ addr < p.base + 0x10000 then some (BitVec.ofNat 16 (addr - p.base)) else none

/-! ## Memory as a canonical list -/

/-- The canonical form: offsets strictly rising. No entry equals what an unlisted offset reads as, since that is no value. -/
def Memory.wf : Memory → Bool
  | [] => true
  | [_] => true
  | (a, _) :: (b, y) :: m => decide (a < b) && Memory.wf ((b, y) :: m)

/-- What an offset reads as: the byte written last, or no value where nothing was written since reset (R40). -/
def Memory.read : Memory → Nat → Option Byte
  | [], _ => none
  | (k, v) :: m, a => if k = a then some v else Memory.read m a

/-- Write one byte, keeping the list canonical. -/
def Memory.write : Memory → Nat → Byte → Memory
  | [], a, b => [(a, b)]
  | (k, v) :: m, a, b =>
    if a < k then (a, b) :: (k, v) :: m
    else if a = k then (a, b) :: m
    else (k, v) :: Memory.write m a b

/-! ## RAM bytes -/

/-- Byte `i` of a RAM, if it has been written since reset. -/
def State.ramByte (s : State) (r : Ram) (i : Nat) : Option Byte := s.mem.read (r.addr i)

/-- The mark `h.wCAP[i]`, `h.wOUT[i]` or `h.wREND[i]` (R33): 1 once the byte has been written since reset. -/
def State.ramMark (s : State) (r : Ram) (i : Nat) : Bool := (s.ramByte r i).isSome

/-- The bytes `i .. i+n-1` of a RAM as a host read sees them: 0 beyond the implemented size, Poison at the first byte that is
implemented and unwritten (43_register_access.md R107). -/
def readBytes (s : State) (r : Ram) (i : Nat) : Nat → Except Fault (List Byte)
  | 0 => .ok []
  | n + 1 =>
    if i < r.size s.params then
      match s.ramByte r i with
      | none => .error (.poison r i)
      | some b =>
        match readBytes s r (i + 1) n with
        | .ok bs => .ok (b :: bs)
        | .error f => .error f
    else
      match readBytes s r (i + 1) n with
      | .ok bs => .ok (0#8 :: bs)
      | .error f => .error f

/-- Store one byte and set its mark; a byte beyond the implemented size is ignored (R108). -/
def storeByte (r : Ram) (i : Nat) (b : Byte) (s : State) : State :=
  if i < r.size s.params then { s with mem := s.mem.write (r.addr i) b } else s

/-- Store bytes at `i`, `i+1`, … -/
def storeBytes (r : Ram) : Nat → List Byte → State → State
  | _, [], s => s
  | i, b :: bs, s => storeBytes r (i + 1) bs (storeByte r i b s)

/-! ## Byte order (20_memory.md R37) -/

/-- The word whose byte lanes are `bs`, the first at bits 7..0; lanes beyond the list are 0. -/
def leWord : List Byte → Word
  | [] => 0#32
  | b :: bs => (leWord bs <<< 8) ||| b.setWidth 32

/-- The bytes a transfer of width `w` carries, lane 0 first. -/
def wordBytes (w : Width) (d : Word) : List Byte :=
  match w with
  | .b1 => [d.extractLsb' 0 8]
  | .b2 => [d.extractLsb' 0 8, d.extractLsb' 8 8]
  | .b4 => [d.extractLsb' 0 8, d.extractLsb' 8 8, d.extractLsb' 16 8, d.extractLsb' 24 8]

/-! ## Answers on the bus -/

/-- The state with an answer on the bus. -/
def State.respond (r : BusResponse) (s : State) : State := { s with resp := r }

/-- A write completes normally. -/
def complete (s : State) : Result := .next (s.respond .writeDone)

/-- A read returns `v`. -/
def deliver (w : Width) (v : Word) (s : State) : Result := .next (s.respond (.readData w v))

/-- `raise BusError(offset, width, dir)`: an error response to the host and no change of the block (R7). -/
def raiseBusError (dir : Dir) (off : Offset) (w : Width) (s : State) : Result := .next (s.respond (.busError off w dir))

/-- The width and alignment an access needs: 4 bytes at a 4-byte aligned offset below 0x1000 (R38), its own width's alignment from
0x1000 up (R39). -/
def legalAccess (off : Offset) (w : Width) : Bool :=
  if off.toNat < 0x1000 then decide (w = .b4) && decide (off.toNat % 4 = 0) else decide (off.toNat % w.bytes = 0)

/-- A host access: the width and alignment are checked before the row's rule applies (R48, 60_exceptions.md R117). -/
def hostAccess (dir : Dir) (off : Offset) (w : Width) (op : State → Result) (s : State) : Result :=
  if legalAccess off w then op s else raiseBusError dir off w s

/-- A read of a register whose 32-bit value is `v`. -/
def readRegister (off : Offset) (w : Width) (v : Word) (s : State) : Result := hostAccess .read off w (deliver w v) s

/-- A write of a register, the effect given. -/
def writeRegister (off : Offset) (w : Width) (op : State → Result) (s : State) : Result := hostAccess .write off w op s

/-- A write that is ignored: read-only registers, OUT_RAM, reserved space (20_memory.md R36). -/
def ignoreWrite (off : Offset) (w : Width) (s : State) : Result := hostAccess .write off w complete s

/-- A read of a RAM (R107, R109, R111). -/
def loadRam (r : Ram) (i : Nat) (w : Width) (s : State) : Result :=
  match readBytes s r i w.bytes with
  | .ok bs => deliver w (leWord bs) s
  | .error f => .fault f

/-- A write of a RAM (R108, R112). -/
def storeRam (r : Ram) (i : Nat) (w : Width) (d : Word) (s : State) : Result :=
  complete (storeBytes r i (wordBytes w d) s)

/-! ## Command errors: the block's exceptions (60_exceptions.md) -/

/-- The command errors of R115. -/
inductive ErrCode where
  | badOp | busy | range | locked
deriving DecidableEq, Repr

/-- The code recorded in `STATUS.ERRCODE` (R115). -/
def ErrCode.bits : ErrCode → BitVec 4
  | .badOp => 1#4
  | .busy => 2#4
  | .range => 3#4
  | .locked => 4#4

/-- The record of R116: the first code since the last clear is kept, `INT_STATUS.ERR` is set, and nothing else. -/
def recordCmdError (e : ErrCode) (s : State) : State :=
  { s with errcode := if s.intErr then s.errcode else e.bits, intErr := true }

/-- `raise CmdError(code)`: the error is recorded, the operation has no other effect, the access completes normally (R116). -/
def raiseCmdError (e : ErrCode) (s : State) : Result := complete (recordCmdError e s)

/-- The W1C acknowledgement of R120, the analogue of a trap return (R122): it re-arms the error record. -/
def acknowledge (rdone err : Bool) (s : State) : State :=
  { s with
    intRdone := s.intRdone && !rdone
    intErr := s.intErr && !err
    errcode := if err then 0#4 else s.errcode }

end Sys2Proof.Machine
end

