-- ==== Sys2Proof/Machine/Clock.lean ====
section
/-! DEFINITION. The clock agent: one rising edge of CLK (10_state.md R10), its render part (42_render.md R73) and its PWM part
(41_duty_sink.md R68). Both read the state before the edge. -/

namespace Sys2Proof.Machine

/-- What the PWM part writes (R10). -/
structure PwmWrites where
  cnt : BitVec 15
  pre : BitVec 16
  active : Level
deriving DecidableEq, Repr

/-- The largest PWM_CNT of a period: 2^RES - 1 (R68). -/
def lastCount (s : State) : Nat := 2 ^ s.pwmRes.toNat - 1

/-- The prescaler is at its last count, `h.PRE = DIV - 1` (R68). -/
def prescalerFull (s : State) : Bool := decide (s.hPre.toNat + 1 = s.pwmDiv.toNat)

/-- This clock step is a refresh boundary (R68): PWM_CNT goes from 2^RES - 1 to 0. -/
def refreshBoundary (s : State) : Bool := s.pwmEn && prescalerFull s && decide (s.pwmCnt.toNat = lastCount s)

/-- The PWM part of a clock step (R68). -/
def pwmPart (s : State) : PwmWrites :=
  if s.pwmEn then
    if prescalerFull s then
      if s.pwmCnt.toNat = lastCount s then { cnt := 0#15, pre := 0#16, active := s.dutyCommit }
      else { cnt := s.pwmCnt + 1#15, pre := 0#16, active := s.dutyActive }
    else { cnt := s.pwmCnt, pre := s.hPre + 1#16, active := s.dutyActive }
  else { cnt := s.pwmCnt, pre := s.hPre, active := s.dutyActive }

/-- What the render part writes (R10). -/
structure RenderWrites where
  stage : Level
  commit : Level
  rpos : BitVec 13
  rbusy : Bool
  rdone : Bool
  tcnt : BitVec 24
deriving DecidableEq, Repr

/-- The render part's writes when it changes nothing. -/
def renderHold (s : State) : RenderWrites :=
  { stage := s.dutyStage, commit := s.dutyCommit, rpos := s.rpos, rbusy := s.rbusy, rdone := s.intRdone, tcnt := s.hTcnt }

/-- The render part of a clock step (R73); a tick over an unwritten byte raises Poison(REND, RPOS). -/
def renderPart (s : State) : Except Fault RenderWrites :=
  if s.rbusy then
    if s.hTcnt = 0#24 then
      if s.rpos = s.hRlenL then .ok { renderHold s with rbusy := false, rdone := true }
      else
        match s.ramByte .rend s.rpos.toNat with
        | none => .error (.poison .rend s.rpos.toNat)
        | some b => .ok { renderHold s with stage := b, commit := b, rpos := s.rpos + 1#13, tcnt := s.hTdivL - 1#24 }
    else .ok { renderHold s with tcnt := s.hTcnt - 1#24 }
  else .ok (renderHold s)

/-- Both parts' results written at once (R10). -/
def applyClock (s : State) (r : RenderWrites) (p : PwmWrites) : State :=
  { s with
    dutyStage := r.stage
    dutyCommit := r.commit
    rpos := r.rpos
    rbusy := r.rbusy
    intRdone := r.rdone
    hTcnt := r.tcnt
    pwmCnt := p.cnt
    hPre := p.pre
    dutyActive := p.active }

/-- A clock step (R10). -/
def clockStep (s : State) : Result :=
  match renderPart s with
  | .error f => .fault f
  | .ok r => .next (applyClock s r (pwmPart s))

/-- `n` clock steps in a row, stopping at the first fault. -/
def clockSteps : Nat → State → Result
  | 0, s => .next s
  | n + 1, s =>
    match clockStep s with
    | .next t => clockSteps n t
    | .fault f => .fault f
    | .refused r => .refused r

end Sys2Proof.Machine
end

