-- ==== Sys2Proof/Machine/Render.lean ====
section
/-! DEFINITION. The RENDER command (42_render.md R72). The sequencer it starts is the render part of Machine/Clock.lean. -/

namespace Sys2Proof.Machine

/-- The length a RENDER may play: 1 .. P_REND_LEN (R72). -/
def lengthInRange (s : State) : Bool := decide (s.rlen.toNat ≠ 0) && decide (s.rlen.toNat ≤ s.params.rendLen)

/-- A render starts: length and tick interval are latched, the first level is taken at the next clock step (R72). -/
def startRender (s : State) : State :=
  { s with hRlenL := s.rlen, hTdivL := s.tickDiv, rpos := 0#13, hTcnt := 0#24, rbusy := true }

/-- CMD.RENDER (R72): E_BUSY before E_RANGE (60_exceptions.md R117). -/
def execCmdRender (_rsv : BitVec 28) (s : State) : Result :=
  if s.rbusy then raiseCmdError .busy s
  else if lengthInRange s then complete (startRender s)
  else raiseCmdError .range s

end Sys2Proof.Machine
end

