-- ==== Sys2Proof/Machine/Operands.lean ====
section
/-! DEFINITION. Operand assembly: the fields of a written word (30_encoding.md R52), the WARL rules of 10_state.md, and the signed
samples of CAP_RAM (R51). -/

namespace Sys2Proof.Machine

/-! ## Fields of a written word -/

/-- `d[i]`. -/
def bitOf (d : Word) (i : Nat) : Bool := d.getLsbD i

/-- The level of a DUTY_STAGE write: `d[7:0]` (R63). -/
def levelField (d : Word) : Level := d.extractLsb' 0 8

/-- `CFG.FMT` from `d[0]` (R94). -/
def fmtField (d : Word) : SampleFormat := if bitOf d 0 then .s32 else .s16

/-- `CFG.SHIFT` from `d[12:8]` (R94). -/
def shiftField (d : Word) : BitVec 5 := d.extractLsb' 8 5

/-- `NPAIRS.N` from `d[15:0]` (R95). -/
def npairsField (d : Word) : BitVec 16 := d.extractLsb' 0 16

/-- `RLEN.LEN` from `d[12:0]` (R103). -/
def rlenField (d : Word) : BitVec 13 := d.extractLsb' 0 13

/-- `TICK_DIV.T` from `d[23:0]`; 0 stores 1 (R24, R102). -/
def tickDivField (d : Word) : BitVec 24 := if d.extractLsb' 0 24 = 0#24 then 1#24 else d.extractLsb' 0 24

/-- `PWM_CFG.RES` from `d[3:0]`; a value below 8 stores 8 (R22, R66). -/
def resField (d : Word) : BitVec 4 := if (d.extractLsb' 0 4).toNat < 8 then 8#4 else d.extractLsb' 0 4

/-- `PWM_CFG.DIV` from `d[31:16]`; 0 stores 1 (R22, R66). -/
def divField (d : Word) : BitVec 16 := if d.extractLsb' 16 16 = 0#16 then 1#16 else d.extractLsb' 16 16

/-- The opcode of a CMD word: `d[3:0]` (R49). -/
def opcField (d : Word) : BitVec 4 := d.extractLsb' 0 4

/-! ## Capture samples -/

/-- An S16 sample from its two bytes, low byte first (R51). -/
def sample16 (b0 b1 : Byte) : Int := (b1 ++ b0).toInt

/-- An S32 sample from its four bytes, low byte first (R51). -/
def sample32 (b0 b1 b2 b3 : Byte) : Int := (b3 ++ b2 ++ b1 ++ b0).toInt

/-- The pairs of an S16 capture block: sample k at bytes 2k, 2k+1 (R51). -/
def pairs16 : List Byte → List (Int × Int)
  | b0 :: b1 :: b2 :: b3 :: rest => (sample16 b0 b1, sample16 b2 b3) :: pairs16 rest
  | _ => []

/-- The pairs of an S32 capture block: sample k at bytes 4k .. 4k+3 (R51). -/
def pairs32 : List Byte → List (Int × Int)
  | b0 :: b1 :: b2 :: b3 :: b4 :: b5 :: b6 :: b7 :: rest =>
    (sample32 b0 b1 b2 b3, sample32 b4 b5 b6 b7) :: pairs32 rest
  | _ => []

/-- The bytes of one pair in a format (R51, R59). -/
def SampleFormat.pairBytes : SampleFormat → Nat
  | .s16 => 4
  | .s32 => 8

/-- The pairs of a capture block in a format. -/
def samplePairs (f : SampleFormat) (bs : List Byte) : List (Int × Int) :=
  match f with
  | .s16 => pairs16 bs
  | .s32 => pairs32 bs

end Sys2Proof.Machine
end

