-- ==== Sys2Proof/Machine/Sink.lean ====
section
/-! DEFINITION. The duty-cycle sink family (41_duty_sink.md): stage, commit, modulator configuration and enable. -/

namespace Sys2Proof.Machine

/-- WR.DUTY_STAGE (R63): refused with E_BUSY while a render runs. -/
def execWrDutyStage (w : Width) (d : Word) (s : State) : Result :=
  writeRegister 0x0014#16 w (fun s =>
    if s.rbusy then raiseCmdError .busy s else complete { s with dutyStage := levelField d }) s

/-- CMD.COMMIT (R64): refused with E_BUSY while a render runs. -/
def execCmdCommit (_rsv : BitVec 28) (s : State) : Result :=
  if s.rbusy then raiseCmdError .busy s else complete { s with dutyCommit := s.dutyStage }

/-- WR.PWM_CFG (R66): refused with E_LOCKED while the modulator runs. -/
def execWrPwmCfg (w : Width) (d : Word) (s : State) : Result :=
  writeRegister 0x0020#16 w (fun s =>
    if s.pwmEn then raiseCmdError .locked s
    else complete { s with pwmRes := resField d, pwmDiv := divField d }) s

/-- The effect of writing CTRL.PWM_EN (R67): an enable is a refresh boundary, a disable clears the counters, and writing the current
value changes nothing. -/
def setPwmEnable (new : Bool) (s : State) : State :=
  if s.pwmEn = false ∧ new = true then
    { s with pwmEn := true, pwmCnt := 0#15, hPre := 0#16, dutyActive := s.dutyCommit }
  else if s.pwmEn = true ∧ new = false then { s with pwmEn := false, pwmCnt := 0#15, hPre := 0#16 }
  else s

/-- WR.CTRL (R67). -/
def execWrCtrl (w : Width) (d : Word) (s : State) : Result :=
  writeRegister 0x0004#16 w (fun s => complete (setPwmEnable (bitOf d 0) s)) s

end Sys2Proof.Machine
end

