-- ==== Sys2Proof/Machine/Transform.lean ====
section
/-! DEFINITION. The downmix/rescale family (40_transform.md): the per-pair function and the TRANSFORM command. -/

namespace Sys2Proof.Machine

/-- `tdiv2`: halving that truncates toward zero (00_scope.md R5). -/
def tdiv2 (x : Int) : Int := Int.tdiv x 2

/-- `asr`: floor(x / 2^s), the arithmetic right shift (R5). -/
def asr (x : Int) (s : Nat) : Int := Int.fdiv x (2 ^ s)

/-- `clamp` (R5). -/
def clamp (x lo hi : Int) : Int := if x < lo then lo else if hi < x then hi else x

/-- The level of a pair before it is narrowed: exact integers throughout (R57). -/
def mixValue (a b : Int) (s : Nat) : Int := clamp (asr (tdiv2 (a + b)) s + Config.midScale) 0 255

/-- `mix(a, b, s)` (R57). -/
def mix (a b : Int) (s : Nat) : Level := BitVec.ofInt 8 (mixValue a b s)

/-- The number of pairs a TRANSFORM may process: 1 .. P_CAP_PAIRS (R59). -/
def pairsInRange (s : State) : Bool := decide (s.npairs.toNat ≠ 0) && decide (s.npairs.toNat ≤ s.params.capPairs)

/-- The capture bytes a TRANSFORM reads: 4*N in S16, 8*N in S32 (R59). -/
def captureBytes (s : State) : Nat := s.fmt.pairBytes * s.npairs.toNat

/-- The levels of a capture block (R51, R57). -/
def mixAll (s : State) (bs : List Byte) : List Level :=
  (samplePairs s.fmt bs).map fun p => mix p.1 p.2 s.shift.toNat

/-- The TRANSFORM operation (R59): the range check, then Poison on the first unwritten capture byte before any write, then every
level into OUT_RAM as one access. -/
def transform (s : State) : Result :=
  if pairsInRange s then
    match readBytes s .cap 0 (captureBytes s) with
    | .error f => .fault f
    | .ok bs => complete (storeBytes .out 0 (mixAll s bs) s)
  else raiseCmdError .range s

/-- CMD.TRANSFORM (R59); the reserved bits of the CMD word are ignored (R49). -/
def execCmdTransform (_rsv : BitVec 28) (s : State) : Result := transform s

end Sys2Proof.Machine
end

