-- ==== Sys2Proof/Machine/Command.lean ====
section
/-! DEFINITION. The CMD register's write and the commands that have no family of their own (43_register_access.md R96 to R98). A
command is a 4-byte write of offset 0x010, which always passes the checks of 20_memory.md R38. -/

namespace Sys2Proof.Machine

/-- CMD.NOP (R97): no effect, also during a render. -/
def execCmdNop (_rsv : BitVec 28) (s : State) : Result := complete s

/-- CMD.RSVD, OPC 0x4..0x7 (R98). -/
def execCmdRsvd4 (_opc : BitVec 2) (_rsv : BitVec 28) (s : State) : Result := raiseCmdError .badOp s

/-- CMD.RSVD, OPC 0x8..0xF (R98). -/
def execCmdRsvd8 (_opc : BitVec 3) (_rsv : BitVec 28) (s : State) : Result := raiseCmdError .badOp s

/-- The case of R96 over d[3:0]; d[31:4] is ignored. -/
def runCommand (d : Word) (s : State) : Result :=
  let rsv := d.extractLsb' 4 28
  if opcField d = 0x0#4 then execCmdNop rsv s
  else if opcField d = 0x1#4 then execCmdTransform rsv s
  else if opcField d = 0x2#4 then execCmdCommit rsv s
  else if opcField d = 0x3#4 then execCmdRender rsv s
  else if (opcField d).toNat < 8 then execCmdRsvd4 (d.extractLsb' 0 2) rsv s
  else execCmdRsvd8 (d.extractLsb' 0 3) rsv s

/-- WR.CMD (R96). -/
def execWrCmd (w : Width) (d : Word) (s : State) : Result := writeRegister 0x0010#16 w (runCommand d) s

end Sys2Proof.Machine
end

