-- ==== Sys2Proof/Machine/RamAccess.lean ====
section
/-! DEFINITION. Host accesses to the RAM windows and to reserved space (43_register_access.md R107 to R114). -/

namespace Sys2Proof.Machine

/-- The window offset of byte `i` of a RAM, as the bus carries it. -/
def Ram.offset (r : Ram) (i : Nat) : Offset := BitVec.ofNat 16 (r.addr i)

/-- RD.CAP (R107). -/
def execRdCap (w : Width) (i : BitVec 13) (s : State) : Result :=
  hostAccess .read (Ram.cap.offset i.toNat) w (loadRam .cap i.toNat w) s

/-- WR.CAP (R108). -/
def execWrCap (w : Width) (i : BitVec 13) (d : Word) (s : State) : Result :=
  hostAccess .write (Ram.cap.offset i.toNat) w (storeRam .cap i.toNat w d) s

/-- RD.OUT (R109). -/
def execRdOut (w : Width) (i : BitVec 10) (s : State) : Result :=
  hostAccess .read (Ram.out.offset i.toNat) w (loadRam .out i.toNat w) s

/-- WR.OUT (R110): OUT_RAM is written only by TRANSFORM. -/
def execWrOut (w : Width) (i : BitVec 10) (_d : Word) (s : State) : Result :=
  ignoreWrite (Ram.out.offset i.toNat) w s

/-- RD.REND (R111). -/
def execRdRend (w : Width) (i : BitVec 12) (s : State) : Result :=
  hostAccess .read (Ram.rend.offset i.toNat) w (loadRam .rend i.toNat w) s

/-- WR.REND (R112): accepted also during a render. -/
def execWrRend (w : Width) (i : BitVec 12) (d : Word) (s : State) : Result :=
  hostAccess .write (Ram.rend.offset i.toNat) w (storeRam .rend i.toNat w d) s

/-- RSVD.RD (R113): reads as zero. -/
def execRsvdRd (w : Width) (off : Offset) (s : State) : Result := hostAccess .read off w (deliver w 0#32) s

/-- RSVD.WR (R114): ignored. -/
def execRsvdWr (w : Width) (off : Offset) (_d : Word) (s : State) : Result := ignoreWrite off w s

end Sys2Proof.Machine
end

