-- ==== Sys2Proof/Machine/Flags.lean ====
section
/-! DEFINITION. The words the registers read as (43_register_access.md R77 to R92) and the two outputs computed from state: PWM_OUT
(41_duty_sink.md R69) and IRQ (60_exceptions.md R119). -/

namespace Sys2Proof.Machine

/-! ## Outputs -/

/-- The compare value DC of R69. Below RES = 8, which no run reaches, the factor is 1 (log entry 12). -/
def compareValue (s : State) : Nat := s.dutyActive.toNat * 2 ^ (s.pwmRes.toNat - 8)

/-- The pin PWM_OUT, mirrored in STATUS.PWM_OUT (R69). -/
def pwmOut (s : State) : Bool := s.pwmEn && decide (s.pwmCnt.toNat < compareValue s)

/-- The interrupt output (R119). -/
def irq (s : State) : Bool := (s.intRdone && s.rdoneEn) || (s.intErr && s.errEn)

/-! ## Register words -/

/-- `CFG.FMT` as its bit (R16). -/
def SampleFormat.bit : SampleFormat → BitVec 1
  | .s16 => 0#1
  | .s32 => 1#1

/-- CTRL (R78). -/
def ctrlWord (s : State) : Word := 0#31 ++ BitVec.ofBool s.pwmEn

/-- CFG (R79). -/
def cfgWord (s : State) : Word := 0#19 ++ s.shift ++ 0#7 ++ s.fmt.bit

/-- NPAIRS (R80). -/
def npairsWord (s : State) : Word := 0#16 ++ s.npairs

/-- A level register: DUTY_STAGE, DUTY_COMMIT, DUTY_ACTIVE (R82 to R84). -/
def levelWord (l : Level) : Word := 0#24 ++ l

/-- PWM_CFG (R85). -/
def pwmCfgWord (s : State) : Word := s.pwmDiv ++ 0#12 ++ s.pwmRes

/-- PWM_CNT (R86). -/
def pwmCntWord (s : State) : Word := 0#17 ++ s.pwmCnt

/-- TICK_DIV (R87). -/
def tickDivWord (s : State) : Word := 0#8 ++ s.tickDiv

/-- RLEN (R88). -/
def rlenWord (s : State) : Word := 0#19 ++ s.rlen

/-- RPOS (R89). -/
def rposWord (s : State) : Word := 0#19 ++ s.rpos

/-- STATUS (R90). -/
def statusWord (s : State) : Word := 0#20 ++ s.errcode ++ 0#6 ++ BitVec.ofBool (pwmOut s) ++ BitVec.ofBool s.rbusy

/-- INT_STATUS (R91). -/
def intStatusWord (s : State) : Word := 0#30 ++ BitVec.ofBool s.intErr ++ BitVec.ofBool s.intRdone

/-- INT_EN (R92). -/
def intEnWord (s : State) : Word := 0#30 ++ BitVec.ofBool s.errEn ++ BitVec.ofBool s.rdoneEn

end Sys2Proof.Machine
end

