-- ==== Sys2Proof/Machine/RegRead.lean ====
section
/-! DEFINITION. Register reads (43_register_access.md R77 to R92). A read has no side effect (20_memory.md R41). -/

namespace Sys2Proof.Machine

/-- RD.ID (R77). It is the constant of R14. -/
def execRdId (w : Width) (s : State) : Result := readRegister 0x0000#16 w Config.idValue s

/-- RD.CTRL (R78). -/
def execRdCtrl (w : Width) (s : State) : Result := readRegister 0x0004#16 w (ctrlWord s) s

/-- RD.CFG (R79). -/
def execRdCfg (w : Width) (s : State) : Result := readRegister 0x0008#16 w (cfgWord s) s

/-- RD.NPAIRS (R80). -/
def execRdNpairs (w : Width) (s : State) : Result := readRegister 0x000C#16 w (npairsWord s) s

/-- RD.CMD (R81). The read starts no command. -/
def execRdCmd (w : Width) (s : State) : Result := readRegister 0x0010#16 w 0#32 s

/-- RD.DUTY_STAGE (R82). -/
def execRdDutyStage (w : Width) (s : State) : Result := readRegister 0x0014#16 w (levelWord s.dutyStage) s

/-- RD.DUTY_COMMIT (R83). -/
def execRdDutyCommit (w : Width) (s : State) : Result := readRegister 0x0018#16 w (levelWord s.dutyCommit) s

/-- RD.DUTY_ACTIVE (R84). -/
def execRdDutyActive (w : Width) (s : State) : Result := readRegister 0x001C#16 w (levelWord s.dutyActive) s

/-- RD.PWM_CFG (R85). -/
def execRdPwmCfg (w : Width) (s : State) : Result := readRegister 0x0020#16 w (pwmCfgWord s) s

/-- RD.PWM_CNT (R86). -/
def execRdPwmCnt (w : Width) (s : State) : Result := readRegister 0x0024#16 w (pwmCntWord s) s

/-- RD.TICK_DIV (R87). -/
def execRdTickDiv (w : Width) (s : State) : Result := readRegister 0x0028#16 w (tickDivWord s) s

/-- RD.RLEN (R88). -/
def execRdRlen (w : Width) (s : State) : Result := readRegister 0x002C#16 w (rlenWord s) s

/-- RD.RPOS (R89). -/
def execRdRpos (w : Width) (s : State) : Result := readRegister 0x0030#16 w (rposWord s) s

/-- RD.STATUS (R90). -/
def execRdStatus (w : Width) (s : State) : Result := readRegister 0x0034#16 w (statusWord s) s

/-- RD.INT_STATUS (R91). -/
def execRdIntStatus (w : Width) (s : State) : Result := readRegister 0x0038#16 w (intStatusWord s) s

/-- RD.INT_EN (R92). -/
def execRdIntEn (w : Width) (s : State) : Result := readRegister 0x003C#16 w (intEnWord s) s

end Sys2Proof.Machine
end

