-- ==== Sys2Proof/Machine/RegWrite.lean ====
section
/-! DEFINITION. Register writes that belong to no other family (43_register_access.md R93 to R106) and the acknowledgement of
INT_STATUS (60_exceptions.md R120). -/

namespace Sys2Proof.Machine

/-- WR.ID (R93): read-only, the write is ignored. -/
def execWrId (w : Width) (_d : Word) (s : State) : Result := ignoreWrite 0x0000#16 w s

/-- WR.CFG (R94). -/
def execWrCfg (w : Width) (d : Word) (s : State) : Result :=
  writeRegister 0x0008#16 w (fun s => complete { s with fmt := fmtField d, shift := shiftField d }) s

/-- WR.NPAIRS (R95). -/
def execWrNpairs (w : Width) (d : Word) (s : State) : Result :=
  writeRegister 0x000C#16 w (fun s => complete { s with npairs := npairsField d }) s

/-- WR.DUTY_COMMIT (R99): read-only, the write is ignored. -/
def execWrDutyCommit (w : Width) (_d : Word) (s : State) : Result := ignoreWrite 0x0018#16 w s

/-- WR.DUTY_ACTIVE (R100): read-only, the write is ignored. -/
def execWrDutyActive (w : Width) (_d : Word) (s : State) : Result := ignoreWrite 0x001C#16 w s

/-- WR.PWM_CNT (R101): read-only, the write is ignored. -/
def execWrPwmCnt (w : Width) (_d : Word) (s : State) : Result := ignoreWrite 0x0024#16 w s

/-- WR.TICK_DIV (R102). -/
def execWrTickDiv (w : Width) (d : Word) (s : State) : Result :=
  writeRegister 0x0028#16 w (fun s => complete { s with tickDiv := tickDivField d }) s

/-- WR.RLEN (R103). -/
def execWrRlen (w : Width) (d : Word) (s : State) : Result :=
  writeRegister 0x002C#16 w (fun s => complete { s with rlen := rlenField d }) s

/-- WR.RPOS (R104): read-only, the write is ignored. -/
def execWrRpos (w : Width) (_d : Word) (s : State) : Result := ignoreWrite 0x0030#16 w s

/-- WR.STATUS (R105): read-only, the write is ignored. -/
def execWrStatus (w : Width) (_d : Word) (s : State) : Result := ignoreWrite 0x0034#16 w s

/-- WR.INT_STATUS (R120). -/
def execWrIntStatus (w : Width) (d : Word) (s : State) : Result :=
  writeRegister 0x0038#16 w (fun s => complete (acknowledge (bitOf d 0) (bitOf d 1) s)) s

/-- WR.INT_EN (R106). -/
def execWrIntEn (w : Width) (d : Word) (s : State) : Result :=
  writeRegister 0x003C#16 w (fun s => complete { s with rdoneEn := bitOf d 0, errEn := bitOf d 1 }) s

end Sys2Proof.Machine
end

