-- ==== Sys2Proof/Machine/Dispatch.lean ====
section
/-! DEFINITION. One arm per constructor of Instr, each one direct call of its meaning. -/

namespace Sys2Proof.Machine

def exec (i : Instr) (s : State) : Host.Outcome State Fault Refusal :=
  match i with
  | .rdId w => Sys2Proof.Machine.execRdId w s
  | .rdCtrl w => Sys2Proof.Machine.execRdCtrl w s
  | .rdCfg w => Sys2Proof.Machine.execRdCfg w s
  | .rdNpairs w => Sys2Proof.Machine.execRdNpairs w s
  | .rdCmd w => Sys2Proof.Machine.execRdCmd w s
  | .rdDutyStage w => Sys2Proof.Machine.execRdDutyStage w s
  | .rdDutyCommit w => Sys2Proof.Machine.execRdDutyCommit w s
  | .rdDutyActive w => Sys2Proof.Machine.execRdDutyActive w s
  | .rdPwmCfg w => Sys2Proof.Machine.execRdPwmCfg w s
  | .rdPwmCnt w => Sys2Proof.Machine.execRdPwmCnt w s
  | .rdTickDiv w => Sys2Proof.Machine.execRdTickDiv w s
  | .rdRlen w => Sys2Proof.Machine.execRdRlen w s
  | .rdRpos w => Sys2Proof.Machine.execRdRpos w s
  | .rdStatus w => Sys2Proof.Machine.execRdStatus w s
  | .rdIntStatus w => Sys2Proof.Machine.execRdIntStatus w s
  | .rdIntEn w => Sys2Proof.Machine.execRdIntEn w s
  | .wrId w d => Sys2Proof.Machine.execWrId w d s
  | .wrCtrl w d => Sys2Proof.Machine.execWrCtrl w d s
  | .wrCfg w d => Sys2Proof.Machine.execWrCfg w d s
  | .wrNpairs w d => Sys2Proof.Machine.execWrNpairs w d s
  | .wrCmd w d => Sys2Proof.Machine.execWrCmd w d s
  | .wrDutyStage w d => Sys2Proof.Machine.execWrDutyStage w d s
  | .wrDutyCommit w d => Sys2Proof.Machine.execWrDutyCommit w d s
  | .wrDutyActive w d => Sys2Proof.Machine.execWrDutyActive w d s
  | .wrPwmCfg w d => Sys2Proof.Machine.execWrPwmCfg w d s
  | .wrPwmCnt w d => Sys2Proof.Machine.execWrPwmCnt w d s
  | .wrTickDiv w d => Sys2Proof.Machine.execWrTickDiv w d s
  | .wrRlen w d => Sys2Proof.Machine.execWrRlen w d s
  | .wrRpos w d => Sys2Proof.Machine.execWrRpos w d s
  | .wrStatus w d => Sys2Proof.Machine.execWrStatus w d s
  | .wrIntStatus w d => Sys2Proof.Machine.execWrIntStatus w d s
  | .wrIntEn w d => Sys2Proof.Machine.execWrIntEn w d s
  | .cmdNop rsv => Sys2Proof.Machine.execCmdNop rsv s
  | .cmdTransform rsv => Sys2Proof.Machine.execCmdTransform rsv s
  | .cmdCommit rsv => Sys2Proof.Machine.execCmdCommit rsv s
  | .cmdRender rsv => Sys2Proof.Machine.execCmdRender rsv s
  | .cmdRsvd4 opc rsv => Sys2Proof.Machine.execCmdRsvd4 opc rsv s
  | .cmdRsvd8 opc rsv => Sys2Proof.Machine.execCmdRsvd8 opc rsv s
  | .rdCap w k => Sys2Proof.Machine.execRdCap w k s
  | .wrCap w k d => Sys2Proof.Machine.execWrCap w k d s
  | .rdOut w k => Sys2Proof.Machine.execRdOut w k s
  | .wrOut w k d => Sys2Proof.Machine.execWrOut w k d s
  | .rdRend w k => Sys2Proof.Machine.execRdRend w k s
  | .wrRend w k d => Sys2Proof.Machine.execWrRend w k d s
  | .rsvdRd w off => Sys2Proof.Machine.execRsvdRd w off s
  | .rsvdWr w off d => Sys2Proof.Machine.execRsvdWr w off d s

end Sys2Proof.Machine
end

