-- ==== Sys2Proof/Machine/Bus.lean ====
section
/-! DEFINITION. What the block does with a transfer in one of the table's formats, with a bus cycle at a host address, and with
each step of an agent; and how the outside world's next inputs arrive. -/

namespace Sys2Proof.Machine

/-- A transfer on the bus: decoded, then executed; bytes that are no transfer are refused by name. -/
def runTransfer (f : Format) (bytes : List Byte) (s : State) : Result :=
  match decode f bytes with
  | .ok i => exec i s
  | .error e => .refused (.noSuchTransfer e)

/-- A host bus cycle at a host byte address: the row its descriptor selects, or nothing at all where the block does not decode the
address (20_memory.md R35, log entry 14). -/
def runHostCycle (addr : Nat) (dir : Dir) (w : Width) (d : Word) (s : State) : Result :=
  match windowOffset s.params addr with
  | some off => exec (decodeAccess dir off w d) s
  | none => .next s

/-- The step of one agent (10_state.md R9): an edge of CLK, the reset input (70_reset_and_hazards.md R130, log entry 15), or a host access. -/
def runInput (a : Input) (s : State) : Result :=
  match a with
  | .clock => clockStep s
  | .reset => .next { State.resetWith s.params with inputs := s.inputs }
  | .transfer f bytes => runTransfer f bytes s
  | .hostCycle addr dir w d => runHostCycle addr dir w d s

/-- What the outside world asks of the block next arrives behind what is pending (R9, log entry 2). -/
def State.receive (s : State) (arriving : List Input) : State := { s with inputs := s.inputs ++ arriving }

end Sys2Proof.Machine
end

