-- ==== Sys2Proof/Machine/Step.lean ====
section
/-! DEFINITION. One step of the machine: the step of the agent whose input is pending first, or a clock step when none is pending (log
entry 2). -/

namespace Sys2Proof.Machine

/-- The step function. -/
def step (s : State) : Host.Outcome State Fault Refusal :=
  match s.inputs with
  | [] => clockStep s
  | a :: rest => runInput a { s with inputs := rest }

/-- The state in which the host's next access is the given transfer. -/
def State.offer (s : State) (t : Format × List Byte) : State := { s with inputs := .transfer t.1 t.2 :: s.inputs }

/-- The state in which the very next step runs the access of a table word (log entry 3). -/
def State.withFetchWord (s : State) (nbits w : Nat) : State := s.offer (tableTransfer nbits w)

end Sys2Proof.Machine
end

