-- ==== Sys2Proof/Machine/Harness.lean ====
section
/-! DEFINITION. The host notation of 30_encoding.md R54 to R56: a harness with 16 registers and a statement index that drives the block
through its bus. "They are not state of the block" (R55), so the harness stands beside State, not in it (log entry 16). -/

namespace Sys2Proof.Machine

/-- A harness register `x0`..`x15` (R55). -/
abbrev HReg := Fin 16

/-- The source of a write: an immediate or a harness register (R54). -/
inductive Source where
  | imm (v : Word)
  | reg (x : HReg)
deriving DecidableEq, Repr

/-- A statement of the host notation (R54). -/
inductive Statement where
  /-- `rd8`, `rd16`, `rd32 xd, off`. -/
  | rd (w : Width) (xd : HReg) (off : Offset)
  /-- `wr8`, `wr16`, `wr32 off, src`. -/
  | wr (w : Width) (off : Offset) (src : Source)
  /-- `li xd, imm`. -/
  | li (xd : HReg) (v : Word)
  /-- `andi xd, xs, imm`. -/
  | andi (xd xs : HReg) (v : Word)
  /-- `beq xs, imm, label`. -/
  | beq (xs : HReg) (v : Word) (label : String)
  /-- `bne xs, imm, label`. -/
  | bne (xs : HReg) (v : Word) (label : String)
  /-- `clk n`. -/
  | clk (n : Nat)
deriving DecidableEq, Repr

/-- A statement, optionally preceded by a label (R54). -/
structure ProgramLine where
  label : Option String
  stmt : Statement
deriving DecidableEq, Repr

/-- Why a program ends before its last statement. -/
inductive HarnessFault where
  /-- The block faulted: a Poison ends the program (R54). Safe. -/
  | block (f : Fault)
  /-- The block refused the transfer; a statement's transfers are never refused. Safe. -/
  | refused (r : Refusal)
  /-- A read of a harness register no statement has written (R55). Safe. -/
  | unwrittenRegister (x : HReg)
  /-- A branch to no label of the program; R54 says there is none such in a program. Safe. -/
  | noSuchLabel (label : String)
deriving DecidableEq, Repr

/-- The harness beside its block: registers, statement index, the bus errors it recorded, and the clock steps the scheduler places
before each statement of a program without `clk` (R54). -/
structure Harness where
  block : State
  x : Vector (Option Word) 16
  pc : Nat
  busErrors : List BusResponse
  gaps : List Nat
deriving DecidableEq, Repr

/-- What one statement ends in. -/
inductive HarnessOutcome where
  | running (h : Harness)
  | ended (h : Harness)
  | fault (f : HarnessFault)
deriving DecidableEq, Repr

/-- A harness at the start of a program: all registers unwritten. -/
def startHarness (s : State) (gaps : List Nat) : Harness :=
  { block := s, x := Vector.replicate 16 none, pc := 0, busErrors := [], gaps := gaps }

/-- The statement index of a label. -/
def labelIndex (l : String) : List ProgramLine → Option Nat
  | [] => none
  | p :: ps => if p.label = some l then some 0 else (labelIndex l ps).map (· + 1)

/-- A harness register's value, if some statement has written it. -/
def Harness.reg (h : Harness) (x : HReg) : Option Word := h.x[x.val]

/-- The state with a harness register written. -/
def Harness.setReg (h : Harness) (x : HReg) (v : Word) : Harness := { h with x := h.x.set x.val (some v) }

/-- The harness past a statement other than a taken branch. -/
def Harness.advance (h : Harness) : Harness := { h with pc := h.pc + 1 }

/-- What the harness does with the block's answer: a read's value goes to `xd`, a bus error is recorded and changes no register (R54). -/
def Harness.take (h : Harness) (xd : Option HReg) (s : State) : Harness :=
  match s.resp, xd with
  | .readData _ v, some x => ({ h with block := s }).setReg x v
  | .busError off w dir, _ => { h with block := s, busErrors := h.busErrors ++ [.busError off w dir] }
  | _, _ => { h with block := s }

/-- One bus access of the harness: one transfer offered to the block and one step of it. -/
def Harness.busAccess (h : Harness) (a : BusAccess) (xd : Option HReg) : HarnessOutcome :=
  match step (h.block.offer (.mmio, encodeAccess a)) with
  | .next s => .running (h.take xd s).advance
  | .fault f => .fault (.block f)
  | .refused r => .fault (.refused r)

/-- `n` clock steps of the block. -/
def Harness.clocks (h : Harness) (n : Nat) : HarnessOutcome :=
  match clockSteps n h.block with
  | .next s => .running { h with block := s }
  | .fault f => .fault (.block f)
  | .refused r => .fault (.refused r)

/-- A branch (R54). -/
def Harness.branch (h : Harness) (prog : List ProgramLine) (taken : Bool) (l : String) : HarnessOutcome :=
  if taken then
    match labelIndex l prog with
    | some n => .running { h with pc := n }
    | none => .fault (.noSuchLabel l)
  else .running h.advance

/-- One statement (R54). -/
def Harness.execute (h : Harness) (prog : List ProgramLine) : Statement → HarnessOutcome
  | .rd w xd off => h.busAccess ⟨.read, off, w, 0#32⟩ (some xd)
  | .wr w off (.imm v) => h.busAccess ⟨.write, off, w, w.lanes v⟩ none
  | .wr w off (.reg x) =>
    match h.reg x with
    | some v => h.busAccess ⟨.write, off, w, w.lanes v⟩ none
    | none => .fault (.unwrittenRegister x)
  | .li xd v => .running (h.setReg xd v).advance
  | .andi xd xs v =>
    match h.reg xs with
    | some u => .running (h.setReg xd (u &&& v)).advance
    | none => .fault (.unwrittenRegister xs)
  | .beq xs v l =>
    match h.reg xs with
    | some u => h.branch prog (decide (u = v)) l
    | none => .fault (.unwrittenRegister xs)
  | .bne xs v l =>
    match h.reg xs with
    | some u => h.branch prog (decide (u ≠ v)) l
    | none => .fault (.unwrittenRegister xs)
  | .clk n =>
    match h.clocks n with
    | .running h' => .running h'.advance
    | o => o

/-- A program with `clk` directives fixes its clock steps (R54). -/
def hasClk (prog : List ProgramLine) : Bool :=
  prog.any fun p => match p.stmt with
    | .clk _ => true
    | _ => false

/-- One statement of a program, after the clock steps the scheduler places before it; the program ends after its last statement. R54 does
not say whether clock steps may fall between the last statement and the end: DESIGN CHOICE, unsafe, the model places them before statements
only, and none after the last (log entry 16). -/
def harnessStep (prog : List ProgramLine) (h : Harness) : HarnessOutcome :=
  match prog[h.pc]? with
  | none => .ended h
  | some line =>
    match (if hasClk prog then .running h else { h with gaps := h.gaps.tail }.clocks (h.gaps.headD 0)) with
    | .running h' => h'.execute prog line.stmt
    | o => o

/-- At most `n` statements of a program. -/
def harnessRun (prog : List ProgramLine) : Nat → Harness → HarnessOutcome
  | 0, h => .running h
  | n + 1, h =>
    match harnessStep prog h with
    | .running h' => harnessRun prog n h'
    | o => o

/-! ## Pseudo-instructions (R56) -/

/-- A statement without a label. -/
def plain (st : Statement) : ProgramLine := { label := none, stmt := st }

/-- `wr32 off, imm`. -/
def write32 (off : Offset) (v : Word) : ProgramLine := plain (.wr .b4 off (.imm v))

/-- `NOP`. -/
def pseudoNop : List ProgramLine := [write32 0x0010#16 0x0#32]

/-- `TRANSFORM`. -/
def pseudoTransform : List ProgramLine := [write32 0x0010#16 0x1#32]

/-- `COMMIT`. -/
def pseudoCommit : List ProgramLine := [write32 0x0010#16 0x2#32]

/-- `RENDER`. -/
def pseudoRender : List ProgramLine := [write32 0x0010#16 0x3#32]

/-- `SETLVL src`: stage, then commit. -/
def pseudoSetlvl (src : Source) : List ProgramLine := plain (.wr .b4 0x0014#16 src) :: pseudoCommit

/-- `PWMON`. -/
def pseudoPwmon : List ProgramLine := [write32 0x0004#16 0x1#32]

/-- `PWMOFF`. -/
def pseudoPwmoff : List ProgramLine := [write32 0x0004#16 0x0#32]

/-- `WAITRENDER` with the fresh label `l`. -/
def pseudoWaitrender (l : String) : List ProgramLine :=
  [{ label := some l, stmt := .rd .b4 15 0x0034#16 }, plain (.andi 15 15 1#32), plain (.bne 15 0#32 l)]

/-- `CLRINT m`. R56 does not say which operands `m` may be; DEDUCED from the `src` slot of `wr32` in its expansion, the model takes an
immediate and a harness register (log entry 16). -/
def pseudoClrint (m : Source) : List ProgramLine := [plain (.wr .b4 0x0038#16 m)]

end Sys2Proof.Machine
end

