-- ==== Sys2Proof/Safety.lean ====
section
/-! DEFINITION. What claims about DMR-PWM are stated in terms of: the invariant of reachable states (10_state.md R34), the premises that
keep a TRANSFORM or a render from reading unwritten RAM, and the runs of the machine (R11). -/

namespace Sys2Proof.Machine

/-! ## The invariant -/

/-- The modulator's part of R34, with the legal configurations of R22. -/
abbrev State.pwmLegal (s : State) : Prop :=
  8 ≤ s.pwmRes.toNat ∧ 1 ≤ s.pwmDiv.toNat ∧ s.pwmCnt.toNat ≤ 2 ^ s.pwmRes.toNat - 1 ∧ s.hPre.toNat ≤ s.pwmDiv.toNat - 1 ∧
    (s.pwmEn = false → s.pwmCnt = 0#15 ∧ s.hPre = 0#16)

/-- The render's part of R34, with the legal tick intervals of R24. -/
abbrev State.renderLegal (s : State) : Prop :=
  1 ≤ s.tickDiv.toNat ∧
    (s.rbusy = true → s.rpos.toNat ≤ s.hRlenL.toNat ∧ 1 ≤ s.hRlenL.toNat ∧ s.hRlenL.toNat ≤ s.params.rendLen ∧
      s.hTcnt.toNat ≤ s.hTdivL.toNat - 1 ∧ 1 ≤ s.hTdivL.toNat)

/-- The error record's part of R34, and that codes 5..15 are never produced (60_exceptions.md R115). -/
abbrev State.errorLegal (s : State) : Prop := (s.errcode = 0#4 ↔ s.intErr = false) ∧ s.errcode.toNat ≤ 4

/-- An offset of an implemented RAM byte (20_memory.md R35). -/
def implementedByte (p : Params) (a : Nat) : Bool :=
  [Ram.cap, Ram.out, Ram.rend].any fun r => decide (r.base ≤ a) && decide (a < r.base + r.size p)

/-- The RAM contents are in canonical form and hold implemented bytes only. -/
abbrev State.memLegal (s : State) : Prop := s.mem.wf = true ∧ ∀ c ∈ s.mem, implementedByte s.params c.1 = true

/-- The invariant of every reachable state. -/
abbrev State.Inv (s : State) : Prop := s.pwmLegal ∧ s.renderLegal ∧ s.errorLegal ∧ s.memLegal

/-! ## Premises -/

/-- Every capture byte a TRANSFORM would read has been written (40_transform.md R59). -/
def captureReady (s : State) : Prop := ∀ i, i < captureBytes s → s.ramMark .cap i = true

/-- The first `n` bytes of REND_RAM have been written, so that a render of `n` levels meets no Poison (42_render.md R73). -/
def renderReady (s : State) (n : Nat) : Prop := ∀ i, i < n → s.ramMark .rend i = true

/-- A render that runs meets no Poison from here: R34's render part holds and the levels still to play have been written. -/
def renderContinues (s : State) : Prop :=
  s.rbusy = true → s.renderLegal ∧ ∀ i, s.rpos.toNat ≤ i → i < s.hRlenL.toNat → s.ramMark .rend i = true

/-! ## Runs -/

/-- A run (R9): before each step any finite list of inputs may arrive, so that host accesses may go on for ever and in any order with
clock steps; then the machine steps. -/
def IsRun (arrive : Nat → List Input) (run : Nat → State) : Prop :=
  ∀ n, step ((run n).receive (arrive n)) = .next (run (n + 1))

/-- The next step is a clock step (R9, log entry 2). -/
def clockTurn (s : State) : Bool := decide (s.inputs = []) || decide (s.inputs.head? = some .clock)

/-- Weak fairness of the clock agent: it steps infinitely often (R11). A premise of claims, not a property of every run. -/
def ClockFair (arrive : Nat → List Input) (run : Nat → State) : Prop :=
  ∀ n, ∃ m, n ≤ m ∧ clockTurn ((run m).receive (arrive m)) = true

end Sys2Proof.Machine
end

