-- ==== Sys2Proof/Certificates/Slice0/Obligations.lean ====
section
/-! DEFINITION. The statements for the provers, from the numbered rules of spec/. -/

namespace Sys2Proof.Claims

open Sys2Proof Sys2Proof.Machine

/-! ## Shapes the statements share -/

/-- The width and alignment an access needs: R38 below 0x1000, R39 from 0x1000 up. -/
abbrev legal (off : Offset) (w : Width) : Prop :=
  (off.toNat < 0x1000 → w = .b4 ∧ off.toNat % 4 = 0) ∧ (0x1000 ≤ off.toNat → off.toNat % w.bytes = 0)

/-- The state after a command error with code `c` (R116): the first code is kept, ERR is set, the access completes normally, and
nothing else changes. -/
abbrev recorded (c : BitVec 4) (s : State) : State :=
  { s with errcode := if s.intErr = true then s.errcode else c, intErr := true, resp := .writeDone }

/-- A register read: the row its descriptor selects, the value at width 4, a bus error at any other width; nothing else changes. -/
abbrev readsAs (off : Offset) (mk : Width → Instr) (v : State → Word) : Prop :=
  (∀ (w : Width) (d : Word), decodeAccess .read off w d = mk w) ∧
    (∀ s : State, exec (mk .b4) s = .next { s with resp := .readData .b4 (v s) }) ∧
    (∀ (w : Width) (s : State), w ≠ .b4 → exec (mk w) s = .next { s with resp := .busError off w .read })

/-- A register write: the row its descriptor selects, the whole next state at width 4, a bus error at any other width. -/
abbrev writesAs (off : Offset) (mk : Width → Word → Instr) (f : Word → State → State) : Prop :=
  (∀ (w : Width) (d : Word), decodeAccess .write off w d = mk w (w.lanes d)) ∧
    (∀ (d : Word) (s : State), exec (mk .b4 d) s = .next { f d s with resp := .writeDone }) ∧
    (∀ (w : Width) (d : Word) (s : State), w ≠ .b4 → exec (mk w d) s = .next { s with resp := .busError off w .write })

/-- A write at a misaligned offset of the register at `off` is a bus error and nothing else. -/
abbrev misalignedIsBusError (off : Offset) : Prop :=
  ∀ (o : Offset) (w : Width) (d : Word) (s : State), o.toNat / 4 = off.toNat / 4 → o.toNat % 4 ≠ 0 →
    exec (decodeAccess .write o w d) s = .next { s with resp := .busError o w .write }

/-- The forms of a command: its CMD row, and a 4-byte write of CMD with its opcode, whatever d[31:4] is (R49, R96). -/
abbrev commandForm (mk : BitVec 28 → Instr) (opc : BitVec 4) (i : Instr) : Prop :=
  (∃ rsv, i = mk rsv) ∨ ∃ d, i = .wrCmd .b4 d ∧ d.extractLsb' 0 4 = opc

/-- The forms of a reserved command (R98). -/
abbrev reservedForm (i : Instr) : Prop :=
  (∃ opc rsv, i = .cmdRsvd4 opc rsv) ∨ (∃ opc rsv, i = .cmdRsvd8 opc rsv) ∨
    ∃ d, i = .wrCmd .b4 d ∧ 4 ≤ (d.extractLsb' 0 4).toNat

/-- A RAM read (R107): the descriptors of its window, the bytes at their lanes, 0 beyond the implemented size and beyond the width,
Poison at the first unwritten byte, a bus error when misaligned; nothing else changes. -/
abbrev ramReads (n : Nat) (r : Ram) (base : Nat) (mk : Width → BitVec n → Instr) : Prop :=
  (∀ k, r.addr k = base + k) ∧
    (∀ (w : Width) (d : Word) (i : BitVec n), decodeAccess .read (BitVec.ofNat 16 (base + i.toNat)) w d = mk w i) ∧
    (∀ (w : Width) (i : BitVec n) (s : State), i.toNat % w.bytes = 0 →
      (∀ k, k < w.bytes → i.toNat + k < r.size s.params → s.ramMark r (i.toNat + k) = true) →
      ∃ v, exec (mk w i) s = .next { s with resp := .readData w v } ∧
        ∀ k, k < 4 → v.extractLsb' (8 * k) 8 =
          if k < w.bytes ∧ i.toNat + k < r.size s.params then (s.mem.read (r.addr (i.toNat + k))).getD 0#8 else 0#8) ∧
    (∀ (w : Width) (i : BitVec n) (s : State) (k : Nat), i.toNat % w.bytes = 0 → k < w.bytes → i.toNat + k < r.size s.params →
      s.ramMark r (i.toNat + k) = false →
      (∀ j, j < k → i.toNat + j < r.size s.params → s.ramMark r (i.toNat + j) = true) →
      exec (mk w i) s = .fault (.poison r (i.toNat + k))) ∧
    (∀ (w : Width) (i : BitVec n) (s : State), i.toNat % w.bytes ≠ 0 →
      exec (mk w i) s = .next { s with resp := .busError (BitVec.ofNat 16 (base + i.toNat)) w .read })

/-- A RAM write (R108): the descriptors of its window, the written bytes that are implemented hold their lanes and every other
offset reads as before, a bus error when misaligned; nothing else changes. -/
abbrev ramWrites (n : Nat) (r : Ram) (base : Nat) (mk : Width → BitVec n → Word → Instr) : Prop :=
  (∀ k, r.addr k = base + k) ∧
    (∀ (w : Width) (d : Word) (i : BitVec n), decodeAccess .write (BitVec.ofNat 16 (base + i.toNat)) w d = mk w i (w.lanes d)) ∧
    (∀ (w : Width) (i : BitVec n) (d : Word) (s : State), i.toNat % w.bytes = 0 →
      ∃ t, exec (mk w i d) s = .next t ∧ t = { s with mem := t.mem, resp := .writeDone } ∧
        ∀ a, t.mem.read a =
          if r.addr i.toNat ≤ a ∧ a < r.addr i.toNat + w.bytes ∧ a < r.addr 0 + r.size s.params then
            some (d.extractLsb' (8 * (a - r.addr i.toNat)) 8)
          else s.mem.read a) ∧
    (∀ (w : Width) (i : BitVec n) (d : Word) (s : State), i.toNat % w.bytes ≠ 0 →
      exec (mk w i d) s = .next { s with resp := .busError (BitVec.ofNat 16 (base + i.toNat)) w .write })

/-- The value of byte `i` of CAP_RAM, where it has been written. -/
abbrev capByte (s : State) (i : Nat) : Byte := (s.ramByte .cap i).getD 0#8

/-- The two signed samples of pair `j` (R51). -/
abbrev pairOf (s : State) (j : Nat) : Int × Int :=
  match s.fmt with
  | .s16 => ((capByte s (4 * j + 1) ++ capByte s (4 * j)).toInt, (capByte s (4 * j + 3) ++ capByte s (4 * j + 2)).toInt)
  | .s32 =>
    ((capByte s (8 * j + 3) ++ capByte s (8 * j + 2) ++ capByte s (8 * j + 1) ++ capByte s (8 * j)).toInt,
      (capByte s (8 * j + 7) ++ capByte s (8 * j + 6) ++ capByte s (8 * j + 5) ++ capByte s (8 * j + 4)).toInt)

/-- The capture bytes a TRANSFORM reads (R59). -/
abbrev bytesRead (s : State) : Nat := (match s.fmt with | .s16 => 4 | .s32 => 8) * s.npairs.toNat

/-- The values of a reset (R14 to R33, R130); the model's own fields are not among them. -/
abbrev resetValues (p : Params) (t : State) : Prop :=
  t.params = p ∧ t.pwmEn = false ∧ t.fmt = .s16 ∧ t.shift = 8#5 ∧ t.npairs = 0#16 ∧ t.dutyStage = 0x80#8 ∧ t.dutyCommit = 0x80#8 ∧
    t.dutyActive = 0x80#8 ∧ t.pwmRes = 8#4 ∧ t.pwmDiv = 1#16 ∧ t.pwmCnt = 0#15 ∧ t.tickDiv = 1#24 ∧ t.rlen = 0#13 ∧ t.rpos = 0#13 ∧
    t.rbusy = false ∧ t.errcode = 0#4 ∧ t.intRdone = false ∧ t.intErr = false ∧ t.rdoneEn = false ∧ t.errEn = false ∧
    t.hPre = 0#16 ∧ t.hTcnt = 0#24 ∧ t.hRlenL = 0#13 ∧ t.hTdivL = 1#24 ∧ (∀ r k, t.ramMark r k = false) ∧ pwmOut t = false ∧
    irq t = false

/-- What the PWM part of a clock step makes of PWM_CNT, h.PRE and DUTY_ACTIVE, on integers (R68). -/
abbrev pwmAfter (s t : State) : Prop :=
  if s.pwmEn = true then
    if s.hPre.toNat = s.pwmDiv.toNat - 1 then
      if s.pwmCnt.toNat = 2 ^ s.pwmRes.toNat - 1 then t.hPre = 0#16 ∧ t.pwmCnt = 0#15 ∧ t.dutyActive = s.dutyCommit
      else t.hPre = 0#16 ∧ t.pwmCnt.toNat = s.pwmCnt.toNat + 1 ∧ t.dutyActive = s.dutyActive
    else t.hPre.toNat = s.hPre.toNat + 1 ∧ t.pwmCnt = s.pwmCnt ∧ t.dutyActive = s.dutyActive
  else t.hPre = s.hPre ∧ t.pwmCnt = s.pwmCnt ∧ t.dutyActive = s.dutyActive

/-- For how many of the next `n` clock steps the output is high, counting the state before each step (R70). -/
def highSteps : Nat → State → Nat
  | 0, _ => 0
  | n + 1, s =>
    (if pwmOut s = true then 1 else 0) +
      match clockStep s with
      | .next t => highSteps n t
      | _ => 0

end Sys2Proof.Claims

open Sys2Proof Sys2Proof.Machine

/-! ## Reset -/

/-- R130: every register, hidden variable and mark at its reset value, the outputs low; a later reset re-establishes it. -/
def Obligations.ResetStateIsTheSpecs : Prop :=
  (∃ p : Params, Claims.resetValues p State.reset) ∧ (∀ p : Params, Claims.resetValues p (State.resetWith p)) ∧
    ∀ (s : State) (rest : List Input), s.inputs = .reset :: rest → ∃ t, step s = .next t ∧ Claims.resetValues s.params t

/-- R34 at reset, for every legal choice of the parameters of R1. -/
def Obligations.ResetStateIsLegal : Prop := State.reset.Inv ∧ ∀ p : Params, (State.resetWith p).Inv

/-! ## Register reads -/

/-- R77 to R84, whole. -/
def Obligations.IdentityAndLevelRegistersRead : Prop :=
  Claims.readsAs 0x0000#16 .rdId (fun _ => 0x444D5201#32) ∧
  Claims.readsAs 0x0004#16 .rdCtrl (fun s => 0#31 ++ BitVec.ofBool s.pwmEn) ∧
  Claims.readsAs 0x0008#16 .rdCfg (fun s => 0#19 ++ s.shift ++ 0#7 ++ (if s.fmt = .s32 then 1#1 else 0#1)) ∧
  Claims.readsAs 0x000C#16 .rdNpairs (fun s => 0#16 ++ s.npairs) ∧
  Claims.readsAs 0x0010#16 .rdCmd (fun _ => 0x00000000#32) ∧
  Claims.readsAs 0x0014#16 .rdDutyStage (fun s => 0#24 ++ s.dutyStage) ∧
  Claims.readsAs 0x0018#16 .rdDutyCommit (fun s => 0#24 ++ s.dutyCommit) ∧
  Claims.readsAs 0x001C#16 .rdDutyActive (fun s => 0#24 ++ s.dutyActive)

/-- R85 to R89, R91, R92, whole: their words, and the corner cases that rest on other rules, PWM_CNT 0 while the modulator is disabled,
TICK_DIV never 0, RPOS the latched length after a completed render. -/
def Obligations.CounterAndInterruptRegistersRead : Prop :=
  Claims.readsAs 0x0020#16 .rdPwmCfg (fun s => s.pwmDiv ++ 0#12 ++ s.pwmRes) ∧
  Claims.readsAs 0x0024#16 .rdPwmCnt (fun s => 0#17 ++ s.pwmCnt) ∧
  Claims.readsAs 0x0028#16 .rdTickDiv (fun s => 0#8 ++ s.tickDiv) ∧
  Claims.readsAs 0x002C#16 .rdRlen (fun s => 0#19 ++ s.rlen) ∧
  Claims.readsAs 0x0030#16 .rdRpos (fun s => 0#19 ++ s.rpos) ∧
  Claims.readsAs 0x0038#16 .rdIntStatus (fun s => 0#30 ++ BitVec.ofBool s.intErr ++ BitVec.ofBool s.intRdone) ∧
  Claims.readsAs 0x003C#16 .rdIntEn (fun s => 0#30 ++ BitVec.ofBool s.errEn ++ BitVec.ofBool s.rdoneEn) ∧
  (∀ s : State, s.pwmLegal → s.pwmEn = false → exec (.rdPwmCnt .b4) s = .next { s with resp := .readData .b4 0#32 }) ∧
  (∀ s : State, s.renderLegal → ∃ v, exec (.rdTickDiv .b4) s = .next { s with resp := .readData .b4 v } ∧ v ≠ 0#32) ∧
  ∀ (s t : State), s.rbusy = true → clockStep s = .next t → t.rbusy = false →
    exec (.rdRpos .b4) t = .next { t with resp := .readData .b4 (0#19 ++ s.hRlenL) }

/-- R90 and R69: STATUS shows the error code, the pin and RBUSY, and the pin is the comparison of R69. -/
def Obligations.StatusShowsErrorPinAndBusy : Prop :=
  Claims.readsAs 0x0034#16 .rdStatus
    (fun s => 0#20 ++ s.errcode ++ 0#6 ++ BitVec.ofBool (pwmOut s) ++ BitVec.ofBool s.rbusy) ∧
  (∀ s : State, 8 ≤ s.pwmRes.toNat →
    (pwmOut s = true ↔ s.pwmEn = true ∧ s.pwmCnt.toNat < s.dutyActive.toNat * 2 ^ (s.pwmRes.toNat - 8))) ∧
  ∀ s : State, s.errorLegal → s.intErr = false → s.errcode = 0#4

/-! ## Register writes -/

/-- R93, R99, R100, R101, R104, R105, whole. -/
def Obligations.ReadOnlyRegistersIgnoreWrites : Prop :=
  Claims.writesAs 0x0000#16 .wrId (fun _ s => s) ∧
  Claims.writesAs 0x0018#16 .wrDutyCommit (fun _ s => s) ∧
  Claims.writesAs 0x001C#16 .wrDutyActive (fun _ s => s) ∧
  Claims.writesAs 0x0024#16 .wrPwmCnt (fun _ s => s) ∧
  Claims.writesAs 0x0030#16 .wrRpos (fun _ s => s) ∧
  Claims.writesAs 0x0034#16 .wrStatus (fun _ s => s)

/-- R94, R95, R102, R103, R106: the fields stored, everything else unchanged. -/
def Obligations.ConfigurationWritesStoreTheirFields : Prop :=
  Claims.writesAs 0x0008#16 .wrCfg
    (fun d s => { s with fmt := if d.getLsbD 0 = true then .s32 else .s16, shift := d.extractLsb' 8 5 }) ∧
  Claims.writesAs 0x000C#16 .wrNpairs (fun d s => { s with npairs := d.extractLsb' 0 16 }) ∧
  Claims.writesAs 0x0028#16 .wrTickDiv
    (fun d s => { s with tickDiv := if d.extractLsb' 0 24 = 0#24 then 1#24 else d.extractLsb' 0 24 }) ∧
  Claims.writesAs 0x002C#16 .wrRlen (fun d s => { s with rlen := d.extractLsb' 0 13 }) ∧
  Claims.writesAs 0x003C#16 .wrIntEn (fun d s => { s with rdoneEn := d.getLsbD 0, errEn := d.getLsbD 1 })

/-- R63: a stage, or E_BUSY while a render runs, or a bus error for another width or a misaligned offset. -/
def Obligations.StageWriteStoresOrIsBusy : Prop :=
  Claims.writesAs 0x0014#16 .wrDutyStage
    (fun d s => if s.rbusy = true then Claims.recorded 2#4 s else { s with dutyStage := d.extractLsb' 0 8 }) ∧
  Claims.misalignedIsBusError 0x0014#16

/-- R66: the WARL fields, or E_LOCKED while the modulator runs. -/
def Obligations.PwmConfigurationWriteStoresOrIsLocked : Prop :=
  Claims.writesAs 0x0020#16 .wrPwmCfg
    (fun d s =>
      if s.pwmEn = true then Claims.recorded 4#4 s
      else
        { s with
          pwmRes := if (d.extractLsb' 0 4).toNat < 8 then 8#4 else d.extractLsb' 0 4
          pwmDiv := if d.extractLsb' 16 16 = 0#16 then 1#16 else d.extractLsb' 16 16 })

/-- R67: an enable is a refresh boundary, a disable clears the counters, the current value changes nothing. -/
def Obligations.CtrlWriteEnablesAndDisables : Prop :=
  Claims.writesAs 0x0004#16 .wrCtrl
    (fun d s =>
      if s.pwmEn = false ∧ d.getLsbD 0 = true then
        { s with pwmEn := true, pwmCnt := 0#15, hPre := 0#16, dutyActive := s.dutyCommit }
      else if s.pwmEn = true ∧ d.getLsbD 0 = false then { s with pwmEn := false, pwmCnt := 0#15, hPre := 0#16 }
      else s) ∧
  Claims.misalignedIsBusError 0x0004#16

/-- R120: write-1-to-clear of RDONE and of ERR with ERRCODE. -/
def Obligations.IntStatusWriteClearsWhatIsOne : Prop :=
  Claims.writesAs 0x0038#16 .wrIntStatus
    (fun d s =>
      { s with
        intRdone := if d.getLsbD 0 = true then false else s.intRdone
        intErr := if d.getLsbD 1 = true then false else s.intErr
        errcode := if d.getLsbD 1 = true then 0#4 else s.errcode })

/-! ## Commands -/

/-- R96 and R49: a 4-byte write of CMD runs the command of d[3:0], d[31:4] ignored; at any other width it is a bus error. -/
def Obligations.CmdWriteRunsTheCommandOfItsOpcode : Prop :=
  (∀ (w : Width) (d : Word), decodeAccess .write 0x0010#16 w d = .wrCmd w (w.lanes d)) ∧
  (∀ (d : Word) (s : State) (r : BitVec 28), d.extractLsb' 0 4 = 0x0#4 → exec (.wrCmd .b4 d) s = exec (.cmdNop r) s) ∧
  (∀ (d : Word) (s : State) (r : BitVec 28), d.extractLsb' 0 4 = 0x1#4 → exec (.wrCmd .b4 d) s = exec (.cmdTransform r) s) ∧
  (∀ (d : Word) (s : State) (r : BitVec 28), d.extractLsb' 0 4 = 0x2#4 → exec (.wrCmd .b4 d) s = exec (.cmdCommit r) s) ∧
  (∀ (d : Word) (s : State) (r : BitVec 28), d.extractLsb' 0 4 = 0x3#4 → exec (.wrCmd .b4 d) s = exec (.cmdRender r) s) ∧
  (∀ (d : Word) (s : State) (o : BitVec 2) (r : BitVec 28), 4 ≤ (d.extractLsb' 0 4).toNat →
    (d.extractLsb' 0 4).toNat < 8 → exec (.wrCmd .b4 d) s = exec (.cmdRsvd4 o r) s) ∧
  (∀ (d : Word) (s : State) (o : BitVec 3) (r : BitVec 28), 8 ≤ (d.extractLsb' 0 4).toNat → exec (.wrCmd .b4 d) s = exec (.cmdRsvd8 o r) s) ∧
  (∀ (w : Width) (d : Word) (s : State), w ≠ .b4 → exec (.wrCmd w d) s = .next { s with resp := .busError 0x0010#16 w .write })

/-- R97 and R98: NOP has no effect, a reserved command records E_BADOP and has none either; both also during a render. -/
def Obligations.NopAndReservedCommands : Prop :=
  (∀ (i : Instr) (s : State), Claims.commandForm .cmdNop 0x0#4 i → exec i s = .next { s with resp := .writeDone }) ∧
  (∀ (i : Instr) (s : State), Claims.reservedForm i → exec i s = .next (Claims.recorded 1#4 s))

/-- R64: the staged level is committed, or E_BUSY while a render runs. -/
def Obligations.CommitCopiesTheStagedLevelOrIsBusy : Prop :=
  ∀ (i : Instr) (s : State), Claims.commandForm .cmdCommit 0x2#4 i →
    (s.rbusy = false → exec i s = .next { s with dutyCommit := s.dutyStage, resp := .writeDone }) ∧
    (s.rbusy = true → exec i s = .next (Claims.recorded 2#4 s))

/-- R72: a render starts with its length and interval latched, or E_BUSY, or E_RANGE, in this order. -/
def Obligations.RenderStartsOrIsRefused : Prop :=
  ∀ (i : Instr) (s : State), Claims.commandForm .cmdRender 0x3#4 i →
    (s.rbusy = true → exec i s = .next (Claims.recorded 2#4 s)) ∧
    (s.rbusy = false → s.rlen.toNat = 0 ∨ s.params.rendLen < s.rlen.toNat → exec i s = .next (Claims.recorded 3#4 s)) ∧
    (s.rbusy = false → 1 ≤ s.rlen.toNat → s.rlen.toNat ≤ s.params.rendLen →
      exec i s = .next
        { s with hRlenL := s.rlen, hTdivL := s.tickDiv, rpos := 0#13, hTcnt := 0#24, rbusy := true, resp := .writeDone })

/-- R59 with R51: the range error before any Poison, Poison at the first unwritten capture byte and no write, otherwise every level
of OUT[0 .. N-1] from its pair, every other offset and every register as before. -/
def Obligations.TransformComputesEveryLevel : Prop :=
  ∀ (i : Instr) (s : State), Claims.commandForm .cmdTransform 0x1#4 i →
    (s.npairs.toNat = 0 ∨ s.params.capPairs < s.npairs.toNat → exec i s = .next (Claims.recorded 3#4 s)) ∧
    (1 ≤ s.npairs.toNat → s.npairs.toNat ≤ s.params.capPairs →
      (∀ k, k < Claims.bytesRead s → s.ramMark .cap k = false → (∀ j, j < k → s.ramMark .cap j = true) →
        exec i s = .fault (.poison .cap k)) ∧
      ((∀ k, k < Claims.bytesRead s → s.ramMark .cap k = true) →
        ∃ t, exec i s = .next t ∧ t = { s with mem := t.mem, resp := .writeDone } ∧
          (∀ j, j < s.npairs.toNat →
            t.ramByte .out j = some (mix (Claims.pairOf s j).1 (Claims.pairOf s j).2 s.shift.toNat) ∧
            t.ramMark .out j = true) ∧
          ∀ a, a < Ram.out.addr 0 ∨ Ram.out.addr s.npairs.toNat ≤ a → t.mem.read a = s.mem.read a))

/-- R59 (corner cases) and §8 of the source: a second TRANSFORM with nothing written in between changes nothing. -/
def Obligations.TransformIsIdempotent : Prop :=
  ∀ (i j : Instr) (s t : State), Claims.commandForm .cmdTransform 0x1#4 i → Claims.commandForm .cmdTransform 0x1#4 j → s.memLegal →
    exec i s = .next t → exec j t = .next t

/-! ## The per-pair function -/

/-- R57: the level is the clamped, offset, floor-shifted, truncating half of the exact sum. -/
def Obligations.MixIsTheExactFormula : Prop :=
  ∀ (a b : Int) (s : Nat), ((mix a b s).toNat : Int) = max 0 (min 255 (Int.fdiv (Int.tdiv (a + b) 2) (2 ^ s) + 128))

/-- R60 laws 3 and 4: mix depends on the sum only, symmetrically, and does not decrease with it. -/
def Obligations.MixIsMonotoneInTheSum : Prop :=
  (∀ (a b : Int) (s : Nat), mix a b s = mix b a s) ∧ (∀ (a b a' b' : Int) (s : Nat), a + b = a' + b' → mix a b s = mix a' b' s) ∧
    ∀ (a b a' b' : Int) (s : Nat), a + b ≤ a' + b' → (mix a b s).toNat ≤ (mix a' b' s).toNat

/-- R60 law 2: the level is mid-scale exactly when the half-sum lies in [0, 2^s). -/
def Obligations.MixIsMidScaleExactlyNearSilence : Prop :=
  (∀ s : Nat, (mix 0 0 s).toNat = 128) ∧
    ∀ (a b : Int) (s : Nat), (mix a b s).toNat = 128 ↔ 0 ≤ Int.tdiv (a + b) 2 ∧ Int.tdiv (a + b) 2 < 2 ^ s

/-- R60 law 7: the closed form, and the only place where truncation differs from a flooring division. -/
def Obligations.MixClosedForm : Prop :=
  (∀ (a b : Int) (s : Nat), 0 ≤ a + b → ((mix a b s).toNat : Int) = max 0 (min 255 (Int.fdiv (a + b) (2 ^ (s + 1)) + 128))) ∧
  (∀ (a b : Int) (s : Nat), a + b < 0 → ((mix a b s).toNat : Int) = max 0 (min 255 (Int.fdiv (-(Int.fdiv (-(a + b)) 2)) (2 ^ s) + 128))) ∧
  ∀ (sum : Int) (s : Nat), sum < 0 →
    Int.fdiv (-(Int.fdiv (-sum) 2)) (2 ^ s) =
      Int.fdiv sum (2 ^ (s + 1)) + if sum % 2 = 1 ∧ (2 ^ s : Int) ∣ (sum + 1) / 2 then 1 else 0

/-- R61, which the spec derives from R57: full scale reaches 255 and 0 exactly for shifts of at most m - 7, and at m - 7 nothing is
clamped. -/
def Obligations.SaturationBoundaryOfTheShift : Prop :=
  ∀ m s : Nat,
    ((mix (2 ^ m - 1) (2 ^ m - 1) s).toNat = 255 ↔ s + 7 ≤ m) ∧ ((mix (-(2 ^ m)) (-(2 ^ m)) s).toNat = 0 ↔ s + 7 ≤ m) ∧
    (s + 7 = m → ∀ a b : Int, -(2 ^ m) ≤ a → a ≤ 2 ^ m - 1 → -(2 ^ m) ≤ b → b ≤ 2 ^ m - 1 →
      ((mix a b s).toNat : Int) = Int.fdiv (Int.tdiv (a + b) 2) (2 ^ s) + 128)

/-! ## RAM accesses and reserved space -/

/-- R107, R109, R111, whole. -/
def Obligations.RamReadsReturnTheWrittenBytes : Prop :=
  Claims.ramReads 13 .cap 0x2000 .rdCap ∧ Claims.ramReads 10 .out 0x4000 .rdOut ∧ Claims.ramReads 12 .rend 0x6000 .rdRend

/-- R108, R112, whole. -/
def Obligations.RamWritesStoreTheirLanes : Prop :=
  Claims.ramWrites 13 .cap 0x2000 .wrCap ∧ Claims.ramWrites 12 .rend 0x6000 .wrRend

/-- R110, R113, R114: OUT_RAM and reserved space ignore writes, reserved space reads 0, with the checks of R38 and R39. -/
def Obligations.OutWritesAndReservedSpace : Prop :=
  (∀ (w : Width) (d : Word) (i : BitVec 10), decodeAccess .write (BitVec.ofNat 16 (0x4000 + i.toNat)) w d = .wrOut w i (w.lanes d)) ∧
  (∀ (w : Width) (i : BitVec 10) (d : Word) (s : State),
    (i.toNat % w.bytes = 0 → exec (.wrOut w i d) s = .next { s with resp := .writeDone }) ∧
    (i.toNat % w.bytes ≠ 0 →
      exec (.wrOut w i d) s = .next { s with resp := .busError (BitVec.ofNat 16 (0x4000 + i.toNat)) w .write })) ∧
  (∀ (w : Width) (d : Word) (off : Offset), reservedOffset off = true →
    decodeAccess .read off w d = .rsvdRd w off ∧ decodeAccess .write off w d = .rsvdWr w off (w.lanes d)) ∧
  (∀ (w : Width) (off : Offset) (s : State),
    (Claims.legal off w → exec (.rsvdRd w off) s = .next { s with resp := .readData w 0#32 }) ∧
    (¬ Claims.legal off w → exec (.rsvdRd w off) s = .next { s with resp := .busError off w .read })) ∧
  (∀ (w : Width) (off : Offset) (d : Word) (s : State),
    (Claims.legal off w → exec (.rsvdWr w off d) s = .next { s with resp := .writeDone }) ∧
    (¬ Claims.legal off w → exec (.rsvdWr w off d) s = .next { s with resp := .busError off w .write }))

/-- R38, R39 and R7: for every instruction, an access of illegal width or alignment is a bus error and nothing else; there is no width
but 1, 2 and 4. -/
def Obligations.IllegalAccessIsABusErrorAndNothingElse : Prop :=
  (∀ (i : Instr) (s : State), ¬ Claims.legal i.access.off i.access.width →
    exec i s = .next { s with resp := .busError i.access.off i.access.width i.access.dir }) ∧
  ∀ w : Width, w.bytes = 1 ∨ w.bytes = 2 ∨ w.bytes = 4

/-- R7, R115, R117: every legal access of every instruction is answered normally, or is a Poison on an implemented byte nothing has
written; it is never a bus error and never a refusal. -/
def Obligations.LegalAccessIsAnsweredOrPoison : Prop :=
  ∀ (i : Instr) (s : State), Claims.legal i.access.off i.access.width →
    (∃ t, exec i s = .next t ∧ (i.access.dir = .read → ∃ v, t.resp = .readData i.access.width v) ∧
      (i.access.dir = .write → t.resp = .writeDone)) ∨
    ∃ r k, exec i s = .fault (.poison r k) ∧ k < r.size s.params ∧ s.ramMark r k = false

/-- R41: no read of any register, RAM or reserved offset changes the block, and a repeated read returns the same. -/
def Obligations.ReadsHaveNoSideEffect : Prop :=
  ∀ (i : Instr) (s t : State), i.access.dir = .read → exec i s = .next t → t = { s with resp := t.resp } ∧ exec i t = .next t

/-- R37: a narrower read of CAP_RAM sees the bytes of a 4-byte write, little-endian. -/
def Obligations.NarrowReadsSeeLittleEndianBytes : Prop :=
  ∀ (i : BitVec 13) (k : Nat) (w : Width) (d : Word) (s : State), i.toNat % 4 = 0 → i.toNat + 4 ≤ Ram.cap.size s.params →
    k % w.bytes = 0 → k + w.bytes ≤ 4 →
    ∃ t u, exec (.wrCap .b4 i d) s = .next t ∧ exec (.rdCap w (i + BitVec.ofNat 13 k)) t = .next u ∧
      u = { t with resp := .readData w (w.lanes (d >>> (8 * k))) }

/-- R30, R31, R32: a RAM byte changes only by a host write of CAP_RAM or REND_RAM or by TRANSFORM in OUT_RAM, inside the implemented
bytes, and no clock step changes one. -/
def Obligations.RamBytesHaveOneWriterEach : Prop :=
  (∀ (i : Instr) (s t : State) (a : Nat), exec i s = .next t → t.mem.read a ≠ s.mem.read a →
    (Ram.cap.addr 0 ≤ a ∧ a < Ram.cap.addr (Ram.cap.size s.params) ∧ ∃ w k d, i = .wrCap w k d) ∨
    (Ram.out.addr 0 ≤ a ∧ a < Ram.out.addr (Ram.out.size s.params) ∧ Claims.commandForm .cmdTransform 0x1#4 i) ∨
    (Ram.rend.addr 0 ≤ a ∧ a < Ram.rend.addr (Ram.rend.size s.params) ∧ ∃ w k d, i = .wrRend w k d)) ∧
  ∀ (s t : State), clockStep s = .next t → t.mem = s.mem

/-! ## The clock -/

/-- R68: the PWM part of a clock step, from every legal configuration. -/
def Obligations.ClockStepRunsThePwmPart : Prop :=
  ∀ s : State, s.pwmLegal → (s.rbusy = false → ∃ t, clockStep s = .next t) ∧ ∀ t, clockStep s = .next t → Claims.pwmAfter s t

/-- R73: the render part of a clock step, and Poison at a tick over an unwritten byte. -/
def Obligations.ClockStepRunsTheRenderPart : Prop :=
  ∀ s : State, s.renderLegal →
    (s.rbusy = false → ∃ t, clockStep s = .next t ∧ t.dutyStage = s.dutyStage ∧ t.dutyCommit = s.dutyCommit ∧ t.rpos = s.rpos ∧
      t.rbusy = false ∧ t.intRdone = s.intRdone ∧ t.hTcnt = s.hTcnt) ∧
    (s.rbusy = true → s.hTcnt ≠ 0#24 → ∃ t, clockStep s = .next t ∧ t.dutyStage = s.dutyStage ∧ t.dutyCommit = s.dutyCommit ∧
      t.rpos = s.rpos ∧ t.rbusy = true ∧ t.intRdone = s.intRdone ∧ t.hTcnt.toNat = s.hTcnt.toNat - 1) ∧
    (s.rbusy = true → s.hTcnt = 0#24 → s.rpos = s.hRlenL → ∃ t, clockStep s = .next t ∧ t.dutyStage = s.dutyStage ∧
      t.dutyCommit = s.dutyCommit ∧ t.rpos = s.rpos ∧ t.rbusy = false ∧ t.intRdone = true ∧ t.hTcnt = s.hTcnt) ∧
    (∀ b, s.rbusy = true → s.hTcnt = 0#24 → s.rpos ≠ s.hRlenL → s.ramByte .rend s.rpos.toNat = some b →
      ∃ t, clockStep s = .next t ∧ t.dutyStage = b ∧ t.dutyCommit = b ∧ t.rpos.toNat = s.rpos.toNat + 1 ∧ t.rbusy = true ∧
        t.intRdone = s.intRdone ∧ t.hTcnt.toNat = s.hTdivL.toNat - 1) ∧
    (s.rbusy = true → s.hTcnt = 0#24 → s.rpos ≠ s.hRlenL → s.ramMark .rend s.rpos.toNat = false →
      clockStep s = .fault (.poison .rend s.rpos.toNat))

/-- R10: a clock step writes the fields R10 lists and no other, and what it latches into DUTY_ACTIVE is the level committed before the
edge. -/
def Obligations.ClockStepWritesOnlyItsFields : Prop :=
  ∀ (s t : State), clockStep s = .next t →
    t = { s with
      dutyStage := t.dutyStage, dutyCommit := t.dutyCommit, rpos := t.rpos, rbusy := t.rbusy, intRdone := t.intRdone,
      hTcnt := t.hTcnt, pwmCnt := t.pwmCnt, hPre := t.hPre, dutyActive := t.dutyActive } ∧
    (t.dutyActive = s.dutyActive ∨ t.dutyActive = s.dutyCommit)

/-- R70, a render running or not: k clock steps after an enable PWM_CNT is (k / DIV) mod 2^RES and h.PRE is k mod DIV, the refresh boundaries
are the clock steps j x DIV x 2^RES, and DUTY_ACTIVE holds what was committed just before the last of them. The steps complete unless the
render meets Poison, and no host access that leaves the modulator enabled moves the period. -/
def Obligations.PwmCountsThePeriod : Prop :=
  (∀ (s : State) (k : Nat), s.pwmLegal → s.pwmEn = true → s.pwmCnt = 0#15 → s.hPre = 0#16 →
    (renderContinues s → ∃ t, clockSteps k s = .next t) ∧
    ∀ t, clockSteps k s = .next t →
      t.pwmCnt.toNat = k / s.pwmDiv.toNat % 2 ^ s.pwmRes.toNat ∧ t.hPre.toNat = k % s.pwmDiv.toNat ∧
      (refreshBoundary t = true ↔ (k + 1) % (s.pwmDiv.toNat * 2 ^ s.pwmRes.toNat) = 0) ∧
      (k < s.pwmDiv.toNat * 2 ^ s.pwmRes.toNat → t.dutyActive = s.dutyActive) ∧
      (s.pwmDiv.toNat * 2 ^ s.pwmRes.toNat ≤ k →
        ∃ u, clockSteps (k / (s.pwmDiv.toNat * 2 ^ s.pwmRes.toNat) * (s.pwmDiv.toNat * 2 ^ s.pwmRes.toNat) - 1) s = .next u ∧
          t.dutyActive = u.dutyCommit) ∧
      (s.rbusy = false →
        t = { s with
          pwmCnt := t.pwmCnt, hPre := t.hPre,
          dutyActive := if s.pwmDiv.toNat * 2 ^ s.pwmRes.toNat ≤ k then s.dutyCommit else s.dutyActive })) ∧
  ∀ (i : Instr) (s t : State), s.pwmEn = true → exec i s = .next t → t.pwmEn = true →
    t.pwmCnt = s.pwmCnt ∧ t.hPre = s.hPre ∧ t.pwmRes = s.pwmRes ∧ t.pwmDiv = s.pwmDiv ∧ t.dutyActive = s.dutyActive

/-- R70, a render running or not: in a period the output is high for exactly DUTY_ACTIVE x 2^(RES-8) x DIV clock steps. The period's clock
steps complete unless the render meets Poison. -/
def Obligations.PwmDutyIsExact : Prop :=
  ∀ s : State, s.pwmLegal → s.pwmEn = true → s.pwmCnt = 0#15 → s.hPre = 0#16 →
    (renderContinues s → ∃ t, clockSteps (s.pwmDiv.toNat * 2 ^ s.pwmRes.toNat) s = .next t) ∧
    ∀ t, clockSteps (s.pwmDiv.toNat * 2 ^ s.pwmRes.toNat) s = .next t →
      Claims.highSteps (s.pwmDiv.toNat * 2 ^ s.pwmRes.toNat) s = s.dutyActive.toNat * 2 ^ (s.pwmRes.toNat - 8) * s.pwmDiv.toNat

/-- R21: DUTY_ACTIVE changes only at a refresh boundary of the clock or at the enable of the modulator, and takes DUTY_COMMIT. -/
def Obligations.ActiveLevelChangesOnlyAtARefresh : Prop :=
  (∀ (i : Instr) (s t : State), exec i s = .next t → t.dutyActive ≠ s.dutyActive →
    t.dutyActive = s.dutyCommit ∧ s.pwmEn = false ∧ t.pwmEn = true ∧ ∃ d, i = .wrCtrl .b4 d) ∧
  ∀ (s t : State), clockStep s = .next t → t.dutyActive ≠ s.dutyActive →
    t.dutyActive = s.dutyCommit ∧ s.pwmEn = true ∧ s.hPre.toNat + 1 = s.pwmDiv.toNat ∧
      s.pwmCnt.toNat = 2 ^ s.pwmRes.toNat - 1

/-- R20: DUTY_COMMIT changes only by COMMIT and by a render tick. -/
def Obligations.CommittedLevelChangesOnlyByCommitOrTick : Prop :=
  (∀ (i : Instr) (s t : State), exec i s = .next t → t.dutyCommit ≠ s.dutyCommit →
    Claims.commandForm .cmdCommit 0x2#4 i ∧ s.rbusy = false ∧ t.dutyCommit = s.dutyStage) ∧
  ∀ (s t : State), clockStep s = .next t → t.dutyCommit ≠ s.dutyCommit →
    s.rbusy = true ∧ s.hTcnt = 0#24 ∧ s.rpos ≠ s.hRlenL ∧ s.ramByte .rend s.rpos.toNat = some t.dutyCommit

/-- R65: `set_level` with no render running leaves the sample staged and committed, and DUTY_ACTIVE as it was. -/
def Obligations.SetLevelStagesAndCommits : Prop :=
  ∀ (s : State) (d : Word) (rsv : BitVec 28), s.rbusy = false →
    ∃ t u, exec (.wrDutyStage .b4 d) s = .next t ∧ exec (.cmdCommit rsv) t = .next u ∧ u.dutyStage = d.extractLsb' 0 8 ∧
      u.dutyCommit = d.extractLsb' 0 8 ∧ u.dutyActive = s.dutyActive

/-! ## The render -/

/-- R74: level REND[i] is committed from clock step i x T + 1 to (i + 1) x T with RPOS = i + 1, and at n x T + 1 the render completes:
RBUSY falls, RDONE rises, the last level stays staged and committed. -/
def Obligations.RenderKeepsItsSchedule : Prop :=
  ∀ (rsv : BitVec 28) (s : State), s.rbusy = false → 1 ≤ s.rlen.toNat → s.rlen.toNat ≤ s.params.rendLen → 1 ≤ s.tickDiv.toNat →
    renderReady s s.rlen.toNat →
    ∃ s₁, exec (.cmdRender rsv) s = .next s₁ ∧ s₁.hRlenL = s.rlen ∧ s₁.hTdivL = s.tickDiv ∧ s₁.rbusy = true ∧
      (∀ i k, i < s.rlen.toNat → 1 ≤ k → k ≤ s.tickDiv.toNat →
        ∃ t, clockSteps (i * s.tickDiv.toNat + k) s₁ = .next t ∧ s.ramByte .rend i = some t.dutyCommit ∧
          t.rpos.toNat = i + 1 ∧ t.rbusy = true) ∧
      ∃ t, clockSteps (s.rlen.toNat * s.tickDiv.toNat + 1) s₁ = .next t ∧ t.rbusy = false ∧ t.intRdone = true ∧
        t.rpos = s.rlen ∧ t.dutyStage = t.dutyCommit ∧ s.ramByte .rend (s.rlen.toNat - 1) = some t.dutyCommit

/-- R75: no host access stops, restarts, repositions or speeds up a running render or writes its levels, a second RENDER is refused,
and of the other steps only the clock step that completes it and a reset end it. -/
def Obligations.NothingStopsARenderButReset : Prop :=
  (∀ (i : Instr) (s t : State), s.rbusy = true → exec i s = .next t →
    t.rbusy = true ∧ t.rpos = s.rpos ∧ t.hRlenL = s.hRlenL ∧ t.hTdivL = s.hTdivL ∧ t.hTcnt = s.hTcnt ∧
      t.dutyStage = s.dutyStage ∧ t.dutyCommit = s.dutyCommit) ∧
  (∀ (i : Instr) (s : State), s.rbusy = true → Claims.commandForm .cmdRender 0x3#4 i → exec i s = .next (Claims.recorded 2#4 s)) ∧
  ∀ (s t : State), s.rbusy = true → step s = .next t → t.rbusy = false →
    s.inputs.head? = some .reset ∨ (clockTurn s = true ∧ s.rpos = s.hRlenL ∧ s.hTcnt = 0#24 ∧ t.intRdone = true)

/-- R76: with the modulator running and its period at most the tick interval, every level of a render reaches DUTY_ACTIVE, within
the clock steps R76 names. -/
def Obligations.EveryRenderedLevelReachesTheOutput : Prop :=
  ∀ (rsv : BitVec 28) (s : State), s.rbusy = false → 1 ≤ s.rlen.toNat → s.rlen.toNat ≤ s.params.rendLen → 1 ≤ s.tickDiv.toNat →
    renderReady s s.rlen.toNat → s.pwmLegal → s.pwmEn = true → s.pwmDiv.toNat * 2 ^ s.pwmRes.toNat ≤ s.tickDiv.toNat →
    ∃ s₁, exec (.cmdRender rsv) s = .next s₁ ∧
      ∀ i, i < s.rlen.toNat → ∃ k t, i * s.tickDiv.toNat + 2 ≤ k ∧ k ≤ (i + 1) * s.tickDiv.toNat + 1 ∧
        clockSteps k s₁ = .next t ∧ s.ramByte .rend i = some t.dutyActive

/-- R11 with R75: in every run that is fair to the clock and has no reset, a render that runs completes, with RDONE set, however many
accesses the host makes. That inputs stand in a list is the model's choice (log entries 2 and 17). -/
def Obligations.EveryRenderCompletes : Prop :=
  ∀ (arrive : Nat → List Input) (run : Nat → State), IsRun arrive run → ClockFair arrive run → (run 0).Inv →
    .reset ∉ (run 0).inputs → (∀ n, .reset ∉ arrive n) → (run 0).rbusy = true →
    ∃ n, (run n).rbusy = true ∧ (run (n + 1)).rbusy = false ∧ (run (n + 1)).intRdone = true

/-- R11: a run in which nothing arrives any more is fair to the clock agent. It rests on the model's choice that the clock steps when no
input is pending (log entries 2 and 17). -/
def Obligations.RunsWithFinitelyManyArrivalsAreFair : Prop :=
  ∀ (arrive : Nat → List Input) (run : Nat → State) (n : Nat), IsRun arrive run → (∀ m, n ≤ m → arrive m = []) → ClockFair arrive run

/-! ## Errors and interrupts -/

/-- R115: an error record appears only for a cause of the table, with its code, and the refused operation does nothing else. -/
def Obligations.OnlyTheNamedCausesRecordAnError : Prop :=
  ∀ (i : Instr) (s t : State), exec i s = .next t → s.intErr = false → t.intErr = true →
    (t = Claims.recorded 1#4 s ∧ Claims.reservedForm i) ∨
    (t = Claims.recorded 2#4 s ∧ s.rbusy = true ∧
      ((∃ d, i = .wrDutyStage .b4 d) ∨ Claims.commandForm .cmdCommit 0x2#4 i ∨ Claims.commandForm .cmdRender 0x3#4 i)) ∨
    (t = Claims.recorded 3#4 s ∧
      ((Claims.commandForm .cmdTransform 0x1#4 i ∧ (s.npairs.toNat = 0 ∨ s.params.capPairs < s.npairs.toNat)) ∨
        (Claims.commandForm .cmdRender 0x3#4 i ∧ s.rbusy = false ∧ (s.rlen.toNat = 0 ∨ s.params.rendLen < s.rlen.toNat)))) ∨
    (t = Claims.recorded 4#4 s ∧ s.pwmEn = true ∧ ∃ d, i = .wrPwmCfg .b4 d)

/-- R116: while ERR is set and not cleared, no step changes ERRCODE. -/
def Obligations.FirstErrorCodeIsKept : Prop :=
  ∀ (s t : State), step s = .next t → s.intErr = true → t.intErr = true → t.errcode = s.errcode

/-- R121: a clock step can set only RDONE, a host access can set only ERR. -/
def Obligations.ClockSetsDoneAndHostSetsError : Prop :=
  (∀ (i : Instr) (s t : State), exec i s = .next t → t.intRdone = true → s.intRdone = true) ∧
  ∀ (s t : State), clockStep s = .next t → t.intErr = s.intErr ∧ t.errcode = s.errcode

/-- R119: IRQ is the enabled pending causes, it follows INT_EN and INT_STATUS at once, and a cause is cleared only by R120. -/
def Obligations.IrqIsTheEnabledPendingCauses : Prop :=
  (∀ s : State, irq s = true ↔ (s.intRdone = true ∧ s.rdoneEn = true) ∨ (s.intErr = true ∧ s.errEn = true)) ∧
  (∀ (d : Word) (s : State), ∃ t, exec (.wrIntEn .b4 d) s = .next t ∧
    irq t = ((s.intRdone && d.getLsbD 0) || (s.intErr && d.getLsbD 1))) ∧
  (∀ s : State, ∃ t, exec (.wrIntStatus .b4 3#32) s = .next t ∧ irq t = false) ∧
  (∀ (i : Instr) (s t : State), exec i s = .next t →
    (s.intRdone = true → t.intRdone = false → ∃ d, i = .wrIntStatus .b4 d ∧ d.getLsbD 0 = true) ∧
      (s.intErr = true → t.intErr = false → ∃ d, i = .wrIntStatus .b4 d ∧ d.getLsbD 1 = true)) ∧
  ∀ (s t : State), clockStep s = .next t → (s.intRdone = true → t.intRdone = true) ∧ t.intErr = s.intErr

/-! ## Whole-machine rules -/

/-- R34 and the canonical form of memory: every step keeps the invariant, from every state that has it. -/
def Obligations.EveryStepKeepsTheInvariant : Prop := ∀ (s t : State), s.Inv → step s = .next t → t.Inv

/-- R1 and R14: no step changes a parameter, and ID reads its constant in every state. -/
def Obligations.ParametersAndIdentityNeverChange : Prop :=
  ∀ (s t : State), step s = .next t → t.params = s.params ∧ exec (.rdId .b4) t = .next { t with resp := .readData .b4 0x444D5201#32 }

/-- A step runs the next input: a decoded transfer by exec, bytes that are no transfer refused by name, a clock edge or no input by a
clock step; a table word offered as the next access is what the next step runs. That inputs stand in a list and that the clock steps
when none is pending is the model's choice (log entries 2 and 3). -/
def Obligations.StepRunsTheDecodedAccess : Prop :=
  (∀ (s : State) (f : Format) (bytes : List Byte) (rest : List Input) (i : Instr), s.inputs = .transfer f bytes :: rest →
    decode f bytes = .ok i → step s = exec i { s with inputs := rest }) ∧
  (∀ (s : State) (f : Format) (bytes : List Byte) (rest : List Input) (e : DecodeError),
    s.inputs = .transfer f bytes :: rest → decode f bytes = .error e →
    step s = .refused (.noSuchTransfer e)) ∧
  (∀ (s : State) (rest : List Input), s.inputs = .clock :: rest → step s = clockStep { s with inputs := rest }) ∧
  (∀ s : State, s.inputs = [] → step s = clockStep s) ∧
  ∀ (s : State) (nbits w : Nat) (i : Instr), decodeTableWord nbits w = some i → step (s.withFetchWord nbits w) = exec i s

/-- R35: a bus cycle inside the window at P_BASE is the access at its offset, one outside is not decoded and changes nothing. -/
def Obligations.HostCyclesAreDecodedInsideTheWindow : Prop :=
  ∀ (s : State) (addr : Nat) (dir : Dir) (w : Width) (d : Word) (rest : List Input), s.inputs = .hostCycle addr dir w d :: rest →
    (s.params.base ≤ addr → addr ≤ s.params.base + 0xFFFF →
      step s = exec (decodeAccess dir (BitVec.ofNat 16 (addr - s.params.base)) w d) { s with inputs := rest }) ∧
    (addr < s.params.base ∨ s.params.base + 0xFFFF < addr → step s = .next { s with inputs := rest })

/-! ## Encoding -/

/-- Decoding the encoding of any well-formed instruction gives it back, with every operand. -/
def Obligations.DecodeEncodeRoundTrip : Prop := ∀ i : Instr, i.wf = true → decode (encode i).1 (encode i).2 = .ok i

/-- R48: every descriptor decodes to a well-formed row with that direction, offset, width and data, and to a fallback row exactly where
no other row matches. -/
def Obligations.DecodingKeepsTheDescriptor : Prop :=
  ∀ (dir : Dir) (off : Offset) (w : Width) (d : Word),
    (decodeAccess dir off w d).wf = true ∧
    (decodeAccess dir off w d).access = ⟨dir, off, w, if dir = .write then w.lanes d else 0#32⟩ ∧
    (decodeAccess dir off w d = fallbackRow dir w off (w.lanes d) ↔ reservedOffset off = true)

/-- Words written out from R48, R49 and the opcode table decode to the instructions they stand for. That width code 0 is 4 bytes, how a
record is laid out, and that a word of at most 16 bits is a CMD word are the model's choices (log entries 4, 5 and 7). -/
def Obligations.TableWordsDecodeToTheirInstructions : Prop :=
  decodeTableWord 24 0x00000 = some (.rdId .b4) ∧ decodeTableWord 24 0x00034 = some (.rdStatus .b4) ∧
  decodeTableWord 24 0x10004 = some (.wrCtrl .b4 0#32) ∧ decodeTableWord 24 0x10014 = some (.wrDutyStage .b4 0#32) ∧
  decodeTableWord 24 0x10010 = some (.wrCmd .b4 0#32) ∧ decodeTableWord 8 0x1 = some (.cmdTransform 0#28) ∧
  decodeTableWord 8 0x2 = some (.cmdCommit 0#28) ∧ decodeTableWord 8 0x3 = some (.cmdRender 0#28) ∧
  decodeTableWord 8 0x7 = some (.cmdRsvd4 3#2 0#28) ∧ decodeTableWord 8 0xF = some (.cmdRsvd8 7#3 0#28) ∧
  decodeTableWord 24 0x02004 = some (.rdCap .b4 4#13) ∧ decodeTableWord 24 0x14001 = some (.wrOut .b4 1#10 0#32) ∧
  decodeTableWord 24 0x16FFC = some (.wrRend .b4 0xFFC#12 0#32) ∧ decodeTableWord 24 0x00040 = some (.rsvdRd .b4 0x0040#16) ∧
  decodeTableWord 24 0x17000 = some (.rsvdWr .b4 0x7000#16 0#32) ∧
  decode .cmd [0xF1#8, 0xFF#8, 0xFF#8, 0xFF#8] = .ok (.cmdTransform 0xFFFFFFF#28)

/-! ## The host notation -/

/-- R54 and R55: a read that raises BusError leaves every harness register as it was and the program goes on; a read of a register no
statement has written faults. -/
def Obligations.HarnessKeepsRegistersOnABusError : Prop :=
  (∀ (h : Harness) (prog : List ProgramLine) (w : Width) (xd : HReg) (off : Offset), ¬ Claims.legal off w →
    ∃ h', h.execute prog (.rd w xd off) = .running h' ∧ h'.x = h.x ∧ h'.pc = h.pc + 1 ∧
      h'.busErrors = h.busErrors ++ [.busError off w .read] ∧ h'.block = { h.block with resp := .busError off w .read }) ∧
  (∀ (h : Harness) (prog : List ProgramLine) (w : Width) (off : Offset) (x : HReg), h.reg x = none →
    h.execute prog (.wr w off (.reg x)) = .fault (.unwrittenRegister x))

/-! ## Interleavings -/

/-- R9: every interleaving of host accesses, clock steps and resets, an endless one too, is a run, and each of its steps is the step of
that one agent. That inputs stand in a list is the model's choice (log entry 2). -/
def Obligations.EveryInterleavingIsARun : Prop :=
  ∀ (agent : Nat → Input) (run : Nat → State), (run 0).inputs = [] →
    (IsRun (fun n => [agent n]) run ↔ ∀ n, runInput (agent n) (run n) = .next (run (n + 1)))
end

