-- ==== Sys2Proof/Laws/State.lean ====
section
/-! SUPPORT. One lemma per field per update of State, so that no proof unfolds a record update. -/

namespace Sys2Proof.Machine

/-! ## respond -/

@[simp] theorem respond_params (r : BusResponse) (s : State) : (s.respond r).params = s.params := rfl
@[simp] theorem respond_pwmEn (r : BusResponse) (s : State) : (s.respond r).pwmEn = s.pwmEn := rfl
@[simp] theorem respond_fmt (r : BusResponse) (s : State) : (s.respond r).fmt = s.fmt := rfl
@[simp] theorem respond_shift (r : BusResponse) (s : State) : (s.respond r).shift = s.shift := rfl
@[simp] theorem respond_npairs (r : BusResponse) (s : State) : (s.respond r).npairs = s.npairs := rfl
@[simp] theorem respond_dutyStage (r : BusResponse) (s : State) : (s.respond r).dutyStage = s.dutyStage := rfl
@[simp] theorem respond_dutyCommit (r : BusResponse) (s : State) : (s.respond r).dutyCommit = s.dutyCommit := rfl
@[simp] theorem respond_dutyActive (r : BusResponse) (s : State) : (s.respond r).dutyActive = s.dutyActive := rfl
@[simp] theorem respond_pwmRes (r : BusResponse) (s : State) : (s.respond r).pwmRes = s.pwmRes := rfl
@[simp] theorem respond_pwmDiv (r : BusResponse) (s : State) : (s.respond r).pwmDiv = s.pwmDiv := rfl
@[simp] theorem respond_pwmCnt (r : BusResponse) (s : State) : (s.respond r).pwmCnt = s.pwmCnt := rfl
@[simp] theorem respond_tickDiv (r : BusResponse) (s : State) : (s.respond r).tickDiv = s.tickDiv := rfl
@[simp] theorem respond_rlen (r : BusResponse) (s : State) : (s.respond r).rlen = s.rlen := rfl
@[simp] theorem respond_rpos (r : BusResponse) (s : State) : (s.respond r).rpos = s.rpos := rfl
@[simp] theorem respond_rbusy (r : BusResponse) (s : State) : (s.respond r).rbusy = s.rbusy := rfl
@[simp] theorem respond_errcode (r : BusResponse) (s : State) : (s.respond r).errcode = s.errcode := rfl
@[simp] theorem respond_intRdone (r : BusResponse) (s : State) : (s.respond r).intRdone = s.intRdone := rfl
@[simp] theorem respond_intErr (r : BusResponse) (s : State) : (s.respond r).intErr = s.intErr := rfl
@[simp] theorem respond_rdoneEn (r : BusResponse) (s : State) : (s.respond r).rdoneEn = s.rdoneEn := rfl
@[simp] theorem respond_errEn (r : BusResponse) (s : State) : (s.respond r).errEn = s.errEn := rfl
@[simp] theorem respond_hPre (r : BusResponse) (s : State) : (s.respond r).hPre = s.hPre := rfl
@[simp] theorem respond_hTcnt (r : BusResponse) (s : State) : (s.respond r).hTcnt = s.hTcnt := rfl
@[simp] theorem respond_hRlenL (r : BusResponse) (s : State) : (s.respond r).hRlenL = s.hRlenL := rfl
@[simp] theorem respond_hTdivL (r : BusResponse) (s : State) : (s.respond r).hTdivL = s.hTdivL := rfl
@[simp] theorem respond_mem (r : BusResponse) (s : State) : (s.respond r).mem = s.mem := rfl
@[simp] theorem respond_inputs (r : BusResponse) (s : State) : (s.respond r).inputs = s.inputs := rfl
@[simp] theorem respond_resp (r : BusResponse) (s : State) : (s.respond r).resp = r := rfl

/-! ## recordCmdError -/

@[simp] theorem recordCmdError_params (e : ErrCode) (s : State) : (recordCmdError e s).params = s.params := rfl
@[simp] theorem recordCmdError_pwmEn (e : ErrCode) (s : State) : (recordCmdError e s).pwmEn = s.pwmEn := rfl
@[simp] theorem recordCmdError_fmt (e : ErrCode) (s : State) : (recordCmdError e s).fmt = s.fmt := rfl
@[simp] theorem recordCmdError_shift (e : ErrCode) (s : State) : (recordCmdError e s).shift = s.shift := rfl
@[simp] theorem recordCmdError_npairs (e : ErrCode) (s : State) : (recordCmdError e s).npairs = s.npairs := rfl
@[simp] theorem recordCmdError_dutyStage (e : ErrCode) (s : State) : (recordCmdError e s).dutyStage = s.dutyStage := rfl
@[simp] theorem recordCmdError_dutyCommit (e : ErrCode) (s : State) : (recordCmdError e s).dutyCommit = s.dutyCommit := rfl
@[simp] theorem recordCmdError_dutyActive (e : ErrCode) (s : State) : (recordCmdError e s).dutyActive = s.dutyActive := rfl
@[simp] theorem recordCmdError_pwmRes (e : ErrCode) (s : State) : (recordCmdError e s).pwmRes = s.pwmRes := rfl
@[simp] theorem recordCmdError_pwmDiv (e : ErrCode) (s : State) : (recordCmdError e s).pwmDiv = s.pwmDiv := rfl
@[simp] theorem recordCmdError_pwmCnt (e : ErrCode) (s : State) : (recordCmdError e s).pwmCnt = s.pwmCnt := rfl
@[simp] theorem recordCmdError_tickDiv (e : ErrCode) (s : State) : (recordCmdError e s).tickDiv = s.tickDiv := rfl
@[simp] theorem recordCmdError_rlen (e : ErrCode) (s : State) : (recordCmdError e s).rlen = s.rlen := rfl
@[simp] theorem recordCmdError_rpos (e : ErrCode) (s : State) : (recordCmdError e s).rpos = s.rpos := rfl
@[simp] theorem recordCmdError_rbusy (e : ErrCode) (s : State) : (recordCmdError e s).rbusy = s.rbusy := rfl
@[simp] theorem recordCmdError_errcode (e : ErrCode) (s : State) : (recordCmdError e s).errcode = if s.intErr then s.errcode else e.bits := rfl
@[simp] theorem recordCmdError_intRdone (e : ErrCode) (s : State) : (recordCmdError e s).intRdone = s.intRdone := rfl
@[simp] theorem recordCmdError_intErr (e : ErrCode) (s : State) : (recordCmdError e s).intErr = true := rfl
@[simp] theorem recordCmdError_rdoneEn (e : ErrCode) (s : State) : (recordCmdError e s).rdoneEn = s.rdoneEn := rfl
@[simp] theorem recordCmdError_errEn (e : ErrCode) (s : State) : (recordCmdError e s).errEn = s.errEn := rfl
@[simp] theorem recordCmdError_hPre (e : ErrCode) (s : State) : (recordCmdError e s).hPre = s.hPre := rfl
@[simp] theorem recordCmdError_hTcnt (e : ErrCode) (s : State) : (recordCmdError e s).hTcnt = s.hTcnt := rfl
@[simp] theorem recordCmdError_hRlenL (e : ErrCode) (s : State) : (recordCmdError e s).hRlenL = s.hRlenL := rfl
@[simp] theorem recordCmdError_hTdivL (e : ErrCode) (s : State) : (recordCmdError e s).hTdivL = s.hTdivL := rfl
@[simp] theorem recordCmdError_mem (e : ErrCode) (s : State) : (recordCmdError e s).mem = s.mem := rfl
@[simp] theorem recordCmdError_inputs (e : ErrCode) (s : State) : (recordCmdError e s).inputs = s.inputs := rfl
@[simp] theorem recordCmdError_resp (e : ErrCode) (s : State) : (recordCmdError e s).resp = s.resp := rfl

/-! ## acknowledge -/

@[simp] theorem acknowledge_params (x y : Bool) (s : State) : (acknowledge x y s).params = s.params := rfl
@[simp] theorem acknowledge_pwmEn (x y : Bool) (s : State) : (acknowledge x y s).pwmEn = s.pwmEn := rfl
@[simp] theorem acknowledge_fmt (x y : Bool) (s : State) : (acknowledge x y s).fmt = s.fmt := rfl
@[simp] theorem acknowledge_shift (x y : Bool) (s : State) : (acknowledge x y s).shift = s.shift := rfl
@[simp] theorem acknowledge_npairs (x y : Bool) (s : State) : (acknowledge x y s).npairs = s.npairs := rfl
@[simp] theorem acknowledge_dutyStage (x y : Bool) (s : State) : (acknowledge x y s).dutyStage = s.dutyStage := rfl
@[simp] theorem acknowledge_dutyCommit (x y : Bool) (s : State) : (acknowledge x y s).dutyCommit = s.dutyCommit := rfl
@[simp] theorem acknowledge_dutyActive (x y : Bool) (s : State) : (acknowledge x y s).dutyActive = s.dutyActive := rfl
@[simp] theorem acknowledge_pwmRes (x y : Bool) (s : State) : (acknowledge x y s).pwmRes = s.pwmRes := rfl
@[simp] theorem acknowledge_pwmDiv (x y : Bool) (s : State) : (acknowledge x y s).pwmDiv = s.pwmDiv := rfl
@[simp] theorem acknowledge_pwmCnt (x y : Bool) (s : State) : (acknowledge x y s).pwmCnt = s.pwmCnt := rfl
@[simp] theorem acknowledge_tickDiv (x y : Bool) (s : State) : (acknowledge x y s).tickDiv = s.tickDiv := rfl
@[simp] theorem acknowledge_rlen (x y : Bool) (s : State) : (acknowledge x y s).rlen = s.rlen := rfl
@[simp] theorem acknowledge_rpos (x y : Bool) (s : State) : (acknowledge x y s).rpos = s.rpos := rfl
@[simp] theorem acknowledge_rbusy (x y : Bool) (s : State) : (acknowledge x y s).rbusy = s.rbusy := rfl
@[simp] theorem acknowledge_errcode (x y : Bool) (s : State) : (acknowledge x y s).errcode = if y then 0#4 else s.errcode := rfl
@[simp] theorem acknowledge_intRdone (x y : Bool) (s : State) : (acknowledge x y s).intRdone = (s.intRdone && !x) := rfl
@[simp] theorem acknowledge_intErr (x y : Bool) (s : State) : (acknowledge x y s).intErr = (s.intErr && !y) := rfl
@[simp] theorem acknowledge_rdoneEn (x y : Bool) (s : State) : (acknowledge x y s).rdoneEn = s.rdoneEn := rfl
@[simp] theorem acknowledge_errEn (x y : Bool) (s : State) : (acknowledge x y s).errEn = s.errEn := rfl
@[simp] theorem acknowledge_hPre (x y : Bool) (s : State) : (acknowledge x y s).hPre = s.hPre := rfl
@[simp] theorem acknowledge_hTcnt (x y : Bool) (s : State) : (acknowledge x y s).hTcnt = s.hTcnt := rfl
@[simp] theorem acknowledge_hRlenL (x y : Bool) (s : State) : (acknowledge x y s).hRlenL = s.hRlenL := rfl
@[simp] theorem acknowledge_hTdivL (x y : Bool) (s : State) : (acknowledge x y s).hTdivL = s.hTdivL := rfl
@[simp] theorem acknowledge_mem (x y : Bool) (s : State) : (acknowledge x y s).mem = s.mem := rfl
@[simp] theorem acknowledge_inputs (x y : Bool) (s : State) : (acknowledge x y s).inputs = s.inputs := rfl
@[simp] theorem acknowledge_resp (x y : Bool) (s : State) : (acknowledge x y s).resp = s.resp := rfl

/-! ## startRender -/

@[simp] theorem startRender_params (s : State) : (startRender s).params = s.params := rfl
@[simp] theorem startRender_pwmEn (s : State) : (startRender s).pwmEn = s.pwmEn := rfl
@[simp] theorem startRender_fmt (s : State) : (startRender s).fmt = s.fmt := rfl
@[simp] theorem startRender_shift (s : State) : (startRender s).shift = s.shift := rfl
@[simp] theorem startRender_npairs (s : State) : (startRender s).npairs = s.npairs := rfl
@[simp] theorem startRender_dutyStage (s : State) : (startRender s).dutyStage = s.dutyStage := rfl
@[simp] theorem startRender_dutyCommit (s : State) : (startRender s).dutyCommit = s.dutyCommit := rfl
@[simp] theorem startRender_dutyActive (s : State) : (startRender s).dutyActive = s.dutyActive := rfl
@[simp] theorem startRender_pwmRes (s : State) : (startRender s).pwmRes = s.pwmRes := rfl
@[simp] theorem startRender_pwmDiv (s : State) : (startRender s).pwmDiv = s.pwmDiv := rfl
@[simp] theorem startRender_pwmCnt (s : State) : (startRender s).pwmCnt = s.pwmCnt := rfl
@[simp] theorem startRender_tickDiv (s : State) : (startRender s).tickDiv = s.tickDiv := rfl
@[simp] theorem startRender_rlen (s : State) : (startRender s).rlen = s.rlen := rfl
@[simp] theorem startRender_rpos (s : State) : (startRender s).rpos = 0#13 := rfl
@[simp] theorem startRender_rbusy (s : State) : (startRender s).rbusy = true := rfl
@[simp] theorem startRender_errcode (s : State) : (startRender s).errcode = s.errcode := rfl
@[simp] theorem startRender_intRdone (s : State) : (startRender s).intRdone = s.intRdone := rfl
@[simp] theorem startRender_intErr (s : State) : (startRender s).intErr = s.intErr := rfl
@[simp] theorem startRender_rdoneEn (s : State) : (startRender s).rdoneEn = s.rdoneEn := rfl
@[simp] theorem startRender_errEn (s : State) : (startRender s).errEn = s.errEn := rfl
@[simp] theorem startRender_hPre (s : State) : (startRender s).hPre = s.hPre := rfl
@[simp] theorem startRender_hTcnt (s : State) : (startRender s).hTcnt = 0#24 := rfl
@[simp] theorem startRender_hRlenL (s : State) : (startRender s).hRlenL = s.rlen := rfl
@[simp] theorem startRender_hTdivL (s : State) : (startRender s).hTdivL = s.tickDiv := rfl
@[simp] theorem startRender_mem (s : State) : (startRender s).mem = s.mem := rfl
@[simp] theorem startRender_inputs (s : State) : (startRender s).inputs = s.inputs := rfl
@[simp] theorem startRender_resp (s : State) : (startRender s).resp = s.resp := rfl

/-! ## applyClock -/

@[simp] theorem applyClock_params (s : State) (r : RenderWrites) (p : PwmWrites) : (applyClock s r p).params = s.params := rfl
@[simp] theorem applyClock_pwmEn (s : State) (r : RenderWrites) (p : PwmWrites) : (applyClock s r p).pwmEn = s.pwmEn := rfl
@[simp] theorem applyClock_fmt (s : State) (r : RenderWrites) (p : PwmWrites) : (applyClock s r p).fmt = s.fmt := rfl
@[simp] theorem applyClock_shift (s : State) (r : RenderWrites) (p : PwmWrites) : (applyClock s r p).shift = s.shift := rfl
@[simp] theorem applyClock_npairs (s : State) (r : RenderWrites) (p : PwmWrites) : (applyClock s r p).npairs = s.npairs := rfl
@[simp] theorem applyClock_dutyStage (s : State) (r : RenderWrites) (p : PwmWrites) : (applyClock s r p).dutyStage = r.stage := rfl
@[simp] theorem applyClock_dutyCommit (s : State) (r : RenderWrites) (p : PwmWrites) : (applyClock s r p).dutyCommit = r.commit := rfl
@[simp] theorem applyClock_dutyActive (s : State) (r : RenderWrites) (p : PwmWrites) : (applyClock s r p).dutyActive = p.active := rfl
@[simp] theorem applyClock_pwmRes (s : State) (r : RenderWrites) (p : PwmWrites) : (applyClock s r p).pwmRes = s.pwmRes := rfl
@[simp] theorem applyClock_pwmDiv (s : State) (r : RenderWrites) (p : PwmWrites) : (applyClock s r p).pwmDiv = s.pwmDiv := rfl
@[simp] theorem applyClock_pwmCnt (s : State) (r : RenderWrites) (p : PwmWrites) : (applyClock s r p).pwmCnt = p.cnt := rfl
@[simp] theorem applyClock_tickDiv (s : State) (r : RenderWrites) (p : PwmWrites) : (applyClock s r p).tickDiv = s.tickDiv := rfl
@[simp] theorem applyClock_rlen (s : State) (r : RenderWrites) (p : PwmWrites) : (applyClock s r p).rlen = s.rlen := rfl
@[simp] theorem applyClock_rpos (s : State) (r : RenderWrites) (p : PwmWrites) : (applyClock s r p).rpos = r.rpos := rfl
@[simp] theorem applyClock_rbusy (s : State) (r : RenderWrites) (p : PwmWrites) : (applyClock s r p).rbusy = r.rbusy := rfl
@[simp] theorem applyClock_errcode (s : State) (r : RenderWrites) (p : PwmWrites) : (applyClock s r p).errcode = s.errcode := rfl
@[simp] theorem applyClock_intRdone (s : State) (r : RenderWrites) (p : PwmWrites) : (applyClock s r p).intRdone = r.rdone := rfl
@[simp] theorem applyClock_intErr (s : State) (r : RenderWrites) (p : PwmWrites) : (applyClock s r p).intErr = s.intErr := rfl
@[simp] theorem applyClock_rdoneEn (s : State) (r : RenderWrites) (p : PwmWrites) : (applyClock s r p).rdoneEn = s.rdoneEn := rfl
@[simp] theorem applyClock_errEn (s : State) (r : RenderWrites) (p : PwmWrites) : (applyClock s r p).errEn = s.errEn := rfl
@[simp] theorem applyClock_hPre (s : State) (r : RenderWrites) (p : PwmWrites) : (applyClock s r p).hPre = p.pre := rfl
@[simp] theorem applyClock_hTcnt (s : State) (r : RenderWrites) (p : PwmWrites) : (applyClock s r p).hTcnt = r.tcnt := rfl
@[simp] theorem applyClock_hRlenL (s : State) (r : RenderWrites) (p : PwmWrites) : (applyClock s r p).hRlenL = s.hRlenL := rfl
@[simp] theorem applyClock_hTdivL (s : State) (r : RenderWrites) (p : PwmWrites) : (applyClock s r p).hTdivL = s.hTdivL := rfl
@[simp] theorem applyClock_mem (s : State) (r : RenderWrites) (p : PwmWrites) : (applyClock s r p).mem = s.mem := rfl
@[simp] theorem applyClock_inputs (s : State) (r : RenderWrites) (p : PwmWrites) : (applyClock s r p).inputs = s.inputs := rfl
@[simp] theorem applyClock_resp (s : State) (r : RenderWrites) (p : PwmWrites) : (applyClock s r p).resp = s.resp := rfl

/-! ## offer -/

@[simp] theorem offer_params (s : State) (t : Format × List Byte) : (s.offer t).params = s.params := rfl
@[simp] theorem offer_pwmEn (s : State) (t : Format × List Byte) : (s.offer t).pwmEn = s.pwmEn := rfl
@[simp] theorem offer_fmt (s : State) (t : Format × List Byte) : (s.offer t).fmt = s.fmt := rfl
@[simp] theorem offer_shift (s : State) (t : Format × List Byte) : (s.offer t).shift = s.shift := rfl
@[simp] theorem offer_npairs (s : State) (t : Format × List Byte) : (s.offer t).npairs = s.npairs := rfl
@[simp] theorem offer_dutyStage (s : State) (t : Format × List Byte) : (s.offer t).dutyStage = s.dutyStage := rfl
@[simp] theorem offer_dutyCommit (s : State) (t : Format × List Byte) : (s.offer t).dutyCommit = s.dutyCommit := rfl
@[simp] theorem offer_dutyActive (s : State) (t : Format × List Byte) : (s.offer t).dutyActive = s.dutyActive := rfl
@[simp] theorem offer_pwmRes (s : State) (t : Format × List Byte) : (s.offer t).pwmRes = s.pwmRes := rfl
@[simp] theorem offer_pwmDiv (s : State) (t : Format × List Byte) : (s.offer t).pwmDiv = s.pwmDiv := rfl
@[simp] theorem offer_pwmCnt (s : State) (t : Format × List Byte) : (s.offer t).pwmCnt = s.pwmCnt := rfl
@[simp] theorem offer_tickDiv (s : State) (t : Format × List Byte) : (s.offer t).tickDiv = s.tickDiv := rfl
@[simp] theorem offer_rlen (s : State) (t : Format × List Byte) : (s.offer t).rlen = s.rlen := rfl
@[simp] theorem offer_rpos (s : State) (t : Format × List Byte) : (s.offer t).rpos = s.rpos := rfl
@[simp] theorem offer_rbusy (s : State) (t : Format × List Byte) : (s.offer t).rbusy = s.rbusy := rfl
@[simp] theorem offer_errcode (s : State) (t : Format × List Byte) : (s.offer t).errcode = s.errcode := rfl
@[simp] theorem offer_intRdone (s : State) (t : Format × List Byte) : (s.offer t).intRdone = s.intRdone := rfl
@[simp] theorem offer_intErr (s : State) (t : Format × List Byte) : (s.offer t).intErr = s.intErr := rfl
@[simp] theorem offer_rdoneEn (s : State) (t : Format × List Byte) : (s.offer t).rdoneEn = s.rdoneEn := rfl
@[simp] theorem offer_errEn (s : State) (t : Format × List Byte) : (s.offer t).errEn = s.errEn := rfl
@[simp] theorem offer_hPre (s : State) (t : Format × List Byte) : (s.offer t).hPre = s.hPre := rfl
@[simp] theorem offer_hTcnt (s : State) (t : Format × List Byte) : (s.offer t).hTcnt = s.hTcnt := rfl
@[simp] theorem offer_hRlenL (s : State) (t : Format × List Byte) : (s.offer t).hRlenL = s.hRlenL := rfl
@[simp] theorem offer_hTdivL (s : State) (t : Format × List Byte) : (s.offer t).hTdivL = s.hTdivL := rfl
@[simp] theorem offer_mem (s : State) (t : Format × List Byte) : (s.offer t).mem = s.mem := rfl
@[simp] theorem offer_inputs (s : State) (t : Format × List Byte) : (s.offer t).inputs = .transfer t.1 t.2 :: s.inputs := rfl
@[simp] theorem offer_resp (s : State) (t : Format × List Byte) : (s.offer t).resp = s.resp := rfl

/-! ## receive -/

@[simp] theorem receive_params (s : State) (l : List Input) : (s.receive l).params = s.params := rfl
@[simp] theorem receive_pwmEn (s : State) (l : List Input) : (s.receive l).pwmEn = s.pwmEn := rfl
@[simp] theorem receive_fmt (s : State) (l : List Input) : (s.receive l).fmt = s.fmt := rfl
@[simp] theorem receive_shift (s : State) (l : List Input) : (s.receive l).shift = s.shift := rfl
@[simp] theorem receive_npairs (s : State) (l : List Input) : (s.receive l).npairs = s.npairs := rfl
@[simp] theorem receive_dutyStage (s : State) (l : List Input) : (s.receive l).dutyStage = s.dutyStage := rfl
@[simp] theorem receive_dutyCommit (s : State) (l : List Input) : (s.receive l).dutyCommit = s.dutyCommit := rfl
@[simp] theorem receive_dutyActive (s : State) (l : List Input) : (s.receive l).dutyActive = s.dutyActive := rfl
@[simp] theorem receive_pwmRes (s : State) (l : List Input) : (s.receive l).pwmRes = s.pwmRes := rfl
@[simp] theorem receive_pwmDiv (s : State) (l : List Input) : (s.receive l).pwmDiv = s.pwmDiv := rfl
@[simp] theorem receive_pwmCnt (s : State) (l : List Input) : (s.receive l).pwmCnt = s.pwmCnt := rfl
@[simp] theorem receive_tickDiv (s : State) (l : List Input) : (s.receive l).tickDiv = s.tickDiv := rfl
@[simp] theorem receive_rlen (s : State) (l : List Input) : (s.receive l).rlen = s.rlen := rfl
@[simp] theorem receive_rpos (s : State) (l : List Input) : (s.receive l).rpos = s.rpos := rfl
@[simp] theorem receive_rbusy (s : State) (l : List Input) : (s.receive l).rbusy = s.rbusy := rfl
@[simp] theorem receive_errcode (s : State) (l : List Input) : (s.receive l).errcode = s.errcode := rfl
@[simp] theorem receive_intRdone (s : State) (l : List Input) : (s.receive l).intRdone = s.intRdone := rfl
@[simp] theorem receive_intErr (s : State) (l : List Input) : (s.receive l).intErr = s.intErr := rfl
@[simp] theorem receive_rdoneEn (s : State) (l : List Input) : (s.receive l).rdoneEn = s.rdoneEn := rfl
@[simp] theorem receive_errEn (s : State) (l : List Input) : (s.receive l).errEn = s.errEn := rfl
@[simp] theorem receive_hPre (s : State) (l : List Input) : (s.receive l).hPre = s.hPre := rfl
@[simp] theorem receive_hTcnt (s : State) (l : List Input) : (s.receive l).hTcnt = s.hTcnt := rfl
@[simp] theorem receive_hRlenL (s : State) (l : List Input) : (s.receive l).hRlenL = s.hRlenL := rfl
@[simp] theorem receive_hTdivL (s : State) (l : List Input) : (s.receive l).hTdivL = s.hTdivL := rfl
@[simp] theorem receive_mem (s : State) (l : List Input) : (s.receive l).mem = s.mem := rfl
@[simp] theorem receive_inputs (s : State) (l : List Input) : (s.receive l).inputs = s.inputs ++ l := rfl
@[simp] theorem receive_resp (s : State) (l : List Input) : (s.receive l).resp = s.resp := rfl
@[simp] theorem receive_none (s : State) : s.receive [] = s := by simp [State.receive]

/-! ## setPwmEnable, storeByte, storeBytes -/

@[simp] theorem setPwmEnable_params (b : Bool) (s : State) : (setPwmEnable b s).params = s.params := by
  unfold setPwmEnable; split <;> [rfl; (split <;> rfl)]
@[simp] theorem setPwmEnable_fmt (b : Bool) (s : State) : (setPwmEnable b s).fmt = s.fmt := by
  unfold setPwmEnable; split <;> [rfl; (split <;> rfl)]
@[simp] theorem setPwmEnable_shift (b : Bool) (s : State) : (setPwmEnable b s).shift = s.shift := by
  unfold setPwmEnable; split <;> [rfl; (split <;> rfl)]
@[simp] theorem setPwmEnable_npairs (b : Bool) (s : State) : (setPwmEnable b s).npairs = s.npairs := by
  unfold setPwmEnable; split <;> [rfl; (split <;> rfl)]
@[simp] theorem setPwmEnable_dutyStage (b : Bool) (s : State) : (setPwmEnable b s).dutyStage = s.dutyStage := by
  unfold setPwmEnable; split <;> [rfl; (split <;> rfl)]
@[simp] theorem setPwmEnable_dutyCommit (b : Bool) (s : State) : (setPwmEnable b s).dutyCommit = s.dutyCommit := by
  unfold setPwmEnable; split <;> [rfl; (split <;> rfl)]
@[simp] theorem setPwmEnable_pwmRes (b : Bool) (s : State) : (setPwmEnable b s).pwmRes = s.pwmRes := by
  unfold setPwmEnable; split <;> [rfl; (split <;> rfl)]
@[simp] theorem setPwmEnable_pwmDiv (b : Bool) (s : State) : (setPwmEnable b s).pwmDiv = s.pwmDiv := by
  unfold setPwmEnable; split <;> [rfl; (split <;> rfl)]
@[simp] theorem setPwmEnable_tickDiv (b : Bool) (s : State) : (setPwmEnable b s).tickDiv = s.tickDiv := by
  unfold setPwmEnable; split <;> [rfl; (split <;> rfl)]
@[simp] theorem setPwmEnable_rlen (b : Bool) (s : State) : (setPwmEnable b s).rlen = s.rlen := by
  unfold setPwmEnable; split <;> [rfl; (split <;> rfl)]
@[simp] theorem setPwmEnable_rpos (b : Bool) (s : State) : (setPwmEnable b s).rpos = s.rpos := by
  unfold setPwmEnable; split <;> [rfl; (split <;> rfl)]
@[simp] theorem setPwmEnable_rbusy (b : Bool) (s : State) : (setPwmEnable b s).rbusy = s.rbusy := by
  unfold setPwmEnable; split <;> [rfl; (split <;> rfl)]
@[simp] theorem setPwmEnable_errcode (b : Bool) (s : State) : (setPwmEnable b s).errcode = s.errcode := by
  unfold setPwmEnable; split <;> [rfl; (split <;> rfl)]
@[simp] theorem setPwmEnable_intRdone (b : Bool) (s : State) : (setPwmEnable b s).intRdone = s.intRdone := by
  unfold setPwmEnable; split <;> [rfl; (split <;> rfl)]
@[simp] theorem setPwmEnable_intErr (b : Bool) (s : State) : (setPwmEnable b s).intErr = s.intErr := by
  unfold setPwmEnable; split <;> [rfl; (split <;> rfl)]
@[simp] theorem setPwmEnable_rdoneEn (b : Bool) (s : State) : (setPwmEnable b s).rdoneEn = s.rdoneEn := by
  unfold setPwmEnable; split <;> [rfl; (split <;> rfl)]
@[simp] theorem setPwmEnable_errEn (b : Bool) (s : State) : (setPwmEnable b s).errEn = s.errEn := by
  unfold setPwmEnable; split <;> [rfl; (split <;> rfl)]
@[simp] theorem setPwmEnable_hTcnt (b : Bool) (s : State) : (setPwmEnable b s).hTcnt = s.hTcnt := by
  unfold setPwmEnable; split <;> [rfl; (split <;> rfl)]
@[simp] theorem setPwmEnable_hRlenL (b : Bool) (s : State) : (setPwmEnable b s).hRlenL = s.hRlenL := by
  unfold setPwmEnable; split <;> [rfl; (split <;> rfl)]
@[simp] theorem setPwmEnable_hTdivL (b : Bool) (s : State) : (setPwmEnable b s).hTdivL = s.hTdivL := by
  unfold setPwmEnable; split <;> [rfl; (split <;> rfl)]
@[simp] theorem setPwmEnable_mem (b : Bool) (s : State) : (setPwmEnable b s).mem = s.mem := by
  unfold setPwmEnable; split <;> [rfl; (split <;> rfl)]
@[simp] theorem setPwmEnable_inputs (b : Bool) (s : State) : (setPwmEnable b s).inputs = s.inputs := by
  unfold setPwmEnable; split <;> [rfl; (split <;> rfl)]
@[simp] theorem setPwmEnable_resp (b : Bool) (s : State) : (setPwmEnable b s).resp = s.resp := by
  unfold setPwmEnable; split <;> [rfl; (split <;> rfl)]

/-- The bit written is the bit held (41_duty_sink.md R67). -/
@[simp] theorem setPwmEnable_pwmEn (b : Bool) (s : State) : (setPwmEnable b s).pwmEn = b := by
  unfold setPwmEnable
  cases b <;> cases h : s.pwmEn <;> simp [h]

/-- A store changes the RAM contents and nothing else. -/
theorem storeByte_eq (r : Ram) (i : Nat) (b : Byte) (s : State) :
    storeByte r i b s = { s with mem := (storeByte r i b s).mem } := by
  unfold storeByte; split <;> rfl

/-- A store of several bytes changes the RAM contents and nothing else. -/
theorem storeBytes_eq (r : Ram) (i : Nat) (bs : List Byte) (s : State) :
    storeBytes r i bs s = { s with mem := (storeBytes r i bs s).mem } := by
  induction bs generalizing i s with
  | nil => rfl
  | cons b bs ih =>
    rw [storeBytes, ih, storeByte_eq]

@[simp] theorem storeByte_params (r : Ram) (i : Nat) (b : Byte) (s : State) : (storeByte r i b s).params = s.params := by
  rw [storeByte_eq]
@[simp] theorem storeByte_pwmEn (r : Ram) (i : Nat) (b : Byte) (s : State) : (storeByte r i b s).pwmEn = s.pwmEn := by
  rw [storeByte_eq]
@[simp] theorem storeByte_fmt (r : Ram) (i : Nat) (b : Byte) (s : State) : (storeByte r i b s).fmt = s.fmt := by
  rw [storeByte_eq]
@[simp] theorem storeByte_shift (r : Ram) (i : Nat) (b : Byte) (s : State) : (storeByte r i b s).shift = s.shift := by
  rw [storeByte_eq]
@[simp] theorem storeByte_npairs (r : Ram) (i : Nat) (b : Byte) (s : State) : (storeByte r i b s).npairs = s.npairs := by
  rw [storeByte_eq]
@[simp] theorem storeByte_dutyStage (r : Ram) (i : Nat) (b : Byte) (s : State) : (storeByte r i b s).dutyStage = s.dutyStage := by
  rw [storeByte_eq]
@[simp] theorem storeByte_dutyCommit (r : Ram) (i : Nat) (b : Byte) (s : State) : (storeByte r i b s).dutyCommit = s.dutyCommit := by
  rw [storeByte_eq]
@[simp] theorem storeByte_dutyActive (r : Ram) (i : Nat) (b : Byte) (s : State) : (storeByte r i b s).dutyActive = s.dutyActive := by
  rw [storeByte_eq]
@[simp] theorem storeByte_pwmRes (r : Ram) (i : Nat) (b : Byte) (s : State) : (storeByte r i b s).pwmRes = s.pwmRes := by
  rw [storeByte_eq]
@[simp] theorem storeByte_pwmDiv (r : Ram) (i : Nat) (b : Byte) (s : State) : (storeByte r i b s).pwmDiv = s.pwmDiv := by
  rw [storeByte_eq]
@[simp] theorem storeByte_pwmCnt (r : Ram) (i : Nat) (b : Byte) (s : State) : (storeByte r i b s).pwmCnt = s.pwmCnt := by
  rw [storeByte_eq]
@[simp] theorem storeByte_tickDiv (r : Ram) (i : Nat) (b : Byte) (s : State) : (storeByte r i b s).tickDiv = s.tickDiv := by
  rw [storeByte_eq]
@[simp] theorem storeByte_rlen (r : Ram) (i : Nat) (b : Byte) (s : State) : (storeByte r i b s).rlen = s.rlen := by
  rw [storeByte_eq]
@[simp] theorem storeByte_rpos (r : Ram) (i : Nat) (b : Byte) (s : State) : (storeByte r i b s).rpos = s.rpos := by
  rw [storeByte_eq]
@[simp] theorem storeByte_rbusy (r : Ram) (i : Nat) (b : Byte) (s : State) : (storeByte r i b s).rbusy = s.rbusy := by
  rw [storeByte_eq]
@[simp] theorem storeByte_errcode (r : Ram) (i : Nat) (b : Byte) (s : State) : (storeByte r i b s).errcode = s.errcode := by
  rw [storeByte_eq]
@[simp] theorem storeByte_intRdone (r : Ram) (i : Nat) (b : Byte) (s : State) : (storeByte r i b s).intRdone = s.intRdone := by
  rw [storeByte_eq]
@[simp] theorem storeByte_intErr (r : Ram) (i : Nat) (b : Byte) (s : State) : (storeByte r i b s).intErr = s.intErr := by
  rw [storeByte_eq]
@[simp] theorem storeByte_rdoneEn (r : Ram) (i : Nat) (b : Byte) (s : State) : (storeByte r i b s).rdoneEn = s.rdoneEn := by
  rw [storeByte_eq]
@[simp] theorem storeByte_errEn (r : Ram) (i : Nat) (b : Byte) (s : State) : (storeByte r i b s).errEn = s.errEn := by
  rw [storeByte_eq]
@[simp] theorem storeByte_hPre (r : Ram) (i : Nat) (b : Byte) (s : State) : (storeByte r i b s).hPre = s.hPre := by
  rw [storeByte_eq]
@[simp] theorem storeByte_hTcnt (r : Ram) (i : Nat) (b : Byte) (s : State) : (storeByte r i b s).hTcnt = s.hTcnt := by
  rw [storeByte_eq]
@[simp] theorem storeByte_hRlenL (r : Ram) (i : Nat) (b : Byte) (s : State) : (storeByte r i b s).hRlenL = s.hRlenL := by
  rw [storeByte_eq]
@[simp] theorem storeByte_hTdivL (r : Ram) (i : Nat) (b : Byte) (s : State) : (storeByte r i b s).hTdivL = s.hTdivL := by
  rw [storeByte_eq]
@[simp] theorem storeByte_inputs (r : Ram) (i : Nat) (b : Byte) (s : State) : (storeByte r i b s).inputs = s.inputs := by
  rw [storeByte_eq]
@[simp] theorem storeByte_resp (r : Ram) (i : Nat) (b : Byte) (s : State) : (storeByte r i b s).resp = s.resp := by
  rw [storeByte_eq]
@[simp] theorem storeBytes_params (r : Ram) (i : Nat) (bs : List Byte) (s : State) : (storeBytes r i bs s).params = s.params := by
  rw [storeBytes_eq]
@[simp] theorem storeBytes_pwmEn (r : Ram) (i : Nat) (bs : List Byte) (s : State) : (storeBytes r i bs s).pwmEn = s.pwmEn := by
  rw [storeBytes_eq]
@[simp] theorem storeBytes_fmt (r : Ram) (i : Nat) (bs : List Byte) (s : State) : (storeBytes r i bs s).fmt = s.fmt := by
  rw [storeBytes_eq]
@[simp] theorem storeBytes_shift (r : Ram) (i : Nat) (bs : List Byte) (s : State) : (storeBytes r i bs s).shift = s.shift := by
  rw [storeBytes_eq]
@[simp] theorem storeBytes_npairs (r : Ram) (i : Nat) (bs : List Byte) (s : State) : (storeBytes r i bs s).npairs = s.npairs := by
  rw [storeBytes_eq]
@[simp] theorem storeBytes_dutyStage (r : Ram) (i : Nat) (bs : List Byte) (s : State) : (storeBytes r i bs s).dutyStage = s.dutyStage := by
  rw [storeBytes_eq]
@[simp] theorem storeBytes_dutyCommit (r : Ram) (i : Nat) (bs : List Byte) (s : State) : (storeBytes r i bs s).dutyCommit = s.dutyCommit := by
  rw [storeBytes_eq]
@[simp] theorem storeBytes_dutyActive (r : Ram) (i : Nat) (bs : List Byte) (s : State) : (storeBytes r i bs s).dutyActive = s.dutyActive := by
  rw [storeBytes_eq]
@[simp] theorem storeBytes_pwmRes (r : Ram) (i : Nat) (bs : List Byte) (s : State) : (storeBytes r i bs s).pwmRes = s.pwmRes := by
  rw [storeBytes_eq]
@[simp] theorem storeBytes_pwmDiv (r : Ram) (i : Nat) (bs : List Byte) (s : State) : (storeBytes r i bs s).pwmDiv = s.pwmDiv := by
  rw [storeBytes_eq]
@[simp] theorem storeBytes_pwmCnt (r : Ram) (i : Nat) (bs : List Byte) (s : State) : (storeBytes r i bs s).pwmCnt = s.pwmCnt := by
  rw [storeBytes_eq]
@[simp] theorem storeBytes_tickDiv (r : Ram) (i : Nat) (bs : List Byte) (s : State) : (storeBytes r i bs s).tickDiv = s.tickDiv := by
  rw [storeBytes_eq]
@[simp] theorem storeBytes_rlen (r : Ram) (i : Nat) (bs : List Byte) (s : State) : (storeBytes r i bs s).rlen = s.rlen := by
  rw [storeBytes_eq]
@[simp] theorem storeBytes_rpos (r : Ram) (i : Nat) (bs : List Byte) (s : State) : (storeBytes r i bs s).rpos = s.rpos := by
  rw [storeBytes_eq]
@[simp] theorem storeBytes_rbusy (r : Ram) (i : Nat) (bs : List Byte) (s : State) : (storeBytes r i bs s).rbusy = s.rbusy := by
  rw [storeBytes_eq]
@[simp] theorem storeBytes_errcode (r : Ram) (i : Nat) (bs : List Byte) (s : State) : (storeBytes r i bs s).errcode = s.errcode := by
  rw [storeBytes_eq]
@[simp] theorem storeBytes_intRdone (r : Ram) (i : Nat) (bs : List Byte) (s : State) : (storeBytes r i bs s).intRdone = s.intRdone := by
  rw [storeBytes_eq]
@[simp] theorem storeBytes_intErr (r : Ram) (i : Nat) (bs : List Byte) (s : State) : (storeBytes r i bs s).intErr = s.intErr := by
  rw [storeBytes_eq]
@[simp] theorem storeBytes_rdoneEn (r : Ram) (i : Nat) (bs : List Byte) (s : State) : (storeBytes r i bs s).rdoneEn = s.rdoneEn := by
  rw [storeBytes_eq]
@[simp] theorem storeBytes_errEn (r : Ram) (i : Nat) (bs : List Byte) (s : State) : (storeBytes r i bs s).errEn = s.errEn := by
  rw [storeBytes_eq]
@[simp] theorem storeBytes_hPre (r : Ram) (i : Nat) (bs : List Byte) (s : State) : (storeBytes r i bs s).hPre = s.hPre := by
  rw [storeBytes_eq]
@[simp] theorem storeBytes_hTcnt (r : Ram) (i : Nat) (bs : List Byte) (s : State) : (storeBytes r i bs s).hTcnt = s.hTcnt := by
  rw [storeBytes_eq]
@[simp] theorem storeBytes_hRlenL (r : Ram) (i : Nat) (bs : List Byte) (s : State) : (storeBytes r i bs s).hRlenL = s.hRlenL := by
  rw [storeBytes_eq]
@[simp] theorem storeBytes_hTdivL (r : Ram) (i : Nat) (bs : List Byte) (s : State) : (storeBytes r i bs s).hTdivL = s.hTdivL := by
  rw [storeBytes_eq]
@[simp] theorem storeBytes_inputs (r : Ram) (i : Nat) (bs : List Byte) (s : State) : (storeBytes r i bs s).inputs = s.inputs := by
  rw [storeBytes_eq]
@[simp] theorem storeBytes_resp (r : Ram) (i : Nat) (bs : List Byte) (s : State) : (storeBytes r i bs s).resp = s.resp := by
  rw [storeBytes_eq]

end Sys2Proof.Machine
end

