-- ==== Sys2Proof/Laws/Memory.lean ====
section
/-! SUPPORT. The laws of memory: reading back, the canonical form, which offsets are listed, and what a store does to RAM bytes. -/

namespace Sys2Proof.Machine

/-! ## One byte -/

theorem Memory.read_write_same (m : Memory) (a : Nat) (b : Byte) : (m.write a b).read a = some b := by
  induction m with
  | nil => simp [Memory.write, Memory.read]
  | cons c m ih =>
    obtain ⟨k, v⟩ := c
    simp only [Memory.write]
    split
    · simp [Memory.read]
    · split
      · simp [Memory.read]
      · have : k ≠ a := by omega
        simp [Memory.read, this, ih]

theorem Memory.read_write_other (m : Memory) (a c : Nat) (b : Byte) (h : c ≠ a) : (m.write a b).read c = m.read c := by
  induction m with
  | nil => simp [Memory.write, Memory.read, h.symm]
  | cons x m ih =>
    obtain ⟨k, v⟩ := x
    simp only [Memory.write]
    split
    · simp [Memory.read, h.symm]
    · split
      · subst_vars; simp [Memory.read, h.symm]
      · simp [Memory.read, ih]

theorem Memory.read_write (m : Memory) (a c : Nat) (b : Byte) :
    (m.write a b).read c = if c = a then some b else m.read c := by
  split
  · subst_vars; exact Memory.read_write_same m _ b
  · exact Memory.read_write_other m a c b ‹_›

/-! ## The canonical form -/

/-- The canonical form, entry by entry: the first offset lies below every later one. -/
theorem Memory.wf_cons (c : Host.Cell) (m : Memory) :
    Memory.wf (c :: m) = true ↔ (∀ d ∈ m, c.1 < d.1) ∧ Memory.wf m = true := by
  induction m generalizing c with
  | nil => simp [Memory.wf]
  | cons d m ih =>
    simp only [Memory.wf, Bool.and_eq_true, decide_eq_true_eq, List.mem_cons, forall_eq_or_imp]
    constructor
    · rintro ⟨h1, h2⟩
      exact ⟨⟨h1, fun e he => Nat.lt_trans h1 (((ih d).1 h2).1 e he)⟩, h2⟩
    · rintro ⟨⟨h1, _⟩, h2⟩
      exact ⟨h1, h2⟩

/-- A written memory lists the written cell and cells that were listed before. -/
theorem Memory.mem_write (m : Memory) (a : Nat) (b : Byte) (c : Host.Cell) (h : c ∈ m.write a b) : c = (a, b) ∨ c ∈ m := by
  induction m with
  | nil => simpa [Memory.write] using h
  | cons x m ih =>
    simp only [Memory.write] at h
    split at h
    · simpa using h
    · split at h
      · rcases List.mem_cons.1 h with h | h
        · exact .inl h
        · exact .inr (List.mem_cons_of_mem _ h)
      · rcases List.mem_cons.1 h with h | h
        · exact .inr (h ▸ List.mem_cons_self)
        · exact (ih h).imp_right (List.mem_cons_of_mem _)

/-- Every write keeps the canonical form. -/
theorem Memory.wf_write (m : Memory) (a : Nat) (b : Byte) (h : m.wf = true) : (m.write a b).wf = true := by
  induction m with
  | nil => simp [Memory.write, Memory.wf]
  | cons x m ih =>
    obtain ⟨k, v⟩ := x
    have ⟨h1, h2⟩ := (Memory.wf_cons _ _).1 h
    simp only [Memory.write]
    split
    · refine (Memory.wf_cons _ _).2 ⟨fun d hd => ?_, h⟩
      rcases List.mem_cons.1 hd with rfl | hd
      · assumption
      · exact Nat.lt_trans ‹_› (h1 d hd)
    · split
      · subst_vars; exact (Memory.wf_cons _ _).2 ⟨h1, h2⟩
      · refine (Memory.wf_cons _ _).2 ⟨fun d hd => ?_, ih h2⟩
        rcases Memory.mem_write _ _ _ _ hd with rfl | hd
        · show k < a
          omega
        · exact h1 d hd

/-- In a canonical memory, what reads as a byte is listed. -/
theorem Memory.mem_of_read (m : Memory) (a : Nat) (b : Byte) (h : m.read a = some b) : (a, b) ∈ m := by
  induction m with
  | nil => simp [Memory.read] at h
  | cons x m ih =>
    obtain ⟨k, v⟩ := x
    simp only [Memory.read] at h
    split at h
    · subst_vars; simp_all
    · exact List.mem_cons_of_mem _ (ih h)

/-- Writing the byte an offset already reads as changes nothing in a canonical memory: equal memories are equal lists. -/
theorem Memory.write_read_same (m : Memory) (a : Nat) (b : Byte) (hw : m.wf = true) (h : m.read a = some b) : m.write a b = m := by
  induction m with
  | nil => simp [Memory.read] at h
  | cons x m ih =>
    obtain ⟨k, v⟩ := x
    have ⟨h1, h2⟩ := (Memory.wf_cons _ _).1 hw
    simp only [Memory.read] at h
    simp only [Memory.write]
    split at h
    · subst_vars; simp_all
    · have hk := h1 _ (Memory.mem_of_read _ _ _ h)
      simp only at hk
      have : ¬ a < k := by omega
      have : a ≠ k := by omega
      simp [*]

/-! ## RAM addresses -/

@[simp] theorem Ram.addr_cap (i : Nat) : Ram.cap.addr i = 0x2000 + i := rfl
@[simp] theorem Ram.addr_out (i : Nat) : Ram.out.addr i = 0x4000 + i := rfl
@[simp] theorem Ram.addr_rend (i : Nat) : Ram.rend.addr i = 0x6000 + i := rfl
@[simp] theorem Ram.size_cap (p : Params) : Ram.cap.size p = 8 * p.capPairs := rfl
@[simp] theorem Ram.size_out (p : Params) : Ram.out.size p = p.capPairs := rfl
@[simp] theorem Ram.size_rend (p : Params) : Ram.rend.size p = p.rendLen := rfl

/-- Bytes of one RAM at different indices stand at different offsets. -/
theorem Ram.addr_inj (r : Ram) (i j : Nat) : r.addr i = r.addr j ↔ i = j := by
  unfold Ram.addr; omega

/-- Implemented bytes of different RAMs stand at different offsets (20_memory.md R35). -/
theorem Ram.addr_disjoint (p : Params) (r q : Ram) (i j : Nat) (h : r ≠ q) (hi : i < r.size p) (hj : j < q.size p) :
    r.addr i ≠ q.addr j := by
  have := p.capPairs_legal
  have := p.rendLen_legal
  cases r <;> cases q <;> simp_all <;> omega

/-! ## Stores -/

/-- What a one-byte store leaves at every offset. -/
theorem storeByte_read (r : Ram) (i : Nat) (b : Byte) (s : State) (a : Nat) :
    (storeByte r i b s).mem.read a = if i < r.size s.params ∧ a = r.addr i then some b else s.mem.read a := by
  unfold storeByte
  split
  · simp [Memory.read_write, *]
  · simp [*]

/-- What a store of several bytes leaves at every offset: the stored bytes that are implemented, and every other offset as before. -/
theorem storeBytes_read (r : Ram) (i : Nat) (bs : List Byte) (s : State) (a : Nat) :
    (storeBytes r i bs s).mem.read a =
      if r.addr i ≤ a ∧ a < r.addr i + bs.length ∧ a < r.addr 0 + r.size s.params then bs[a - r.addr i]?
      else s.mem.read a := by
  induction bs generalizing i s with
  | nil =>
    rw [if_neg]
    · rfl
    · simp only [List.length_nil]; omega
  | cons b bs ih =>
    rw [storeBytes, ih, storeByte_params]
    have hs : r.addr (i + 1) = r.addr i + 1 := by unfold Ram.addr; omega
    have hz : r.addr i = r.addr 0 + i := by unfold Ram.addr; omega
    simp only [List.length_cons]
    by_cases h0 : a = r.addr i
    · rw [if_neg (by omega), storeByte_read]
      by_cases hi : i < r.size s.params
      · rw [if_pos ⟨hi, h0⟩, if_pos (by omega)]
        simp [h0]
      · rw [if_neg (by tauto), if_neg (by omega)]
    · by_cases h1 : r.addr (i + 1) ≤ a ∧ a < r.addr (i + 1) + bs.length ∧ a < r.addr 0 + r.size s.params
      · rw [if_pos h1, if_pos (by omega), show a - r.addr i = (a - r.addr (i + 1)) + 1 by omega, List.getElem?_cons_succ]
      · rw [if_neg h1, if_neg (by omega), storeByte_read, if_neg (by tauto)]

/-- The RAM bytes after a store: the stored ones that are implemented, and every other byte of every RAM as before. -/
theorem storeBytes_ramByte_same (r : Ram) (i : Nat) (bs : List Byte) (s : State) (k : Nat) (hk : k < bs.length)
    (hs : i + k < r.size s.params) : (storeBytes r i bs s).ramByte r (i + k) = some bs[k] := by
  unfold State.ramByte
  rw [storeBytes_read, if_pos (by unfold Ram.addr; omega)]
  have : r.addr (i + k) - r.addr i = k := by unfold Ram.addr; omega
  simp [this]

/-- A store leaves every implemented byte of another RAM as it was. -/
theorem storeBytes_ramByte_other (r q : Ram) (i : Nat) (bs : List Byte) (s : State) (j : Nat) (h : r ≠ q)
    (hj : j < q.size s.params) : (storeBytes r i bs s).ramByte q j = s.ramByte q j := by
  unfold State.ramByte
  rw [storeBytes_read]
  apply if_neg
  rintro ⟨h1, -, h3⟩
  have := s.params.capPairs_legal
  have := s.params.rendLen_legal
  cases r <;> cases q <;> simp_all <;> omega

/-- Every store keeps the canonical form and lists implemented bytes only. -/
theorem storeByte_memLegal (r : Ram) (i : Nat) (b : Byte) (s : State) (h : s.memLegal) : (storeByte r i b s).memLegal := by
  obtain ⟨h1, h2⟩ := h
  unfold storeByte
  split
  · refine ⟨Memory.wf_write _ _ _ h1, fun c hc => ?_⟩
    rcases Memory.mem_write _ _ _ _ hc with rfl | hc
    · cases r <;> simp_all [implementedByte, Ram.base, Ram.addr]
    · exact h2 c hc
  · exact ⟨h1, h2⟩

theorem storeBytes_memLegal (r : Ram) (i : Nat) (bs : List Byte) (s : State) (h : s.memLegal) :
    (storeBytes r i bs s).memLegal := by
  induction bs generalizing i s with
  | nil => exact h
  | cons b bs ih => exact ih _ _ (storeByte_memLegal r i b s h)

/-- A store changes the RAM contents and nothing else. -/
theorem storeBytes_frame (r : Ram) (i : Nat) (bs : List Byte) (s : State) :
    storeBytes r i bs s = { s with mem := (storeBytes r i bs s).mem } := by
  induction bs generalizing i s with
  | nil => rfl
  | cons b bs ih =>
    rw [storeBytes, ih]
    unfold storeByte
    split <;> rfl

/-- Storing bytes that are already there changes nothing. -/
theorem storeBytes_same (r : Ram) (i : Nat) (bs : List Byte) (s : State) (hw : s.mem.wf = true)
    (h : ∀ k (hk : k < bs.length), i + k < r.size s.params → s.ramByte r (i + k) = some bs[k]) : storeBytes r i bs s = s := by
  induction bs generalizing i s with
  | nil => rfl
  | cons b bs ih =>
    have h0 : storeByte r i b s = s := by
      unfold storeByte
      split
      · rw [Memory.write_read_same s.mem (r.addr i) b hw (h 0 (by simp) ‹i < _›)]
      · rfl
    rw [storeBytes, h0]
    refine ih _ _ hw fun k hk hs => ?_
    have := h (k + 1) (by simpa using hk) (by omega)
    rw [show i + 1 + k = i + (k + 1) by omega]
    simpa using this

end Sys2Proof.Machine
end

