-- ==== Sys2Proof/Laws/Ops.lean ====
section
/-! SUPPORT. What each shared operation can answer, said once. -/

namespace Sys2Proof.Machine

/-! ## Answers -/

@[simp] theorem complete_next (s t : State) : complete s = .next t ↔ t = s.respond .writeDone := by
  simp [complete, eq_comm]

@[simp] theorem deliver_next (w : Width) (v : Word) (s t : State) : deliver w v s = .next t ↔ t = s.respond (.readData w v) := by
  simp [deliver, eq_comm]

@[simp] theorem raiseBusError_next (dir : Dir) (off : Offset) (w : Width) (s t : State) :
    raiseBusError dir off w s = .next t ↔ t = s.respond (.busError off w dir) := by
  simp [raiseBusError, eq_comm]

@[simp] theorem raiseCmdError_next (e : ErrCode) (s t : State) :
    raiseCmdError e s = .next t ↔ t = (recordCmdError e s).respond .writeDone := by
  simp [raiseCmdError]

/-- A state with an answer differs from the state in the answer only. -/
@[simp] theorem respond_respond (r q : BusResponse) (s : State) : (s.respond r).respond q = s.respond q := rfl

theorem respond_self (s : State) : s.respond s.resp = s := rfl

/-! ## The width and alignment check -/

/-- A legal access runs its row's operation. -/
theorem hostAccess_legal (dir : Dir) (off : Offset) (w : Width) (op : State → Result) (s : State) (h : legalAccess off w = true) :
    hostAccess dir off w op s = op s := by simp [hostAccess, h]

/-- An illegal access is a bus error and nothing else. -/
theorem hostAccess_illegal (dir : Dir) (off : Offset) (w : Width) (op : State → Result) (s : State)
    (h : legalAccess off w = false) : hostAccess dir off w op s = .next (s.respond (.busError off w dir)) := by
  simp [hostAccess, h, raiseBusError]

/-- Everything a host access can answer. -/
theorem hostAccess_next (dir : Dir) (off : Offset) (w : Width) (op : State → Result) (s t : State)
    (h : hostAccess dir off w op s = .next t) :
    (legalAccess off w = true ∧ op s = .next t) ∨ (legalAccess off w = false ∧ t = s.respond (.busError off w dir)) := by
  unfold hostAccess at h
  split at h
  · exact .inl ⟨‹_›, h⟩
  · exact .inr ⟨by simp_all, by simpa using h⟩

/-- Below 0x1000 the only legal width is 4, at a 4-byte aligned offset (20_memory.md R38). -/
theorem legalAccess_register (off : Offset) (w : Width) (h : off.toNat < 0x1000) :
    legalAccess off w = true ↔ w = .b4 ∧ off.toNat % 4 = 0 := by
  simp [legalAccess, h]

/-- From 0x1000 up every width is legal at its own alignment (20_memory.md R39). -/
theorem legalAccess_ram (off : Offset) (w : Width) (h : 0x1000 ≤ off.toNat) :
    legalAccess off w = true ↔ off.toNat % w.bytes = 0 := by
  simp [legalAccess, Nat.not_lt.2 h]

/-! ## Reading RAM -/

/-- The bytes a read returns are the RAM's bytes, 0 beyond the implemented size. -/
theorem readBytes_ok (s : State) (r : Ram) (i n : Nat) (bs : List Byte) (h : readBytes s r i n = .ok bs) :
    bs.length = n ∧
      ∀ k, k < n → if i + k < r.size s.params then s.ramByte r (i + k) = bs[k]? else bs[k]? = some 0#8 := by
  induction n generalizing i bs with
  | zero =>
    simp only [readBytes, Except.ok.injEq] at h
    subst h
    exact ⟨rfl, by omega⟩
  | succ n ih =>
    have key : ∀ (b : Byte), (if i < r.size s.params then s.ramByte r i = some b else b = 0#8) →
        (match readBytes s r (i + 1) n with
          | .ok bs => Except.ok (b :: bs)
          | .error f => .error f) = .ok bs →
        bs.length = n + 1 ∧
          ∀ k, k < n + 1 → if i + k < r.size s.params then s.ramByte r (i + k) = bs[k]? else bs[k]? = some 0#8 := by
      intro b hb h
      split at h
      next bs' hr =>
        simp only [Except.ok.injEq] at h
        subst h
        obtain ⟨h1, h2⟩ := ih _ _ hr
        refine ⟨by simp [h1], fun k hk => ?_⟩
        cases k with
        | zero => simpa using hb
        | succ k =>
          have := h2 k (by omega)
          rw [show i + (k + 1) = i + 1 + k by omega]
          simpa using this
      next => simp at h
    simp only [readBytes] at h
    by_cases hi : i < r.size s.params
    · rw [if_pos hi] at h
      cases hb : s.ramByte r i with
      | none => simp [hb] at h
      | some b => rw [hb] at h; exact key b (by simp [hi, hb]) h
    · rw [if_neg hi] at h
      exact key 0#8 (by simp [hi]) h

/-- A read succeeds when every implemented byte it covers has been written. -/
theorem readBytes_of_marked (s : State) (r : Ram) (i n : Nat)
    (h : ∀ k, k < n → i + k < r.size s.params → s.ramMark r (i + k) = true) : ∃ bs, readBytes s r i n = .ok bs := by
  induction n generalizing i with
  | zero => exact ⟨[], rfl⟩
  | succ n ih =>
    obtain ⟨bs, hbs⟩ := ih (i + 1) fun k hk hs => by
      have := h (k + 1) (by omega) (by omega)
      rwa [show i + 1 + k = i + (k + 1) by omega]
    simp only [readBytes, hbs]
    split
    · have := h 0 (by omega) (by simpa)
      obtain ⟨b, hb⟩ := Option.isSome_iff_exists.1 this
      simp only [Nat.add_zero] at hb
      simp [hb]
    · simp

/-- A read raises Poison exactly at the first implemented byte that has not been written (20_memory.md R40). -/
theorem readBytes_error (s : State) (r : Ram) (i n : Nat) (f : Fault) (h : readBytes s r i n = .error f) :
    ∃ k, k < n ∧ f = .poison r (i + k) ∧ i + k < r.size s.params ∧ s.ramMark r (i + k) = false ∧
      ∀ j, j < k → i + j < r.size s.params → s.ramMark r (i + j) = true := by
  induction n generalizing i with
  | zero => simp [readBytes] at h
  | succ n ih =>
    have key : (i < r.size s.params → s.ramMark r i = true) → readBytes s r (i + 1) n = .error f →
        ∃ k, k < n + 1 ∧ f = .poison r (i + k) ∧ i + k < r.size s.params ∧ s.ramMark r (i + k) = false ∧
          ∀ j, j < k → i + j < r.size s.params → s.ramMark r (i + j) = true := fun hm h => by
      obtain ⟨k, h1, h2, h3, h4, h5⟩ := ih _ h
      rw [show i + 1 + k = i + (k + 1) by omega] at h2 h3 h4
      refine ⟨k + 1, by omega, h2, h3, h4, fun j hj hs => ?_⟩
      cases j with
      | zero => exact hm (by simpa using hs)
      | succ j => rw [show i + (j + 1) = i + 1 + j by omega] at hs ⊢; exact h5 j (by omega) hs
    simp only [readBytes] at h
    split at h
    next hi =>
      cases hb : s.ramByte r i with
      | none =>
        simp only [hb, Except.error.injEq] at h
        exact ⟨0, by omega, h ▸ rfl, by simpa, by simp [State.ramMark, hb], by omega⟩
      | some b =>
        simp only [hb] at h
        split at h
        · simp at h
        next hr => exact key (fun _ => by simp [State.ramMark, hb]) (hr.trans (by simpa using h))
    next hi =>
      split at h
      · simp at h
      next hr => exact key (fun hi' => absurd hi' hi) (hr.trans (by simpa using h))

/-- A read over an unwritten byte raises Poison at the first such byte. -/
theorem readBytes_of_unmarked (s : State) (r : Ram) (i n k : Nat) (hk : k < n) (hs : i + k < r.size s.params)
    (hm : s.ramMark r (i + k) = false) (hj : ∀ j, j < k → i + j < r.size s.params → s.ramMark r (i + j) = true) :
    readBytes s r i n = .error (.poison r (i + k)) := by
  cases h : readBytes s r i n with
  | ok bs =>
    have ⟨h1, h2⟩ := readBytes_ok _ _ _ _ _ h
    have h3 := h2 k hk
    rw [if_pos hs] at h3
    simp [State.ramMark, h3] at hm
    omega
  | error f =>
    obtain ⟨k', h1, rfl, h3, h4, h5⟩ := readBytes_error _ _ _ _ _ h
    rcases Nat.lt_trichotomy k k' with hlt | rfl | hlt
    · simp [h5 k hlt hs] at hm
    · rfl
    · simp [hj k' hlt h3] at h4

/-- What a RAM read answers. -/
theorem loadRam_next (r : Ram) (i : Nat) (w : Width) (s t : State) (h : loadRam r i w s = .next t) :
    ∃ bs, readBytes s r i w.bytes = .ok bs ∧ t = s.respond (.readData w (leWord bs)) := by
  unfold loadRam at h
  split at h
  next bs hb => exact ⟨bs, hb, by simpa using h⟩
  next => simp at h

/-! ## Byte order -/

@[simp] theorem wordBytes_length (w : Width) (d : Word) : (wordBytes w d).length = w.bytes := by cases w <;> rfl

/-- Byte lane `k` of a word is its bits 8k+7..8k (20_memory.md R37). -/
theorem wordBytes_get (w : Width) (d : Word) (k : Nat) (h : k < w.bytes) : (wordBytes w d)[k]? = some (d.extractLsb' (8 * k) 8) := by
  cases w <;> simp only [Width.bytes] at h
  · obtain rfl : k = 0 := by omega
    rfl
  · rcases (by omega : k = 0 ∨ k = 1) with rfl | rfl <;> rfl
  · rcases (by omega : k = 0 ∨ k = 1 ∨ k = 2 ∨ k = 3) with rfl | rfl | rfl | rfl <;> rfl

/-- Byte lane `k` of an assembled word is byte `k`, and 0 beyond the bytes (20_memory.md R37). -/
theorem leWord_lane (bs : List Byte) (k : Nat) (h : k < 4) : (leWord bs).extractLsb' (8 * k) 8 = bs[k]?.getD 0#8 := by
  induction bs generalizing k with
  | nil => simp [leWord]
  | cons b bs ih =>
    cases k with
    | zero =>
      ext i hi
      have h1 : i < 32 := by omega
      simp [leWord, hi, h1]
    | succ k =>
      have := ih k (by omega)
      rw [List.getElem?_cons_succ, ← this]
      ext i hi
      have h1 : ¬ 8 * (k + 1) + i < 8 := by omega
      have h2 : 8 * (k + 1) + i - 8 = 8 * k + i := by omega
      have h3 : 8 * (k + 1) + i < 32 := by omega
      have h4 : b.getLsbD (8 * (k + 1) + i) = false := BitVec.getLsbD_of_ge _ _ (by omega)
      simp [leWord, h1, h2, h3, h4, ← BitVec.getLsbD_eq_getElem]

end Sys2Proof.Machine
end

