-- ==== Sys2Proof/Laws/Exec.lean ====
section
/-! SUPPORT. Everything a host access can do, said once: the effects of exec with their guards (`exec_effect`) and its answer on the bus
(`exec_answer`). Proofs over all instructions cite these and unfold no meaning. -/

namespace Sys2Proof.Machine

/-! ## Offsets of the RAM rows -/

theorem Ram.offset_cap (i : BitVec 13) : Ram.cap.offset i.toNat = 1#3 ++ i := by
  apply BitVec.eq_of_toNat_eq
  have := i.isLt
  rw [BitVec.toNat_append, ← Nat.shiftLeft_add_eq_or_of_lt this]
  simp [Ram.offset]
  omega

theorem Ram.offset_out (i : BitVec 10) : Ram.out.offset i.toNat = 0x10#6 ++ i := by
  apply BitVec.eq_of_toNat_eq
  have := i.isLt
  rw [BitVec.toNat_append, ← Nat.shiftLeft_add_eq_or_of_lt this]
  simp [Ram.offset]
  omega

theorem Ram.offset_rend (i : BitVec 12) : Ram.rend.offset i.toNat = 0x6#4 ++ i := by
  apply BitVec.eq_of_toNat_eq
  have := i.isLt
  rw [BitVec.toNat_append, ← Nat.shiftLeft_add_eq_or_of_lt this]
  simp [Ram.offset]
  omega

/-! ## Effects -/

/-- The rows that change nothing of the block: reads, ignored writes, NOP. -/
def silentRow : Instr → Bool
  | .rdId _ => true
  | .rdCtrl _ => true
  | .rdCfg _ => true
  | .rdNpairs _ => true
  | .rdCmd _ => true
  | .rdDutyStage _ => true
  | .rdDutyCommit _ => true
  | .rdDutyActive _ => true
  | .rdPwmCfg _ => true
  | .rdPwmCnt _ => true
  | .rdTickDiv _ => true
  | .rdRlen _ => true
  | .rdRpos _ => true
  | .rdStatus _ => true
  | .rdIntStatus _ => true
  | .rdIntEn _ => true
  | .wrId _ _ => true
  | .wrCtrl _ _ => false
  | .wrCfg _ _ => false
  | .wrNpairs _ _ => false
  | .wrCmd _ _ => false
  | .wrDutyStage _ _ => false
  | .wrDutyCommit _ _ => true
  | .wrDutyActive _ _ => true
  | .wrPwmCfg _ _ => false
  | .wrPwmCnt _ _ => true
  | .wrTickDiv _ _ => false
  | .wrRlen _ _ => false
  | .wrRpos _ _ => true
  | .wrStatus _ _ => true
  | .wrIntStatus _ _ => false
  | .wrIntEn _ _ => false
  | .cmdNop _ => true
  | .cmdTransform _ => false
  | .cmdCommit _ => false
  | .cmdRender _ => false
  | .cmdRsvd4 _ _ => false
  | .cmdRsvd8 _ _ => false
  | .rdCap _ _ => true
  | .wrCap _ _ _ => false
  | .rdOut _ _ => true
  | .wrOut _ _ _ => true
  | .rdRend _ _ => true
  | .wrRend _ _ _ => false
  | .rsvdRd _ _ => true
  | .rsvdWr _ _ _ => true

/-- Whether an access passes the checks of 20_memory.md R38 and R39. -/
def accessLegal (i : Instr) : Bool := legalAccess i.access.off i.access.width

/-- What a host access makes of a state, its answer aside. -/
inductive HostEffect (s : State) : Instr → State → Prop where
  | silent (i : Instr) (h : silentRow i = true ∨ accessLegal i = false) : HostEffect s i s
  | ctrl (d : Word) : HostEffect s (.wrCtrl .b4 d) (setPwmEnable (bitOf d 0) s)
  | cfg (d : Word) : HostEffect s (.wrCfg .b4 d) { s with fmt := fmtField d, shift := shiftField d }
  | npairs (d : Word) : HostEffect s (.wrNpairs .b4 d) { s with npairs := npairsField d }
  | stage (d : Word) (h : s.rbusy = false) : HostEffect s (.wrDutyStage .b4 d) { s with dutyStage := levelField d }
  | stageBusy (d : Word) (h : s.rbusy = true) : HostEffect s (.wrDutyStage .b4 d) (recordCmdError .busy s)
  | pwmCfg (d : Word) (h : s.pwmEn = false) :
      HostEffect s (.wrPwmCfg .b4 d) { s with pwmRes := resField d, pwmDiv := divField d }
  | pwmCfgLocked (d : Word) (h : s.pwmEn = true) : HostEffect s (.wrPwmCfg .b4 d) (recordCmdError .locked s)
  | tickDiv (d : Word) : HostEffect s (.wrTickDiv .b4 d) { s with tickDiv := tickDivField d }
  | rlen (d : Word) : HostEffect s (.wrRlen .b4 d) { s with rlen := rlenField d }
  | intStatus (d : Word) : HostEffect s (.wrIntStatus .b4 d) (acknowledge (bitOf d 0) (bitOf d 1) s)
  | intEn (d : Word) : HostEffect s (.wrIntEn .b4 d) { s with rdoneEn := bitOf d 0, errEn := bitOf d 1 }
  | transform (rsv : BitVec 28) (bs : List Byte) (h : pairsInRange s = true)
      (hb : readBytes s .cap 0 (captureBytes s) = .ok bs) :
      HostEffect s (.cmdTransform rsv) (storeBytes .out 0 (mixAll s bs) s)
  | transformRange (rsv : BitVec 28) (h : pairsInRange s = false) : HostEffect s (.cmdTransform rsv) (recordCmdError .range s)
  | commit (rsv : BitVec 28) (h : s.rbusy = false) : HostEffect s (.cmdCommit rsv) { s with dutyCommit := s.dutyStage }
  | commitBusy (rsv : BitVec 28) (h : s.rbusy = true) : HostEffect s (.cmdCommit rsv) (recordCmdError .busy s)
  | render (rsv : BitVec 28) (h : s.rbusy = false) (hr : lengthInRange s = true) : HostEffect s (.cmdRender rsv) (startRender s)
  | renderBusy (rsv : BitVec 28) (h : s.rbusy = true) : HostEffect s (.cmdRender rsv) (recordCmdError .busy s)
  | renderRange (rsv : BitVec 28) (h : s.rbusy = false) (hr : lengthInRange s = false) :
      HostEffect s (.cmdRender rsv) (recordCmdError .range s)
  | rsvd4 (opc : BitVec 2) (rsv : BitVec 28) : HostEffect s (.cmdRsvd4 opc rsv) (recordCmdError .badOp s)
  | rsvd8 (opc : BitVec 3) (rsv : BitVec 28) : HostEffect s (.cmdRsvd8 opc rsv) (recordCmdError .badOp s)
  | cap (w : Width) (i : BitVec 13) (d : Word) : HostEffect s (.wrCap w i d) (storeBytes .cap i.toNat (wordBytes w d) s)
  | rend (w : Width) (i : BitVec 12) (d : Word) : HostEffect s (.wrRend w i d) (storeBytes .rend i.toNat (wordBytes w d) s)
  | command (d : Word) (u : State) (h : HostEffect s (decodeCmdWord d) u) : HostEffect s (.wrCmd .b4 d) u

/-- A write of CMD runs the command its data word decodes to (R96). -/
theorem runCommand_eq (d : Word) (s : State) : runCommand d s = exec (decodeCmdWord d) s := by
  have key : ∀ (o : BitVec 4) (rsv : BitVec 28) (p : BitVec 2) (q : BitVec 3), p = o.extractLsb' 0 2 → q = o.extractLsb' 0 3 →
      (if o = 0x0#4 then execCmdNop rsv s
        else if o = 0x1#4 then execCmdTransform rsv s
        else if o = 0x2#4 then execCmdCommit rsv s
        else if o = 0x3#4 then execCmdRender rsv s
        else if o.toNat < 8 then execCmdRsvd4 p rsv s
        else execCmdRsvd8 q rsv s) =
      exec (if o &&& 0xF#4 = 0x0#4 then .cmdNop rsv
        else if o &&& 0xF#4 = 0x1#4 then .cmdTransform rsv
        else if o &&& 0xF#4 = 0x2#4 then .cmdCommit rsv
        else if o &&& 0xF#4 = 0x3#4 then .cmdRender rsv
        else if o &&& 0xC#4 = 0x4#4 then .cmdRsvd4 (o.extractLsb' 0 2) rsv
        else .cmdRsvd8 (o.extractLsb' 0 3) rsv) s := by
    intro o rsv p q hp hq
    subst hp hq
    have hF : o &&& 0xF#4 = o := by revert o; decide
    have hC : (o &&& 0xC#4 = 0x4#4) ↔ (4 ≤ o.toNat ∧ o.toNat < 8) := by revert o; decide
    rw [hF]
    simp only [hC]
    have h0 : o = 0x0#4 ↔ o.toNat = 0 := by revert o; decide
    have h1 : o = 0x1#4 ↔ o.toNat = 1 := by revert o; decide
    have h2 : o = 0x2#4 ↔ o.toNat = 2 := by revert o; decide
    have h3 : o = 0x3#4 ↔ o.toNat = 3 := by revert o; decide
    simp only [h0, h1, h2, h3]
    split_ifs <;> rfl
  exact key (opcField d) (d.extractLsb' 4 28) _ _ (by ext i hi; simp [opcField]) (by ext i hi; simp [opcField])

/-- A 4-byte write of CMD is the command its data word decodes to (43_register_access.md R96). -/
theorem exec_wrCmd (d : Word) (s : State) : exec (.wrCmd .b4 d) s = exec (decodeCmdWord d) s := by
  rw [← runCommand_eq]
  rfl

/-- Commands are never a write of CMD in the MMIO format again. -/
theorem decodeCmdWord_access (d : Word) :
    (decodeCmdWord d).access.dir = .write ∧ (decodeCmdWord d).access.off = 0x0010#16 ∧ (decodeCmdWord d).access.width = .b4 := by
  unfold decodeCmdWord
  dsimp only
  split_ifs <;> exact ⟨rfl, rfl, rfl⟩

/-! ## The inversion of exec -/

/-- A read of a register, taken apart. -/
theorem readRegister_next (off : Offset) (w : Width) (v : Word) (s t : State) (h : readRegister off w v s = .next t) :
    ∃ r, t = s.respond r := by
  rcases hostAccess_next _ _ _ _ _ _ h with ⟨-, h⟩ | ⟨-, h⟩
  · exact ⟨_, (deliver_next _ _ _ _).1 h⟩
  · exact ⟨_, h⟩

/-- An ignored write, taken apart. -/
theorem ignoreWrite_next (off : Offset) (w : Width) (s t : State) (h : ignoreWrite off w s = .next t) : ∃ r, t = s.respond r := by
  rcases hostAccess_next _ _ _ _ _ _ h with ⟨-, h⟩ | ⟨-, h⟩
  · exact ⟨_, (complete_next _ _).1 h⟩
  · exact ⟨_, h⟩

/-- A RAM read, taken apart. -/
theorem hostAccess_load_next (off : Offset) (w : Width) (r : Ram) (i : Nat) (s t : State)
    (h : hostAccess .read off w (loadRam r i w) s = .next t) : ∃ r, t = s.respond r := by
  rcases hostAccess_next _ _ _ _ _ _ h with ⟨-, h⟩ | ⟨-, h⟩
  · obtain ⟨bs, -, h⟩ := loadRam_next _ _ _ _ _ h
    exact ⟨_, h⟩
  · exact ⟨_, h⟩

/-- A legal access of a register is 4 bytes wide (20_memory.md R38). -/
theorem width_of_legal (off : Offset) (w : Width) (h : off.toNat < 0x1000) (hl : legalAccess off w = true) : w = .b4 :=
  ((legalAccess_register off w h).1 hl).1

/-- A command, taken apart. -/
theorem exec_command_effect (d : Word) (s t : State) (h : exec (decodeCmdWord d) s = .next t) :
    ∃ u r, HostEffect s (decodeCmdWord d) u ∧ t = u.respond r := by
  have fin : ∀ (i : Instr) (u : State), HostEffect s i u → complete u = .next t → ∃ u r, HostEffect s i u ∧ t = u.respond r :=
    fun i u hu ht => ⟨u, _, hu, (complete_next _ _).1 ht⟩
  revert h
  unfold decodeCmdWord
  dsimp only
  split_ifs <;> intro h
  · exact fin _ _ (.silent _ (.inl rfl)) h
  · simp only [exec, execCmdTransform, transform] at h
    split at h
    · split at h
      · simp at h
      · exact fin _ _ (.transform _ _ ‹_› ‹_›) h
    · exact fin _ _ (.transformRange _ (by simp_all)) h
  · simp only [exec, execCmdCommit] at h
    split at h
    · exact fin _ _ (.commitBusy _ ‹_›) h
    · exact fin _ _ (.commit _ (by simp_all)) h
  · simp only [exec, execCmdRender] at h
    split at h
    · exact fin _ _ (.renderBusy _ ‹_›) h
    · split at h
      · exact fin _ _ (.render _ (by simp_all) ‹_›) h
      · exact fin _ _ (.renderRange _ (by simp_all) (by simp_all)) h
  · exact fin _ _ (.rsvd4 _ _) h
  · exact fin _ _ (.rsvd8 _ _) h

/-- Everything a host access can do: if exec answers a next state, it is one of the effects with an answer on the bus. -/
theorem exec_effect (i : Instr) (s t : State) (h : exec i s = .next t) : ∃ u r, HostEffect s i u ∧ t = u.respond r := by
  have quiet : silentRow i = true → (∃ r, t = s.respond r) → ∃ u r, HostEffect s i u ∧ t = u.respond r :=
    fun hi ⟨r, hr⟩ => ⟨s, r, .silent i (.inl hi), hr⟩
  have fin : ∀ (u : State), HostEffect s i u → complete u = .next t → ∃ u r, HostEffect s i u ∧ t = u.respond r :=
    fun u hu ht => ⟨u, _, hu, (complete_next _ _).1 ht⟩
  have access : ∀ (dir : Dir) (off : Offset) (w : Width) (op : State → Result), hostAccess dir off w op s = .next t →
      legalAccess off w = accessLegal i →
      (legalAccess off w = true → op s = .next t → ∃ u r, HostEffect s i u ∧ t = u.respond r) →
      ∃ u r, HostEffect s i u ∧ t = u.respond r := fun dir off w op h hl hop => by
    rcases hostAccess_next _ _ _ _ _ _ h with ⟨hy, h⟩ | ⟨hn, h⟩
    · exact hop hy h
    · exact ⟨s, _, .silent i (.inr (hl ▸ hn)), h⟩
  cases i with
  | rdId w => exact quiet rfl (readRegister_next _ _ _ _ _ h)
  | rdCtrl w => exact quiet rfl (readRegister_next _ _ _ _ _ h)
  | rdCfg w => exact quiet rfl (readRegister_next _ _ _ _ _ h)
  | rdNpairs w => exact quiet rfl (readRegister_next _ _ _ _ _ h)
  | rdCmd w => exact quiet rfl (readRegister_next _ _ _ _ _ h)
  | rdDutyStage w => exact quiet rfl (readRegister_next _ _ _ _ _ h)
  | rdDutyCommit w => exact quiet rfl (readRegister_next _ _ _ _ _ h)
  | rdDutyActive w => exact quiet rfl (readRegister_next _ _ _ _ _ h)
  | rdPwmCfg w => exact quiet rfl (readRegister_next _ _ _ _ _ h)
  | rdPwmCnt w => exact quiet rfl (readRegister_next _ _ _ _ _ h)
  | rdTickDiv w => exact quiet rfl (readRegister_next _ _ _ _ _ h)
  | rdRlen w => exact quiet rfl (readRegister_next _ _ _ _ _ h)
  | rdRpos w => exact quiet rfl (readRegister_next _ _ _ _ _ h)
  | rdStatus w => exact quiet rfl (readRegister_next _ _ _ _ _ h)
  | rdIntStatus w => exact quiet rfl (readRegister_next _ _ _ _ _ h)
  | rdIntEn w => exact quiet rfl (readRegister_next _ _ _ _ _ h)
  | wrId w d => exact quiet rfl (ignoreWrite_next _ _ _ _ h)
  | wrCtrl w d =>
    simp only [exec, execWrCtrl, writeRegister] at h
    refine access _ _ _ _ h rfl fun hl ho => ?_
    obtain rfl := width_of_legal _ _ (by decide) hl
    exact fin _ (.ctrl d) ho
  | wrCfg w d =>
    simp only [exec, execWrCfg, writeRegister] at h
    refine access _ _ _ _ h rfl fun hl ho => ?_
    obtain rfl := width_of_legal _ _ (by decide) hl
    exact fin _ (.cfg d) ho
  | wrNpairs w d =>
    simp only [exec, execWrNpairs, writeRegister] at h
    refine access _ _ _ _ h rfl fun hl ho => ?_
    obtain rfl := width_of_legal _ _ (by decide) hl
    exact fin _ (.npairs d) ho
  | wrCmd w d =>
    simp only [exec, execWrCmd, writeRegister] at h
    refine access _ _ _ _ h rfl fun hl ho => ?_
    obtain rfl := width_of_legal _ _ (by decide) hl
    rw [runCommand_eq] at ho
    obtain ⟨u, r, hu, ht⟩ := exec_command_effect d s t ho
    exact ⟨u, r, .command d u hu, ht⟩
  | wrDutyStage w d =>
    simp only [exec, execWrDutyStage, writeRegister] at h
    refine access _ _ _ _ h rfl fun hl ho => ?_
    obtain rfl := width_of_legal _ _ (by decide) hl
    split at ho
    · exact fin _ (.stageBusy d ‹_›) ho
    · exact fin _ (.stage d (by simp_all)) ho
  | wrDutyCommit w d => exact quiet rfl (ignoreWrite_next _ _ _ _ h)
  | wrDutyActive w d => exact quiet rfl (ignoreWrite_next _ _ _ _ h)
  | wrPwmCfg w d =>
    simp only [exec, execWrPwmCfg, writeRegister] at h
    refine access _ _ _ _ h rfl fun hl ho => ?_
    obtain rfl := width_of_legal _ _ (by decide) hl
    split at ho
    · exact fin _ (.pwmCfgLocked d ‹_›) ho
    · exact fin _ (.pwmCfg d (by simp_all)) ho
  | wrPwmCnt w d => exact quiet rfl (ignoreWrite_next _ _ _ _ h)
  | wrTickDiv w d =>
    simp only [exec, execWrTickDiv, writeRegister] at h
    refine access _ _ _ _ h rfl fun hl ho => ?_
    obtain rfl := width_of_legal _ _ (by decide) hl
    exact fin _ (.tickDiv d) ho
  | wrRlen w d =>
    simp only [exec, execWrRlen, writeRegister] at h
    refine access _ _ _ _ h rfl fun hl ho => ?_
    obtain rfl := width_of_legal _ _ (by decide) hl
    exact fin _ (.rlen d) ho
  | wrRpos w d => exact quiet rfl (ignoreWrite_next _ _ _ _ h)
  | wrStatus w d => exact quiet rfl (ignoreWrite_next _ _ _ _ h)
  | wrIntStatus w d =>
    simp only [exec, execWrIntStatus, writeRegister] at h
    refine access _ _ _ _ h rfl fun hl ho => ?_
    obtain rfl := width_of_legal _ _ (by decide) hl
    exact fin _ (.intStatus d) ho
  | wrIntEn w d =>
    simp only [exec, execWrIntEn, writeRegister] at h
    refine access _ _ _ _ h rfl fun hl ho => ?_
    obtain rfl := width_of_legal _ _ (by decide) hl
    exact fin _ (.intEn d) ho
  | cmdNop rsv => exact fin _ (.silent _ (.inl rfl)) h
  | cmdTransform rsv =>
    simp only [exec, execCmdTransform, transform] at h
    split at h
    · split at h
      · simp at h
      · exact fin _ (.transform rsv _ ‹_› ‹_›) h
    · exact fin _ (.transformRange rsv (by simp_all)) h
  | cmdCommit rsv =>
    simp only [exec, execCmdCommit] at h
    split at h
    · exact fin _ (.commitBusy rsv ‹_›) h
    · exact fin _ (.commit rsv (by simp_all)) h
  | cmdRender rsv =>
    simp only [exec, execCmdRender] at h
    split at h
    · exact fin _ (.renderBusy rsv ‹_›) h
    · split at h
      · exact fin _ (.render rsv (by simp_all) ‹_›) h
      · exact fin _ (.renderRange rsv (by simp_all) (by simp_all)) h
  | cmdRsvd4 opc rsv => exact fin _ (.rsvd4 opc rsv) h
  | cmdRsvd8 opc rsv => exact fin _ (.rsvd8 opc rsv) h
  | rdCap w k => exact quiet rfl (hostAccess_load_next _ _ _ _ _ _ h)
  | wrCap w k d =>
    exact access _ _ _ _ h (by simp [accessLegal, Instr.access, Ram.offset_cap]) fun _ h => fin _ (.cap w k d) h
  | rdOut w k => exact quiet rfl (hostAccess_load_next _ _ _ _ _ _ h)
  | wrOut w k d => exact quiet rfl (ignoreWrite_next _ _ _ _ h)
  | rdRend w k => exact quiet rfl (hostAccess_load_next _ _ _ _ _ _ h)
  | wrRend w k d =>
    exact access _ _ _ _ h (by simp [accessLegal, Instr.access, Ram.offset_rend]) fun _ h => fin _ (.rend w k d) h
  | rsvdRd w off => exact quiet rfl (readRegister_next off w 0#32 s t h)
  | rsvdWr w off d => exact quiet rfl (ignoreWrite_next _ _ _ _ h)

/-- No host access changes a parameter or an input still to come. -/
theorem HostEffect.keeps (s : State) (i : Instr) (u : State) (h : HostEffect s i u) : u.params = s.params ∧ u.inputs = s.inputs := by
  induction h with
  | ctrl d => simp
  | command d u h ih => exact ih
  | transform => simp
  | cap => simp
  | rend => simp
  | _ => exact ⟨rfl, rfl⟩

/-- The same of `exec`. -/
theorem exec_keeps (i : Instr) (s t : State) (h : exec i s = .next t) : t.params = s.params ∧ t.inputs = s.inputs := by
  obtain ⟨u, r, he, rfl⟩ := exec_effect _ _ _ h
  exact he.keeps

end Sys2Proof.Machine
end

