-- ==== Sys2Proof/Laws/Clock.lean ====
section
/-! SUPPORT. Everything a clock step and a step of the machine can do, said once. -/

namespace Sys2Proof.Machine

/-! ## The PWM part (41_duty_sink.md R68) -/

theorem pwmPart_off (s : State) (h : s.pwmEn = false) : pwmPart s = { cnt := s.pwmCnt, pre := s.hPre, active := s.dutyActive } := by
  simp [pwmPart, h]

theorem pwmPart_prescale (s : State) (h : s.pwmEn = true) (hp : s.hPre.toNat + 1 ≠ s.pwmDiv.toNat) :
    pwmPart s = { cnt := s.pwmCnt, pre := s.hPre + 1#16, active := s.dutyActive } := by
  simp [pwmPart, prescalerFull, h, hp]

theorem pwmPart_count (s : State) (h : s.pwmEn = true) (hp : s.hPre.toNat + 1 = s.pwmDiv.toNat)
    (hc : s.pwmCnt.toNat ≠ 2 ^ s.pwmRes.toNat - 1) :
    pwmPart s = { cnt := s.pwmCnt + 1#15, pre := 0#16, active := s.dutyActive } := by
  simp [pwmPart, prescalerFull, lastCount, h, hp, hc]

theorem pwmPart_refresh (s : State) (h : s.pwmEn = true) (hp : s.hPre.toNat + 1 = s.pwmDiv.toNat)
    (hc : s.pwmCnt.toNat = 2 ^ s.pwmRes.toNat - 1) :
    pwmPart s = { cnt := 0#15, pre := 0#16, active := s.dutyCommit } := by
  simp [pwmPart, prescalerFull, lastCount, h, hp, hc]

/-- A refresh boundary, in the terms of R68. -/
theorem refreshBoundary_iff (s : State) :
    refreshBoundary s = true ↔ s.pwmEn = true ∧ s.hPre.toNat + 1 = s.pwmDiv.toNat ∧ s.pwmCnt.toNat = 2 ^ s.pwmRes.toNat - 1 := by
  simp only [refreshBoundary, prescalerFull, Bool.and_eq_true, decide_eq_true_eq, and_assoc]
  rfl

/-- The PWM part takes the committed level at a refresh boundary and nowhere else. -/
theorem pwmPart_active (s : State) : (pwmPart s).active = if refreshBoundary s then s.dutyCommit else s.dutyActive := by
  unfold pwmPart refreshBoundary
  split <;> [(split <;> [(split <;> simp_all); simp_all]); simp_all]

/-! ## The render part (42_render.md R73) -/

theorem renderPart_idle (s : State) (h : s.rbusy = false) : renderPart s = .ok (renderHold s) := by
  simp [renderPart, h]

theorem renderPart_wait (s : State) (h : s.rbusy = true) (ht : s.hTcnt ≠ 0#24) :
    renderPart s = .ok { renderHold s with tcnt := s.hTcnt - 1#24 } := by
  simp [renderPart, h, ht]

theorem renderPart_done (s : State) (h : s.rbusy = true) (ht : s.hTcnt = 0#24) (hp : s.rpos = s.hRlenL) :
    renderPart s = .ok { renderHold s with rbusy := false, rdone := true } := by
  simp [renderPart, h, ht, hp]

theorem renderPart_tick (s : State) (b : Byte) (h : s.rbusy = true) (ht : s.hTcnt = 0#24) (hp : s.rpos ≠ s.hRlenL)
    (hb : s.ramByte .rend s.rpos.toNat = some b) :
    renderPart s =
      .ok { renderHold s with stage := b, commit := b, rpos := s.rpos + 1#13, tcnt := s.hTdivL - 1#24 } := by
  simp [renderPart, h, ht, hp, hb]

theorem renderPart_poison (s : State) (h : s.rbusy = true) (ht : s.hTcnt = 0#24) (hp : s.rpos ≠ s.hRlenL)
    (hb : s.ramByte .rend s.rpos.toNat = none) : renderPart s = .error (.poison .rend s.rpos.toNat) := by
  simp [renderPart, h, ht, hp, hb]

/-- Everything the render part can write. -/
theorem renderPart_cases (s : State) (r : RenderWrites) (h : renderPart s = .ok r) :
    (s.rbusy = false ∧ r = renderHold s) ∨
    (s.rbusy = true ∧ s.hTcnt ≠ 0#24 ∧ r = { renderHold s with tcnt := s.hTcnt - 1#24 }) ∨
    (s.rbusy = true ∧ s.hTcnt = 0#24 ∧ s.rpos = s.hRlenL ∧ r = { renderHold s with rbusy := false, rdone := true }) ∨
    (∃ b, s.rbusy = true ∧ s.hTcnt = 0#24 ∧ s.rpos ≠ s.hRlenL ∧ s.ramByte .rend s.rpos.toNat = some b ∧
      r = { renderHold s with stage := b, commit := b, rpos := s.rpos + 1#13, tcnt := s.hTdivL - 1#24 }) := by
  cases hb : s.rbusy with
  | false => rw [renderPart_idle s hb] at h; simp_all
  | true =>
    by_cases ht : s.hTcnt = 0#24
    · by_cases hp : s.rpos = s.hRlenL
      · rw [renderPart_done s hb ht hp] at h; simp_all
      · cases hm : s.ramByte .rend s.rpos.toNat with
        | none => rw [renderPart_poison s hb ht hp hm] at h; simp at h
        | some b =>
          rw [renderPart_tick s b hb ht hp hm] at h
          exact .inr (.inr (.inr ⟨b, rfl, ht, hp, rfl, by simpa using h.symm⟩))
    · rw [renderPart_wait s hb ht] at h
      exact .inr (.inl ⟨rfl, ht, by simpa using h.symm⟩)

/-- A clock step writes both parts' results, each computed from the state before the edge (10_state.md R10). -/
theorem clockStep_next (s t : State) :
    clockStep s = .next t ↔ ∃ r, renderPart s = .ok r ∧ t = applyClock s r (pwmPart s) := by
  unfold clockStep
  cases h : renderPart s <;> simp [eq_comm]

/-! ## The step -/

/-- Everything a step of the machine can do. -/
theorem step_cases (s t : State) (h : step s = .next t) :
    (clockTurn s = true ∧ clockStep { s with inputs := s.inputs.tail } = .next t) ∨
    (∃ rest, s.inputs = .reset :: rest ∧ t = { State.resetWith s.params with inputs := rest }) ∨
    (∃ i, clockTurn s = false ∧ exec i { s with inputs := s.inputs.tail } = .next t) ∨
    (∃ addr dir w d, s.inputs.head? = some (.hostCycle addr dir w d) ∧ windowOffset s.params addr = none ∧
      t = { s with inputs := s.inputs.tail }) := by
  unfold step at h
  split at h
  next hi =>
    have : { s with inputs := s.inputs.tail } = s := by cases s; simp_all
    exact .inl ⟨by simp [clockTurn, hi], by rw [this]; exact h⟩
  next a rest hi =>
    cases a with
    | clock => exact .inl ⟨by simp [clockTurn, hi], by simpa [hi, runInput] using h⟩
    | reset => exact .inr (.inl ⟨rest, hi, by simpa [runInput] using h.symm⟩)
    | transfer f bytes =>
      simp only [runInput, runTransfer] at h
      split at h
      next i _ => exact .inr (.inr (.inl ⟨i, by simp [clockTurn, hi], by simpa [hi] using h⟩))
      next => simp at h
    | hostCycle addr dir w d =>
      simp only [runInput, runHostCycle] at h
      split at h
      next off _ => exact .inr (.inr (.inl ⟨_, by simp [clockTurn, hi], by simpa [hi] using h⟩))
      next hw => exact .inr (.inr (.inr ⟨addr, dir, w, d, by simp [hi], hw, by simpa [hi] using h.symm⟩))

/-- No agent's step changes an input still to come. -/
theorem runInput_inputs (a : Input) (s t : State) (h : runInput a s = .next t) : t.inputs = s.inputs := by
  cases a with
  | clock =>
    obtain ⟨r, -, rfl⟩ := (clockStep_next s t).1 h
    exact applyClock_inputs _ _ _
  | reset =>
    simp only [runInput, Host.Outcome.next.injEq] at h
    rw [← h]
  | transfer f bytes =>
    simp only [runInput, runTransfer] at h
    split at h
    next i _ => exact (exec_keeps i s t h).2
    next => simp at h
  | hostCycle addr dir w d =>
    simp only [runInput, runHostCycle] at h
    split at h
    next => exact (exec_keeps _ s t h).2
    next =>
      simp only [Host.Outcome.next.injEq] at h
      rw [h]

/-- With nothing pending, a step after one input has arrived is that agent's step. -/
theorem step_receive_one (a : Input) (s : State) (h : s.inputs = []) : step (s.receive [a]) = runInput a s := by
  have : ({ s with inputs := [] } : State) = s := by cases s; simp_all
  simp [step, State.receive, h, this]

/-- `n + m` clock steps are `n` and then `m`. -/
theorem clockSteps_add (n m : Nat) (s t : State) (h : clockSteps n s = .next t) : clockSteps (n + m) s = clockSteps m t := by
  induction n generalizing s with
  | zero =>
    simp only [clockSteps, Host.Outcome.next.injEq] at h
    rw [h, Nat.zero_add]
  | succ n ih =>
    rw [show n + 1 + m = (n + m) + 1 by omega]
    simp only [clockSteps] at h ⊢
    split at h
    next u hu => exact ih u h
    next => simp at h
    next => simp at h

/-- One more clock step. -/
theorem clockSteps_succ (n : Nat) (s t : State) (h : clockSteps n s = .next t) : clockSteps (n + 1) s = clockStep t := by
  rw [clockSteps_add n 1 s t h]
  simp only [clockSteps]
  cases clockStep t <;> rfl

/-- With no render running every number of clock steps completes. -/
theorem clockSteps_idle (n : Nat) (s : State) (h : s.rbusy = false) : ∃ t, clockSteps n s = .next t := by
  induction n generalizing s with
  | zero => exact ⟨s, rfl⟩
  | succ n ih =>
    have hc : clockStep s = .next (applyClock s (renderHold s) (pwmPart s)) := (clockStep_next _ _).2 ⟨_, renderPart_idle s h, rfl⟩
    simp only [clockSteps, hc]
    exact ih _ h

end Sys2Proof.Machine
end

