-- ==== Sys2Proof/Laws/Decode.lean ====
section
/-! SUPPORT. The opcode table: no two specific rows match one descriptor, and what each mask tests. -/

namespace Sys2Proof

/-- Two rows match no common descriptor when they differ on a bit that both fix. -/
def MmioRow.disjoint (r q : MmioRow) : Bool := (r.pattern ^^^ q.pattern) &&& r.mask &&& q.mask != 0#17

/-- No two specific rows of the table overlap, so "the most specific row" of 30_encoding.md R48 is the one that matches. -/
theorem specificRows_disjoint : specificRows.Pairwise (fun r q => r.disjoint q = true) := by decide

/-- Every row's pattern lies inside its mask. -/
theorem specificRows_pattern_in_mask : ∀ r ∈ specificRows, r.pattern &&& r.mask = r.pattern := by decide

/-- Disjoint rows match no common descriptor. -/
theorem MmioRow.not_both (r q : MmioRow) (bod : Bod) (h : r.disjoint q = true) (hr : r.hits bod = true) : q.hits bod = false := by
  simp only [MmioRow.disjoint, bne_iff_ne, ne_eq] at h
  simp only [MmioRow.hits, beq_iff_eq] at hr
  simp only [MmioRow.hits, beq_eq_false_iff_ne, ne_eq]
  intro hq
  apply h
  rw [← hr, ← hq]
  ext i hi
  simp only [BitVec.getElem_and, BitVec.getElem_xor, BitVec.getElem_zero]
  cases bod[i] <;> cases r.mask[i] <;> cases q.mask[i] <;> rfl

/-- `bod` as a number. -/
theorem mkBod_toNat (dir : Dir) (off : Offset) :
    (mkBod dir off).toNat = (match dir with | .read => 0 | .write => 0x10000) + off.toNat := by
  have := off.isLt
  have key : ∀ d : BitVec 1, (d ++ off : BitVec (1 + 16)).toNat = d.toNat * 0x10000 + off.toNat := fun d => by
    rw [BitVec.toNat_append, ← Nat.shiftLeft_add_eq_or_of_lt this, Nat.shiftLeft_eq]
  cases dir
  · exact (key 0#1).trans (by simp)
  · exact (key 1#1).trans (by simp)

/-- What an exact row tests. -/
theorem exactMask_eq (b p : Bod) : (b &&& 0x1FFFF#17 = p) ↔ b = p := by
  have : b &&& 0x1FFFF#17 = b := by
    have h : (0x1FFFF#17) = BitVec.allOnes 17 := by decide
    rw [h, BitVec.and_allOnes]
  rw [this]

/-- A mask of the top bits keeps exactly the quotient by its power of two. -/
theorem topMask_toNat (b : Bod) (k : Nat) (h : k ≤ 17) :
    (b &&& (BitVec.allOnes 17 <<< k)).toNat = b.toNat / 2 ^ k * 2 ^ k := by
  have : b &&& (BitVec.allOnes 17 <<< k) = (b >>> k) <<< k := by
    ext i hi
    by_cases hk : i < k
    · simp [hk]
    · have : k + (i - k) = i := by omega
      have ho : (BitVec.allOnes 17)[i - k] = true := BitVec.getElem_allOnes ..
      rw [BitVec.getElem_and, BitVec.getElem_shiftLeft, BitVec.getElem_shiftLeft]
      rw [ho]
      simp [hk, this, BitVec.getLsbD_eq_getElem hi]
  rw [this]
  have hb := b.isLt
  have : b.toNat / 2 ^ k * 2 ^ k ≤ b.toNat := Nat.div_mul_le_self _ _
  simp only [BitVec.toNat_shiftLeft, BitVec.toNat_ushiftRight, Nat.shiftRight_eq_div_pow, Nat.shiftLeft_eq]
  exact Nat.mod_eq_of_lt (by omega)

/-- What a CAP_RAM row tests. -/
theorem capMask_eq (b p : Bod) : (b &&& 0x1E000#17 = p) ↔ b.toNat / 0x2000 * 0x2000 = p.toNat := by
  rw [← BitVec.toNat_inj, show (0x1E000#17) = BitVec.allOnes 17 <<< 13 by decide, topMask_toNat _ _ (by omega)]
  norm_num

/-- What an OUT_RAM row tests. -/
theorem outMask_eq (b p : Bod) : (b &&& 0x1FC00#17 = p) ↔ b.toNat / 0x400 * 0x400 = p.toNat := by
  rw [← BitVec.toNat_inj, show (0x1FC00#17) = BitVec.allOnes 17 <<< 10 by decide, topMask_toNat _ _ (by omega)]
  norm_num

/-- What a REND_RAM row tests. -/
theorem rendMask_eq (b p : Bod) : (b &&& 0x1F000#17 = p) ↔ b.toNat / 0x1000 * 0x1000 = p.toNat := by
  rw [← BitVec.toNat_inj, show (0x1F000#17) = BitVec.allOnes 17 <<< 12 by decide, topMask_toNat _ _ (by omega)]
  norm_num

/-- The lanes of a well-formed write's data are the data. -/
theorem lanes_of_fits (w : Width) (d : Word) (h : w.fits d = true) : w.lanes d = d := by
  simp only [Width.fits, decide_eq_true_eq] at h
  cases w <;> simp only [Width.lanes, Width.bytes] at h ⊢
  · apply BitVec.eq_of_toNat_eq
    simp
    omega
  · apply BitVec.eq_of_toNat_eq
    simp
    omega

/-! ## Which row an access selects -/

/-- Overlap is symmetric. -/
theorem MmioRow.disjoint_comm (r q : MmioRow) : r.disjoint q = q.disjoint r := by
  unfold MmioRow.disjoint
  rw [BitVec.xor_comm, BitVec.and_assoc, BitVec.and_comm r.mask, ← BitVec.and_assoc]

/-- In a list of rows that do not overlap, a row that matches is the one found. -/
theorem find_of_hit (rows : List MmioRow) (hp : rows.Pairwise (fun r q => r.disjoint q = true)) (bod : Bod) (r : MmioRow)
    (hr : r ∈ rows) (h : r.hits bod = true) : rows.find? (fun q => q.hits bod) = some r := by
  induction rows with
  | nil => simp at hr
  | cons a rows ih =>
    obtain ⟨h1, h2⟩ := List.pairwise_cons.1 hp
    rcases List.mem_cons.1 hr with rfl | hr
    · simp [h]
    · have := MmioRow.not_both r a bod ((r.disjoint_comm a).trans (h1 r hr)) h
      simp [this, ih h2 hr]

/-- An access selects the row it matches. -/
theorem decodeAccess_of_hit (dir : Dir) (off : Offset) (w : Width) (d : Word) (r : MmioRow) (hr : r ∈ specificRows)
    (h : r.hits (mkBod dir off) = true) : decodeAccess dir off w d = r.build w off (w.lanes d) := by
  simp only [decodeAccess, find_of_hit _ specificRows_disjoint _ r hr h]

/-- An access that no specific row matches selects the fallback row of its direction. -/
theorem decodeAccess_of_no_hit (dir : Dir) (off : Offset) (w : Width) (d : Word)
    (h : ∀ r ∈ specificRows, r.hits (mkBod dir off) = false) : decodeAccess dir off w d = fallbackRow dir w off (w.lanes d) := by
  have : specificRows.find? (fun r => r.hits (mkBod dir off)) = none := by
    rw [List.find?_eq_none]
    intro r hr
    simp [h r hr]
  simp only [decodeAccess, this]

/-- What a row of each mask tests of a descriptor. -/
theorem MmioRow.hits_iff (r : MmioRow) (bod : Bod) (k : Nat) (hk : k ≤ 17) (hm : r.mask = BitVec.allOnes 17 <<< k) :
    r.hits bod = true ↔ bod.toNat / 2 ^ k * 2 ^ k = r.pattern.toNat := by
  simp only [MmioRow.hits, beq_iff_eq, hm]
  rw [← BitVec.toNat_inj, topMask_toNat _ _ hk]

/-- The registers' offsets, or the base of a RAM window and the number of its index bits. -/
abbrev MmioRow.region (r : MmioRow) (k : Nat) : Prop :=
  k = 0 ∧ r.pattern.toNat % 0x10000 < 0x40 ∧ r.pattern.toNat % 4 = 0 ∨ k = 13 ∧ r.pattern.toNat % 0x10000 = 0x2000 ∨
    k = 10 ∧ r.pattern.toNat % 0x10000 = 0x4000 ∨ k = 12 ∧ r.pattern.toNat % 0x10000 = 0x6000

/-- Every specific row is a register's or a RAM window's. -/
theorem specificRows_regions :
    ∀ r ∈ specificRows, ∃ k, k ≤ 17 ∧ r.mask = BitVec.allOnes 17 <<< k ∧ r.region k := by
  have key : ∀ r ∈ specificRows,
      [0, 13, 10, 12].any (fun k => decide (r.mask = BitVec.allOnes 17 <<< k) && decide (r.region k)) = true := by decide
  intro r hr
  have := key r hr
  simp only [List.any_eq_true, Bool.and_eq_true, decide_eq_true_eq] at this
  obtain ⟨k, hk, hm, h⟩ := this
  exact ⟨k, by simp at hk; omega, hm, h⟩

/-- No specific row matches a reserved offset. -/
theorem no_hit_of_reserved (dir : Dir) (off : Offset) (h : reservedOffset off = true) :
    ∀ r ∈ specificRows, r.hits (mkBod dir off) = false := by
  intro r hr
  obtain ⟨k, hk, hm, hc⟩ := specificRows_regions r hr
  rw [Bool.eq_false_iff]
  intro hh
  rw [r.hits_iff _ k hk hm, mkBod_toNat] at hh
  have := off.isLt
  simp only [reservedOffset, Bool.or_eq_true, Bool.and_eq_true, decide_eq_true_eq] at h
  rcases hc with ⟨rfl, hc, hc'⟩ | ⟨rfl, hc⟩ | ⟨rfl, hc⟩ | ⟨rfl, hc⟩ <;>
    simp only [Nat.reducePow] at hh <;> cases dir <;> simp only at hh <;> omega

/-- A reserved offset selects the fallback row. -/
theorem decodeAccess_reserved (dir : Dir) (off : Offset) (w : Width) (d : Word) (h : reservedOffset off = true) :
    decodeAccess dir off w d = fallbackRow dir w off (w.lanes d) := decodeAccess_of_no_hit dir off w d (no_hit_of_reserved dir off h)

/-- The rows of CAP_RAM's window. -/
theorem decodeAccess_cap (dir : Dir) (off : Offset) (w : Width) (d : Word) (h : 0x2000 ≤ off.toNat) (h' : off.toNat < 0x4000) :
    decodeAccess dir off w d =
      match dir with
      | .read => .rdCap w (off.setWidth 13)
      | .write => .wrCap w (off.setWidth 13) (w.lanes d) := by
  cases dir
  · refine decodeAccess_of_hit _ _ _ _
      ⟨0x1E000#17, 0x02000#17, fun w off _ => .rdCap w (off.setWidth 13)⟩
      (by simp [specificRows, ramRows]) ?_
    rw [MmioRow.hits_iff _ _ 13 (by omega) (by decide), mkBod_toNat]
    simp; omega
  · refine decodeAccess_of_hit _ _ _ _
      ⟨0x1E000#17, 0x12000#17, fun w off d => .wrCap w (off.setWidth 13) d⟩
      (by simp [specificRows, ramRows]) ?_
    rw [MmioRow.hits_iff _ _ 13 (by omega) (by decide), mkBod_toNat]
    simp; omega
/-- The rows of OUT_RAM's window. -/
theorem decodeAccess_out (dir : Dir) (off : Offset) (w : Width) (d : Word) (h : 0x4000 ≤ off.toNat) (h' : off.toNat < 0x4400) :
    decodeAccess dir off w d =
      match dir with
      | .read => .rdOut w (off.setWidth 10)
      | .write => .wrOut w (off.setWidth 10) (w.lanes d) := by
  cases dir
  · refine decodeAccess_of_hit _ _ _ _
      ⟨0x1FC00#17, 0x04000#17, fun w off _ => .rdOut w (off.setWidth 10)⟩
      (by simp [specificRows, ramRows]) ?_
    rw [MmioRow.hits_iff _ _ 10 (by omega) (by decide), mkBod_toNat]
    simp; omega
  · refine decodeAccess_of_hit _ _ _ _
      ⟨0x1FC00#17, 0x14000#17, fun w off d => .wrOut w (off.setWidth 10) d⟩
      (by simp [specificRows, ramRows]) ?_
    rw [MmioRow.hits_iff _ _ 10 (by omega) (by decide), mkBod_toNat]
    simp; omega
/-- The rows of REND_RAM's window. -/
theorem decodeAccess_rend (dir : Dir) (off : Offset) (w : Width) (d : Word) (h : 0x6000 ≤ off.toNat) (h' : off.toNat < 0x7000) :
    decodeAccess dir off w d =
      match dir with
      | .read => .rdRend w (off.setWidth 12)
      | .write => .wrRend w (off.setWidth 12) (w.lanes d) := by
  cases dir
  · refine decodeAccess_of_hit _ _ _ _
      ⟨0x1F000#17, 0x06000#17, fun w off _ => .rdRend w (off.setWidth 12)⟩
      (by simp [specificRows, ramRows]) ?_
    rw [MmioRow.hits_iff _ _ 12 (by omega) (by decide), mkBod_toNat]
    simp; omega
  · refine decodeAccess_of_hit _ _ _ _
      ⟨0x1F000#17, 0x16000#17, fun w off d => .wrRend w (off.setWidth 12) d⟩
      (by simp [specificRows, ramRows]) ?_
    rw [MmioRow.hits_iff _ _ 12 (by omega) (by decide), mkBod_toNat]
    simp; omega
end Sys2Proof
end

