-- ==== Sys2Proof/Laws/Transform.lean ====
section
/-! SUPPORT. The laws of the downmix/rescale family: which bytes make which sample, the per-pair function on integers, and everything a
TRANSFORM can answer. -/

namespace Sys2Proof.Machine

/-! ## Capture samples (30_encoding.md R51) -/

/-- An S16 block of `4 * n` bytes is `n` pairs, pair `j` from bytes `4j .. 4j+3`. -/
theorem pairs16_get (bs : List Byte) (n : Nat) (h : bs.length = 4 * n) :
    (pairs16 bs).length = n ∧
      ∀ j, j < n → (pairs16 bs)[j]? =
        some (sample16 (bs[4 * j]?.getD 0#8) (bs[4 * j + 1]?.getD 0#8), sample16 (bs[4 * j + 2]?.getD 0#8) (bs[4 * j + 3]?.getD 0#8)) := by
  induction n generalizing bs with
  | zero =>
    obtain rfl := List.length_eq_zero_iff.1 (h.trans (by rfl))
    exact ⟨rfl, by omega⟩
  | succ n ih =>
    match bs, h with
    | b0 :: b1 :: b2 :: b3 :: rest, h =>
      obtain ⟨h1, h2⟩ := ih rest (by simp only [List.length_cons] at h; omega)
      refine ⟨by simp [pairs16, h1], fun j hj => ?_⟩
      cases j with
      | zero => rfl
      | succ j =>
        have := h2 j (by omega)
        rw [pairs16, List.getElem?_cons_succ, this]
        rfl
    | [], h => simp at h
    | [_], h => simp at h; omega
    | [_, _], h => simp at h; omega
    | [_, _, _], h => simp at h; omega

/-- An S32 block of `8 * n` bytes is `n` pairs, pair `j` from bytes `8j .. 8j+7`. -/
theorem pairs32_get (bs : List Byte) (n : Nat) (h : bs.length = 8 * n) :
    (pairs32 bs).length = n ∧
      ∀ j, j < n → (pairs32 bs)[j]? =
        some (sample32 (bs[8 * j]?.getD 0#8) (bs[8 * j + 1]?.getD 0#8) (bs[8 * j + 2]?.getD 0#8) (bs[8 * j + 3]?.getD 0#8),
          sample32 (bs[8 * j + 4]?.getD 0#8) (bs[8 * j + 5]?.getD 0#8) (bs[8 * j + 6]?.getD 0#8) (bs[8 * j + 7]?.getD 0#8)) := by
  induction n generalizing bs with
  | zero =>
    obtain rfl := List.length_eq_zero_iff.1 (h.trans (by rfl))
    exact ⟨rfl, by omega⟩
  | succ n ih =>
    match bs, h with
    | b0 :: b1 :: b2 :: b3 :: b4 :: b5 :: b6 :: b7 :: rest, h =>
      obtain ⟨h1, h2⟩ := ih rest (by simp only [List.length_cons] at h; omega)
      refine ⟨by simp [pairs32, h1], fun j hj => ?_⟩
      cases j with
      | zero => rfl
      | succ j =>
        have := h2 j (by omega)
        rw [pairs32, List.getElem?_cons_succ, this]
        rfl
    | [], h => simp at h
    | [_], h => simp at h; omega
    | [_, _], h => simp at h; omega
    | [_, _, _], h => simp at h; omega
    | [_, _, _, _], h => simp at h; omega
    | [_, _, _, _, _], h => simp at h; omega
    | [_, _, _, _, _, _], h => simp at h; omega
    | [_, _, _, _, _, _, _], h => simp at h; omega

/-- A capture block of `n` pairs makes `n` levels. -/
theorem mixAll_length (s : State) (bs : List Byte) (n : Nat) (h : bs.length = s.fmt.pairBytes * n) : (mixAll s bs).length = n := by
  unfold mixAll samplePairs
  rw [List.length_map]
  cases hf : s.fmt <;> rw [hf] at h
  · exact (pairs16_get bs n h).1
  · exact (pairs32_get bs n h).1

/-! ## The per-pair function (40_transform.md R57) -/

/-- The clamp keeps the level in a byte, so narrowing loses nothing. -/
theorem mixValue_range (a b : Int) (s : Nat) : 0 ≤ mixValue a b s ∧ mixValue a b s ≤ 255 := by
  unfold mixValue clamp
  split_ifs <;> omega

/-- The level as an integer. -/
theorem mix_toInt (a b : Int) (s : Nat) : ((mix a b s).toNat : Int) = mixValue a b s := by
  have := mixValue_range a b s
  unfold mix
  rw [BitVec.toNat_ofInt]
  omega

/-! ## The command (40_transform.md R59) -/

theorem pairsInRange_iff (s : State) : pairsInRange s = true ↔ 1 ≤ s.npairs.toNat ∧ s.npairs.toNat ≤ s.params.capPairs := by
  simp only [pairsInRange, Bool.and_eq_true, decide_eq_true_eq]
  omega

/-- A TRANSFORM in range reads implemented capture bytes only. -/
theorem captureBytes_le (s : State) (h : pairsInRange s = true) : captureBytes s ≤ Ram.cap.size s.params := by
  have := ((pairsInRange_iff s).1 h).2
  unfold captureBytes
  cases s.fmt <;> simp only [SampleFormat.pairBytes, Ram.size_cap] <;> omega

/-- A TRANSFORM in range over written capture bytes completes. -/
theorem transform_ready (s : State) (hr : pairsInRange s = true) (h : ∀ k, k < captureBytes s → s.ramMark .cap k = true) :
    ∃ bs, readBytes s .cap 0 (captureBytes s) = .ok bs ∧ transform s = complete (storeBytes .out 0 (mixAll s bs) s) := by
  obtain ⟨bs, hbs⟩ := readBytes_of_marked s .cap 0 (captureBytes s) fun k hk _ => by rw [Nat.zero_add]; exact h k hk
  exact ⟨bs, hbs, by simp [transform, hr, hbs]⟩

/-- A TRANSFORM in range meets Poison at the first unwritten capture byte, before any write. -/
theorem transform_poison (s : State) (hr : pairsInRange s = true) (k : Nat) (hk : k < captureBytes s) (hm : s.ramMark .cap k = false)
    (hj : ∀ j, j < k → s.ramMark .cap j = true) : transform s = .fault (.poison .cap k) := by
  have := readBytes_of_unmarked s .cap 0 (captureBytes s) k hk (by have := captureBytes_le s hr; omega)
    (by rwa [Nat.zero_add]) fun j h _ => by rw [Nat.zero_add]; exact hj j h
  rw [Nat.zero_add] at this
  simp [transform, hr, this]

end Sys2Proof.Machine
end

