-- ==== Sys2Proof/Laws/PerInstr.lean ====
section
/-! SUPPORT. A statement about every instruction as syntax, one lemma per constructor: the encoder's record has its format's length. -/

namespace Sys2Proof.Laws.RecordLength

/-- An MMIO record is seven bytes, a CMD record four (log entry 4). -/
def Statement (i : Instr) : Prop :=
  (encode i).2.length = match (encode i).1 with
    | .mmio => 7
    | .cmd => 4

theorem rdId (w : Width) : Statement (.rdId w) := rfl
theorem rdCtrl (w : Width) : Statement (.rdCtrl w) := rfl
theorem rdCfg (w : Width) : Statement (.rdCfg w) := rfl
theorem rdNpairs (w : Width) : Statement (.rdNpairs w) := rfl
theorem rdCmd (w : Width) : Statement (.rdCmd w) := rfl
theorem rdDutyStage (w : Width) : Statement (.rdDutyStage w) := rfl
theorem rdDutyCommit (w : Width) : Statement (.rdDutyCommit w) := rfl
theorem rdDutyActive (w : Width) : Statement (.rdDutyActive w) := rfl
theorem rdPwmCfg (w : Width) : Statement (.rdPwmCfg w) := rfl
theorem rdPwmCnt (w : Width) : Statement (.rdPwmCnt w) := rfl
theorem rdTickDiv (w : Width) : Statement (.rdTickDiv w) := rfl
theorem rdRlen (w : Width) : Statement (.rdRlen w) := rfl
theorem rdRpos (w : Width) : Statement (.rdRpos w) := rfl
theorem rdStatus (w : Width) : Statement (.rdStatus w) := rfl
theorem rdIntStatus (w : Width) : Statement (.rdIntStatus w) := rfl
theorem rdIntEn (w : Width) : Statement (.rdIntEn w) := rfl
theorem wrId (w : Width) (d : Word) : Statement (.wrId w d) := rfl
theorem wrCtrl (w : Width) (d : Word) : Statement (.wrCtrl w d) := rfl
theorem wrCfg (w : Width) (d : Word) : Statement (.wrCfg w d) := rfl
theorem wrNpairs (w : Width) (d : Word) : Statement (.wrNpairs w d) := rfl
theorem wrCmd (w : Width) (d : Word) : Statement (.wrCmd w d) := rfl
theorem wrDutyStage (w : Width) (d : Word) : Statement (.wrDutyStage w d) := rfl
theorem wrDutyCommit (w : Width) (d : Word) : Statement (.wrDutyCommit w d) := rfl
theorem wrDutyActive (w : Width) (d : Word) : Statement (.wrDutyActive w d) := rfl
theorem wrPwmCfg (w : Width) (d : Word) : Statement (.wrPwmCfg w d) := rfl
theorem wrPwmCnt (w : Width) (d : Word) : Statement (.wrPwmCnt w d) := rfl
theorem wrTickDiv (w : Width) (d : Word) : Statement (.wrTickDiv w d) := rfl
theorem wrRlen (w : Width) (d : Word) : Statement (.wrRlen w d) := rfl
theorem wrRpos (w : Width) (d : Word) : Statement (.wrRpos w d) := rfl
theorem wrStatus (w : Width) (d : Word) : Statement (.wrStatus w d) := rfl
theorem wrIntStatus (w : Width) (d : Word) : Statement (.wrIntStatus w d) := rfl
theorem wrIntEn (w : Width) (d : Word) : Statement (.wrIntEn w d) := rfl
theorem cmdNop (rsv : BitVec 28) : Statement (.cmdNop rsv) := rfl
theorem cmdTransform (rsv : BitVec 28) : Statement (.cmdTransform rsv) := rfl
theorem cmdCommit (rsv : BitVec 28) : Statement (.cmdCommit rsv) := rfl
theorem cmdRender (rsv : BitVec 28) : Statement (.cmdRender rsv) := rfl
theorem cmdRsvd4 (opc : BitVec 2) (rsv : BitVec 28) : Statement (.cmdRsvd4 opc rsv) := rfl
theorem cmdRsvd8 (opc : BitVec 3) (rsv : BitVec 28) : Statement (.cmdRsvd8 opc rsv) := rfl
theorem rdCap (w : Width) (i : BitVec 13) : Statement (.rdCap w i) := rfl
theorem wrCap (w : Width) (i : BitVec 13) (d : Word) : Statement (.wrCap w i d) := rfl
theorem rdOut (w : Width) (i : BitVec 10) : Statement (.rdOut w i) := rfl
theorem wrOut (w : Width) (i : BitVec 10) (d : Word) : Statement (.wrOut w i d) := rfl
theorem rdRend (w : Width) (i : BitVec 12) : Statement (.rdRend w i) := rfl
theorem wrRend (w : Width) (i : BitVec 12) (d : Word) : Statement (.wrRend w i d) := rfl
theorem rsvdRd (w : Width) (off : Offset) : Statement (.rsvdRd w off) := rfl
theorem rsvdWr (w : Width) (off : Offset) (d : Word) : Statement (.rsvdWr w off d) := rfl

end Sys2Proof.Laws.RecordLength
end

