-- ==== Sys2Proof/Tests/Slice0.lean ====
section
/-! SUPPORT. The model's own tests: well-formedness, decoding of words written out from spec/30_encoding.md and spec/opcode_table.json, single
steps with the results of spec/95_test_vectors.md, and a witness for the hypotheses of every statement of
Certificates/Slice0/Obligations.lean. -/

namespace Sys2Proof.Tests

open Sys2Proof Sys2Proof.Machine

/-! ## Well-formedness -/

/-- A write whose data is wider than its width is refused, for every write. -/
theorem test_wf_data_width :
    [Instr.wrId .b1 0x100#32, .wrCtrl .b2 0x10000#32, .wrCfg .b1 0x100#32, .wrNpairs .b2 0x10000#32, .wrCmd .b1 0x100#32,
      .wrDutyStage .b1 0x100#32, .wrDutyCommit .b2 0x10000#32, .wrDutyActive .b1 0x100#32, .wrPwmCfg .b2 0x10000#32,
      .wrPwmCnt .b1 0x100#32, .wrTickDiv .b2 0x10000#32, .wrRlen .b1 0x100#32, .wrRpos .b2 0x10000#32, .wrStatus .b1 0x100#32,
      .wrIntStatus .b2 0x10000#32, .wrIntEn .b1 0x100#32, .wrCap .b1 0#13 0x100#32, .wrOut .b2 0#10 0x10000#32,
      .wrRend .b1 0#12 0x100#32, .rsvdWr .b2 0x7000#16 0x10000#32].all (fun i => !i.wf) = true := by decide

/-- A fallback row with an offset of a register or of a RAM window is refused. -/
theorem test_wf_fallback_offset :
    [Instr.rsvdRd .b4 0x0000#16, .rsvdRd .b4 0x003C#16, .rsvdRd .b4 0x2000#16, .rsvdRd .b4 0x3FFF#16, .rsvdRd .b4 0x4000#16,
      .rsvdRd .b4 0x43FF#16, .rsvdRd .b4 0x6000#16, .rsvdRd .b4 0x6FFF#16, .rsvdWr .b4 0x0010#16 0#32, .rsvdWr .b4 0x2000#16 0#32,
      .rsvdWr .b4 0x4000#16 0#32, .rsvdWr .b4 0x6FFF#16 0#32].all (fun i => !i.wf) = true := by decide

/-- Their well-formed neighbours pass. -/
theorem test_wf_accepts :
    [Instr.wrCtrl .b1 0xFF#32, .wrCap .b2 0#13 0xFFFF#32, .wrCmd .b4 0xFFFFFFFF#32, .rsvdRd .b4 0x003D#16, .rsvdRd .b4 0x0040#16,
      .rsvdRd .b1 0x1FFF#16, .rsvdRd .b4 0x4400#16, .rsvdRd .b4 0x5FFF#16, .rsvdWr .b4 0x7000#16 0#32].all Instr.wf = true := by decide

/-! ## Decoding

Table words are written as bod: `dir` in bit 16, the offset in bits 15..0, from R48 and the offsets of 10_state.md section 3. -/

/-- Every register read, R77 to R92. -/
theorem test_decode_register_reads :
    decodeTableWord 24 0b00000000000000000 = some (.rdId .b4) ∧
    decodeTableWord 24 0b00000000000000100 = some (.rdCtrl .b4) ∧
    decodeTableWord 24 0b00000000000001000 = some (.rdCfg .b4) ∧
    decodeTableWord 24 0b00000000000001100 = some (.rdNpairs .b4) ∧
    decodeTableWord 24 0b00000000000010000 = some (.rdCmd .b4) ∧
    decodeTableWord 24 0b00000000000010100 = some (.rdDutyStage .b4) ∧
    decodeTableWord 24 0b00000000000011000 = some (.rdDutyCommit .b4) ∧
    decodeTableWord 24 0b00000000000011100 = some (.rdDutyActive .b4) ∧
    decodeTableWord 24 0b00000000000100000 = some (.rdPwmCfg .b4) ∧
    decodeTableWord 24 0b00000000000100100 = some (.rdPwmCnt .b4) ∧
    decodeTableWord 24 0b00000000000101000 = some (.rdTickDiv .b4) ∧
    decodeTableWord 24 0b00000000000101100 = some (.rdRlen .b4) ∧
    decodeTableWord 24 0b00000000000110000 = some (.rdRpos .b4) ∧
    decodeTableWord 24 0b00000000000110100 = some (.rdStatus .b4) ∧
    decodeTableWord 24 0b00000000000111000 = some (.rdIntStatus .b4) ∧
    decodeTableWord 24 0b00000000000111100 = some (.rdIntEn .b4) :=
  ⟨rfl, rfl, rfl, rfl, rfl, rfl, rfl, rfl, rfl, rfl, rfl, rfl, rfl, rfl, rfl, rfl⟩

/-- Every register write, R63, R66, R67, R93 to R106, R120. -/
theorem test_decode_register_writes :
    decodeTableWord 24 0b10000000000000000 = some (.wrId .b4 0#32) ∧
    decodeTableWord 24 0b10000000000000100 = some (.wrCtrl .b4 0#32) ∧
    decodeTableWord 24 0b10000000000001000 = some (.wrCfg .b4 0#32) ∧
    decodeTableWord 24 0b10000000000001100 = some (.wrNpairs .b4 0#32) ∧
    decodeTableWord 24 0b10000000000010000 = some (.wrCmd .b4 0#32) ∧
    decodeTableWord 24 0b10000000000010100 = some (.wrDutyStage .b4 0#32) ∧
    decodeTableWord 24 0b10000000000011000 = some (.wrDutyCommit .b4 0#32) ∧
    decodeTableWord 24 0b10000000000011100 = some (.wrDutyActive .b4 0#32) ∧
    decodeTableWord 24 0b10000000000100000 = some (.wrPwmCfg .b4 0#32) ∧
    decodeTableWord 24 0b10000000000100100 = some (.wrPwmCnt .b4 0#32) ∧
    decodeTableWord 24 0b10000000000101000 = some (.wrTickDiv .b4 0#32) ∧
    decodeTableWord 24 0b10000000000101100 = some (.wrRlen .b4 0#32) ∧
    decodeTableWord 24 0b10000000000110000 = some (.wrRpos .b4 0#32) ∧
    decodeTableWord 24 0b10000000000110100 = some (.wrStatus .b4 0#32) ∧
    decodeTableWord 24 0b10000000000111000 = some (.wrIntStatus .b4 0#32) ∧
    decodeTableWord 24 0b10000000000111100 = some (.wrIntEn .b4 0#32) :=
  ⟨rfl, rfl, rfl, rfl, rfl, rfl, rfl, rfl, rfl, rfl, rfl, rfl, rfl, rfl, rfl, rfl⟩

/-- Every command, R49: OPC in bits 3..0. -/
theorem test_decode_commands :
    decodeTableWord 8 0b0000 = some (.cmdNop 0#28) ∧ decodeTableWord 8 0b0001 = some (.cmdTransform 0#28) ∧
      decodeTableWord 8 0b0010 = some (.cmdCommit 0#28) ∧ decodeTableWord 8 0b0011 = some (.cmdRender 0#28) ∧
      decodeTableWord 8 0b0100 = some (.cmdRsvd4 0#2 0#28) ∧ decodeTableWord 8 0b0111 = some (.cmdRsvd4 3#2 0#28) ∧
      decodeTableWord 8 0b1000 = some (.cmdRsvd8 0#3 0#28) ∧ decodeTableWord 8 0b1111 = some (.cmdRsvd8 7#3 0#28) :=
  ⟨rfl, rfl, rfl, rfl, rfl, rfl, rfl, rfl⟩

/-- d[31:4] of a CMD word is carried and ignored, R49: W4@0x0010=0xFFFFFFF1 (EX10). -/
theorem test_decode_command_reserved_bits :
    decode .cmd [0b11110001#8, 0xFF#8, 0xFF#8, 0xFF#8] = .ok (.cmdTransform 0xFFFFFFF#28) ∧
      decode .mmio [0x10#8, 0x00#8, 0b00000001#8, 0xF1#8, 0xFF#8, 0xFF#8, 0xFF#8] = .ok (.wrCmd .b4 0xFFFFFFF1#32) := ⟨rfl, rfl⟩

/-- The RAM rows at the first and the last offset of each window, R107 to R112, and bits of the index in between. -/
theorem test_decode_ram :
    decodeTableWord 24 0b00010000000000000 = some (.rdCap .b4 0#13) ∧ decodeTableWord 24 0b00011111111111111 = some (.rdCap .b4 0x1FFF#13) ∧
      decodeTableWord 24 0b10010000000000100 = some (.wrCap .b4 4#13 0#32) ∧
      decodeTableWord 24 0b00100000000000000 = some (.rdOut .b4 0#10) ∧ decodeTableWord 24 0b00100001111111111 = some (.rdOut .b4 0x3FF#10) ∧
      decodeTableWord 24 0b10100000000000001 = some (.wrOut .b4 1#10 0#32) ∧
      decodeTableWord 24 0b00110000000000000 = some (.rdRend .b4 0#12) ∧ decodeTableWord 24 0b00110111111111111 = some (.rdRend .b4 0xFFF#12) ∧
      decodeTableWord 24 0b10110000000000011 = some (.wrRend .b4 3#12 0#32) :=
  ⟨rfl, rfl, rfl, rfl, rfl, rfl, rfl, rfl, rfl⟩

/-- The fallback rows on both sides of every other row, R113, R114. -/
theorem test_decode_reserved :
    decodeTableWord 24 0b00000000001000000 = some (.rsvdRd .b4 0x0040#16) ∧
      decodeTableWord 24 0b00001111111111111 = some (.rsvdRd .b4 0x1FFF#16) ∧
      decodeTableWord 24 0b00100010000000000 = some (.rsvdRd .b4 0x4400#16) ∧
      decodeTableWord 24 0b10111000000000000 = some (.rsvdWr .b4 0x7000#16 0#32) ∧
      decodeTableWord 24 0b10000000000000110 = some (.rsvdWr .b4 0x0006#16 0#32) := ⟨rfl, rfl, rfl, rfl, rfl⟩

/-- Width and data of a record: W2@0x6003=1 (AV15), W1@0x4000=0x55 (AV17), R1@0x4000. -/
theorem test_decode_widths :
    decode .mmio [0x03#8, 0x60#8, 0b00000101#8, 0x01#8, 0x00#8, 0x00#8, 0x00#8] = .ok (.wrRend .b2 3#12 1#32) ∧
      decode .mmio [0x00#8, 0x40#8, 0b00000011#8, 0x55#8, 0x00#8, 0x00#8, 0x00#8] = .ok (.wrOut .b1 0#10 0x55#32) ∧
      decode .mmio [0x00#8, 0x40#8, 0b00000010#8, 0x00#8, 0x00#8, 0x00#8, 0x00#8] = .ok (.rdOut .b1 0#10) := ⟨rfl, rfl, rfl⟩

/-- What is no transfer is rejected by name. -/
theorem test_decode_rejects :
    decode .mmio [0x00#8, 0x00#8, 0b00000110#8, 0#8, 0#8, 0#8, 0#8] = .error .noSuchWidth ∧
      decode .mmio [0x00#8, 0x00#8, 0b00001000#8, 0#8, 0#8, 0#8, 0#8] = .error .recordPadding ∧
      decode .mmio [0x00#8] = .error (.recordLength .mmio 1) ∧ decode .cmd [] = .error (.recordLength .cmd 0) := ⟨rfl, rfl, rfl, rfl⟩

/-! ## Single steps -/

/-- A field of the next state, if there is one. -/
def field {α : Type} (f : State → α) : Result → Option α
  | .next t => some (f t)
  | _ => none

/-- The fault, if there is one. -/
def faultOf : Result → Option Fault
  | .fault f => some f
  | _ => none

/-- The block at reset with the last RAM bytes of tests written. -/
def loaded (cells : Memory) : State := { State.reset with mem := cells }

/-- A running render of 3 levels, 3 clock steps each, before its second tick (RV9). -/
def rendering : State :=
  { State.reset with
    rlen := 3#13, tickDiv := 3#24, hRlenL := 3#13, hTdivL := 3#24, rpos := 1#13, hTcnt := 0#24, rbusy := true
    mem := [(0x6000, 0x10#8), (0x6001, 0x20#8), (0x6002, 0x30#8)] }

/-- The block of E1 (T17, T18): two S16 pairs, SHIFT = 8. -/
def captured : State :=
  { State.reset with
    npairs := 2#16
    mem := [(0x2000, 0x64#8), (0x2001, 0x00#8), (0x2002, 0x64#8), (0x2003, 0x00#8), (0x2004, 0x9C#8), (0x2005, 0xFF#8),
      (0x2006, 0x9C#8), (0x2007, 0xFF#8)] }

/-- The modulator running, RES 8, DIV 1, PWM_CNT = 77 (PW9). -/
def modulating : State := { State.reset with pwmEn := true, pwmCnt := 77#15 }

/-- AV1, AV2: every register at reset. -/
theorem test_reset_registers :
    field (·.resp) (exec (.rdId .b4) State.reset) = some (.readData .b4 0x444D5201#32) ∧
    field (·.resp) (exec (.rdCtrl .b4) State.reset) = some (.readData .b4 0x00000000#32) ∧
    field (·.resp) (exec (.rdCfg .b4) State.reset) = some (.readData .b4 0x00000800#32) ∧
    field (·.resp) (exec (.rdNpairs .b4) State.reset) = some (.readData .b4 0x00000000#32) ∧
    field (·.resp) (exec (.rdCmd .b4) State.reset) = some (.readData .b4 0x00000000#32) ∧
    field (·.resp) (exec (.rdDutyStage .b4) State.reset) = some (.readData .b4 0x00000080#32) ∧
    field (·.resp) (exec (.rdDutyCommit .b4) State.reset) = some (.readData .b4 0x00000080#32) ∧
    field (·.resp) (exec (.rdDutyActive .b4) State.reset) = some (.readData .b4 0x00000080#32) ∧
    field (·.resp) (exec (.rdPwmCfg .b4) State.reset) = some (.readData .b4 0x00010008#32) ∧
    field (·.resp) (exec (.rdPwmCnt .b4) State.reset) = some (.readData .b4 0x00000000#32) ∧
    field (·.resp) (exec (.rdTickDiv .b4) State.reset) = some (.readData .b4 0x00000001#32) ∧
    field (·.resp) (exec (.rdRlen .b4) State.reset) = some (.readData .b4 0x00000000#32) ∧
    field (·.resp) (exec (.rdRpos .b4) State.reset) = some (.readData .b4 0x00000000#32) ∧
    field (·.resp) (exec (.rdStatus .b4) State.reset) = some (.readData .b4 0x00000000#32) ∧
    field (·.resp) (exec (.rdIntStatus .b4) State.reset) = some (.readData .b4 0x00000000#32) ∧
    field (·.resp) (exec (.rdIntEn .b4) State.reset) = some (.readData .b4 0x00000000#32) := by decide

/-- AV3: the reserved bits of CTRL read 0 whatever was written. -/
theorem test_ctrl_readback : field ctrlWord (exec (.wrCtrl .b4 0xFFFFFFFF#32) State.reset) = some 0x00000001#32 := by decide

/-- AV4. -/
theorem test_cfg_readback : field cfgWord (exec (.wrCfg .b4 0xFFFFFFFF#32) State.reset) = some 0x00001F01#32 := by decide

/-- AV5. -/
theorem test_npairs_readback : field npairsWord (exec (.wrNpairs .b4 0x12345#32) State.reset) = some 0x00002345#32 := by decide

/-- AV6. -/
theorem test_tickdiv_warl : field tickDivWord (exec (.wrTickDiv .b4 0x01000000#32) State.reset) = some 0x00000001#32 := by decide

/-- AV7. -/
theorem test_rlen_readback : field rlenWord (exec (.wrRlen .b4 0xFFFF#32) State.reset) = some 0x00001FFF#32 := by decide

/-- AV8. -/
theorem test_inten_readback : field intEnWord (exec (.wrIntEn .b4 0xFF#32) State.reset) = some 0x00000003#32 := by decide

/-- AV10: read-only registers ignore writes. -/
theorem test_read_only :
    [Instr.wrDutyCommit .b4 0x11#32, .wrDutyActive .b4 0x11#32, .wrPwmCnt .b4 5#32, .wrRpos .b4 0#32, .wrStatus .b4 0xFFFFFFFF#32,
      .wrId .b4 0#32].all (fun i => decide (field id (exec i rendering) = some (rendering.respond .writeDone))) = true := by decide

/-- AV11, AV15: width and alignment. -/
theorem test_bus_errors :
    [decodeAccess .read 0x0004#16 .b2 0#32, decodeAccess .read 0x0008#16 .b1 0#32, decodeAccess .write 0x0006#16 .b4 1#32,
      decodeAccess .write 0x0041#16 .b1 1#32, decodeAccess .read 0x2001#16 .b2 0#32, decodeAccess .read 0x2002#16 .b4 0#32,
      decodeAccess .write 0x6003#16 .b2 1#32].all
        (fun i => decide (field id (exec i State.reset) = some (State.reset.respond (.busError i.access.off i.access.width i.access.dir)))) =
      true := by decide

/-- AV12: reserved offsets read 0. -/
theorem test_reserved_reads :
    field (·.resp) (exec (.rsvdRd .b4 0x0FFC#16) State.reset) = some (.readData .b4 0#32) ∧
      field (·.resp) (exec (.rsvdRd .b1 0x1000#16) State.reset) = some (.readData .b1 0#32) := by decide

/-- AV13: reserved offsets ignore writes. -/
theorem test_reserved_write : field (·.mem) (exec (.rsvdWr .b4 0x7000#16 1#32) State.reset) = some [] := by decide

/-- AV14: byte order of CAP_RAM. -/
theorem test_cap_write :
    field (·.mem) (exec (.wrCap .b4 4#13 0xFF9CFF9C#32) State.reset) =
      some [(0x2004, 0x9C#8), (0x2005, 0xFF#8), (0x2006, 0x9C#8), (0x2007, 0xFF#8)] := by decide

/-- AV14. -/
theorem test_cap_read :
    field (·.resp) (exec (.rdCap .b2 6#13) captured) = some (.readData .b2 0xFF9C#32) ∧
      field (·.resp) (exec (.rdCap .b1 4#13) captured) = some (.readData .b1 0x9C#32) := by decide

/-- Four capture pairs only (AV16). -/
def small : State := { State.reset with params := { base := 0, capPairs := 4, rendLen := 4, fClk := 1 } }

/-- AV16: bytes beyond the implemented size ignore writes and read 0. -/
theorem test_cap_unimplemented :
    field (·.mem) (exec (.wrCap .b4 0x20#13 0x12345678#32) small) = some [] ∧
      field (·.resp) (exec (.rdCap .b4 0x20#13) small) = some (.readData .b4 0#32) := by decide

/-- AV17. -/
theorem test_out_write : field (·.mem) (exec (.wrOut .b1 0#10 0x55#32) (loaded [(0x4000, 0x80#8)])) = some [(0x4000, 0x80#8)] := by decide

/-- AV18: Poison at the first unwritten byte. -/
theorem test_out_poison :
    faultOf (exec (.rdOut .b4 0#10) (loaded [(0x4000, 0x80#8), (0x4001, 0x7F#8)])) = some (.poison .out 2) := by decide

/-- R109's example. -/
theorem test_out_read :
    field (·.resp) (exec (.rdOut .b1 1#10) (loaded [(0x4000, 0x80#8), (0x4001, 0x7F#8)])) = some (.readData .b1 0x7F#32) := by decide

/-- AV19. -/
theorem test_rend_write :
    field (·.mem) (exec (.wrRend .b4 0#12 0x00302010#32) State.reset) =
      some [(0x6000, 0x10#8), (0x6001, 0x20#8), (0x6002, 0x30#8), (0x6003, 0x00#8)] := by decide

/-- AV19, AV20. -/
theorem test_rend_read :
    field (·.resp) (exec (.rdRend .b2 0#12) rendering) = some (.readData .b2 0x2010#32) ∧
      faultOf (exec (.rdRend .b1 0#12) State.reset) = some (.poison .rend 0) := by decide

/-- R59's example (T17, T18). -/
theorem test_transform :
    field (fun t => (t.ramByte .out 0, t.ramByte .out 1, t.ramByte .out 2)) (exec (.cmdTransform 0#28) captured) =
      some (some 0x80#8, some 0x7F#8, none) := by decide

/-- T50, T53: the range check before Poison, Poison at the first unwritten byte. -/
theorem test_transform_refused :
    field (fun t => (t.intErr, t.errcode)) (exec (.cmdTransform 0#28) State.reset) = some (true, 3#4) ∧
      faultOf (exec (.cmdTransform 0#28) { State.reset with npairs := 1#16, mem := [(0x2000, 1#8), (0x2001, 0#8)] }) =
        some (.poison .cap 2) := by decide

/-- T4, T7, T11, T14: truncating half, flooring shift. -/
theorem test_mix_rounding :
    mix 32767 (-32768) 8 = 128#8 ∧ mix (-2) 0 8 = 127#8 ∧ mix (-257) (-257) 8 = 126#8 ∧ mix (-513) 0 8 = 127#8 := by decide

/-- T21, T23, T34, T37: clamps and the widest sums. -/
theorem test_mix_extremes :
    mix 128 128 0 = 255#8 ∧ mix (-129) (-129) 0 = 0#8 ∧ mix (-32768) (-32768) 31 = 127#8 ∧
      mix 0x7FFFFFFF 0x7FFFFFFF 24 = 255#8 := by decide

/-- T40: an S32 container's bytes. -/
theorem test_transform_s32 :
    field (·.ramByte .out 0)
      (exec (.cmdTransform 0#28)
        { State.reset with
          fmt := .s32, shift := 24#5, npairs := 1#16
          mem := [(0x2000, 0#8), (0x2001, 0#8), (0x2002, 0#8), (0x2003, 0xFF#8), (0x2004, 0#8), (0x2005, 0#8), (0x2006, 0#8),
            (0x2007, 0xFF#8)] }) = some (some 0x7F#8) := by decide

/-- PW8: an enable is a refresh boundary. -/
theorem test_enable :
    field (fun t => (t.pwmEn, t.pwmCnt, t.dutyActive, pwmOut t)) (exec (.wrCtrl .b4 1#32) { State.reset with dutyCommit := 0x40#8 }) =
      some (true, 0#15, 0x40#8, true) := by decide

/-- PW9, PW10: the current value changes nothing, a disable clears the counters. -/
theorem test_disable :
    field (·.pwmCnt) (exec (.wrCtrl .b4 1#32) modulating) = some 77#15 ∧
      field (fun t => (t.pwmCnt, pwmOut t, t.dutyActive)) (exec (.wrCtrl .b4 0#32) modulating) = some (0#15, false, 0x80#8) := by decide

/-- PW12, PW13: the WARL fields. -/
theorem test_pwmcfg_warl :
    field pwmCfgWord (exec (.wrPwmCfg .b4 0x00000003#32) State.reset) = some 0x00010008#32 ∧
      field pwmCfgWord (exec (.wrPwmCfg .b4 0xFFFFFFFF#32) State.reset) = some 0xFFFF000F#32 := by decide

/-- PW11, EX8: E_LOCKED, and no record where the access is a bus error. -/
theorem test_pwmcfg_locked :
    field (fun t => (t.errcode, pwmCfgWord t)) (exec (.wrPwmCfg .b4 0x0004000A#32) modulating) = some (4#4, 0x00010008#32) ∧
      field (·.intErr) (exec (.wrPwmCfg .b2 5#32) modulating) = some false := by decide

/-- PW14, PW16: a stage, and E_BUSY while a render runs. -/
theorem test_stage :
    field (fun t => (t.dutyStage, t.dutyCommit)) (exec (.wrDutyStage .b4 0x1C0#32) State.reset) = some (0xC0#8, 0x80#8) ∧
      field (fun t => (t.errcode, t.dutyStage)) (exec (.wrDutyStage .b4 0x99#32) rendering) = some (2#4, 0x80#8) := by decide

/-- PW15, PW17. -/
theorem test_commit :
    field (·.dutyCommit) (exec (.cmdCommit 0#28) { State.reset with dutyStage := 0xC0#8 }) = some 0xC0#8 ∧
      field (fun t => (t.errcode, t.dutyCommit)) (exec (.cmdCommit 0#28) rendering) = some (2#4, 0x80#8) := by decide

/-- R72's example. -/
theorem test_render_starts :
    field (fun t => (t.rbusy, t.rpos, t.hRlenL, t.hTdivL))
      (exec (.cmdRender 0#28) { State.reset with rlen := 3#13, tickDiv := 3#24 }) = some (true, 0#13, 3#13, 3#24) := by decide

/-- RV3, RV4, RV5: E_BUSY before E_RANGE. -/
theorem test_render_refused :
    field (·.errcode) (exec (.cmdRender 0#28) { rendering with rlen := 0#13 }) = some 2#4 ∧
      field (fun t => (t.errcode, t.rbusy)) (exec (.cmdRender 0#28) State.reset) = some (3#4, false) ∧
      field (·.errcode) (exec (.cmdRender 0#28) { State.reset with rlen := 4097#13 }) = some 3#4 := by decide

/-- EX9, R97: NOP, also during a render. -/
theorem test_nop : field id (exec (.cmdNop 0xFFFFFFF#28) rendering) = some (rendering.respond .writeDone) := by decide

/-- EX1: a reserved command. -/
theorem test_reserved_command :
    field statusWord (exec (.cmdRsvd4 3#2 0#28) State.reset) = some 0x00000100#32 ∧
      field statusWord (exec (.cmdRsvd8 7#3 0#28) State.reset) = some 0x00000100#32 := by decide

/-- EX2: the first code is kept. -/
theorem test_first_error :
    field (·.errcode) (exec (.cmdTransform 0#28) { State.reset with intErr := true, errcode := 1#4 }) = some 1#4 := by decide

/-- EX10: a write of CMD runs the command of its opcode. -/
theorem test_cmd_write :
    field (·.ramByte .out 1) (exec (.wrCmd .b4 0xFFFFFFF1#32) captured) = some (some 0x7F#8) := by decide

/-- EX3, EX4: write 1 to clear. -/
theorem test_int_status :
    field (fun t => (intStatusWord t, t.errcode))
        (exec (.wrIntStatus .b4 2#32) { State.reset with intRdone := true, intErr := true, errcode := 2#4 }) = some (1#32, 0#4) ∧
      field intStatusWord (exec (.wrIntStatus .b4 0#32) { State.reset with intRdone := true }) = some 1#32 := by decide

/-- EX5, EX7: IRQ follows at once. -/
theorem test_irq :
    field irq (exec (.wrIntEn .b4 2#32) { State.reset with intErr := true, errcode := 2#4 }) = some true ∧
      field irq (exec (.wrIntStatus .b4 1#32) { State.reset with intRdone := true, rdoneEn := true }) = some false := by decide

/-- R90's example: STATUS during a render after one E_BUSY. -/
theorem test_status : statusWord { rendering with errcode := 2#4, intErr := true } = 0x00000201#32 := by decide

/-- RV9: a tick commits REND[RPOS] and reloads the interval. -/
theorem test_tick :
    field (fun t => (t.dutyStage, t.dutyCommit, t.rpos, t.hTcnt)) (clockStep rendering) = some (0x20#8, 0x20#8, 2#13, 2#24) := by decide

/-- RV1 step 7 and RV6: completion, and Poison at a tick. -/
theorem test_tick_ends :
    field (fun t => (t.rbusy, t.intRdone)) (clockStep { rendering with rpos := 3#13 }) = some (false, true) ∧
      faultOf (clockStep { rendering with mem := [] }) = some (.poison .rend 1) := by decide

/-- PW7's last step: the boundary latches the level committed before it. -/
theorem test_refresh :
    field (fun t => (t.pwmCnt, t.dutyActive)) (clockStep { modulating with pwmCnt := 255#15, dutyCommit := 0x30#8 }) =
      some (0#15, 0x30#8) := by decide

/-- PW19: the prescaler. -/
theorem test_prescaler :
    field (fun t => (t.hPre, t.pwmCnt)) (clockStep { modulating with pwmDiv := 3#16, pwmCnt := 0#15, hPre := 1#16 }) =
        some (2#16, 0#15) ∧
      field (fun t => (t.hPre, t.pwmCnt)) (clockStep { modulating with pwmDiv := 3#16, pwmCnt := 0#15, hPre := 2#16 }) =
        some (0#16, 1#15) := by decide

/-- R130: a reset abandons a render with no completion. -/
theorem test_reset_input :
    field (fun t => (t.rbusy, t.intRdone, t.mem, t.dutyCommit)) (step { rendering with inputs := [.reset] }) =
      some (false, false, [], 0x80#8) := by decide

/-- A table word is fetched and run: RD.STATUS. -/
theorem test_fetch :
    field (·.resp) (step (State.reset.withFetchWord 24 0b00000000000110100)) = some (.readData .b4 0#32) := by decide

/-! ## Witnesses: states and operands that meet the hypotheses of the statements -/

/-- The widths that are not 4, and the misaligned offsets beside two registers. -/
theorem witness_register_accesses :
    Width.b1 ≠ .b4 ∧ Width.b2 ≠ .b4 ∧ (0x0015#16).toNat / 4 = (0x0014#16).toNat / 4 ∧ (0x0015#16).toNat % 4 ≠ 0 ∧
      (0x0017#16).toNat / 4 = (0x0014#16).toNat / 4 ∧ (0x0017#16).toNat % 4 ≠ 0 ∧ (0x0005#16).toNat / 4 = (0x0004#16).toNat / 4 ∧
      (0x0005#16).toNat % 4 ≠ 0 := by decide

theorem witness_ResetStateIsTheSpecs : ({ rendering with inputs := [.reset, .clock] } : State).inputs = .reset :: [.clock] := rfl

/-- A stopped modulator, a legal tick interval, a clock step that completes a render. -/
theorem witness_CounterAndInterruptRegistersRead :
    State.reset.pwmLegal ∧ State.reset.pwmEn = false ∧ State.reset.renderLegal ∧ rendering.rbusy = true ∧
      ∃ t, clockStep { rendering with rpos := 3#13 } = .next t ∧ t.rbusy = false :=
  ⟨by decide, rfl, by decide, rfl, _, rfl, rfl⟩

/-- Both ends of the legal resolutions, and a state with no error. -/
theorem witness_StatusShowsErrorPinAndBusy :
    8 ≤ State.reset.pwmRes.toNat ∧ 8 ≤ ({ modulating with pwmRes := 15#4 } : State).pwmRes.toNat ∧ State.reset.errorLegal ∧
      State.reset.intErr = false := by decide

/-- Each opcode clause at the ends of its range, with d[31:4] all ones. -/
theorem witness_CmdWriteRunsTheCommandOfItsOpcode :
    (0xFFFFFFF0#32).extractLsb' 0 4 = 0x0#4 ∧ (0xFFFFFFF1#32).extractLsb' 0 4 = 0x1#4 ∧ (0xFFFFFFF2#32).extractLsb' 0 4 = 0x2#4 ∧
      (0xFFFFFFF3#32).extractLsb' 0 4 = 0x3#4 ∧ 4 ≤ ((0xFFFFFFF4#32).extractLsb' 0 4).toNat ∧
      4 ≤ ((0xFFFFFFF7#32).extractLsb' 0 4).toNat ∧ ((0xFFFFFFF7#32).extractLsb' 0 4).toNat < 8 ∧
      8 ≤ ((0xFFFFFFF8#32).extractLsb' 0 4).toNat ∧ 8 ≤ ((0xFFFFFFFF#32).extractLsb' 0 4).toNat := by decide

/-- Both forms of every command. -/
theorem witness_command_forms :
    Claims.commandForm .cmdNop 0x0#4 (.cmdNop 1#28) ∧ Claims.commandForm .cmdNop 0x0#4 (.wrCmd .b4 0x10#32) ∧
      Claims.commandForm .cmdTransform 0x1#4 (.cmdTransform 1#28) ∧ Claims.commandForm .cmdTransform 0x1#4 (.wrCmd .b4 0x11#32) ∧
      Claims.commandForm .cmdCommit 0x2#4 (.cmdCommit 1#28) ∧ Claims.commandForm .cmdCommit 0x2#4 (.wrCmd .b4 0x12#32) ∧
      Claims.commandForm .cmdRender 0x3#4 (.cmdRender 1#28) ∧ Claims.commandForm .cmdRender 0x3#4 (.wrCmd .b4 0x13#32) ∧
      Claims.reservedForm (.cmdRsvd4 0#2 0#28) ∧ Claims.reservedForm (.cmdRsvd8 7#3 0#28) ∧ Claims.reservedForm (.wrCmd .b4 0x4#32) ∧
      Claims.reservedForm (.wrCmd .b4 0xF#32) :=
  ⟨.inl ⟨_, rfl⟩, .inr ⟨_, rfl, by decide⟩, .inl ⟨_, rfl⟩, .inr ⟨_, rfl, by decide⟩, .inl ⟨_, rfl⟩, .inr ⟨_, rfl, by decide⟩,
    .inl ⟨_, rfl⟩, .inr ⟨_, rfl, by decide⟩, .inl ⟨_, _, rfl⟩, .inr (.inl ⟨_, _, rfl⟩), .inr (.inr ⟨_, rfl, by decide⟩),
    .inr (.inr ⟨_, rfl, by decide⟩)⟩

theorem witness_CommitCopiesTheStagedLevelOrIsBusy :
    Claims.commandForm .cmdCommit 0x2#4 (.cmdCommit 0#28) ∧ State.reset.rbusy = false ∧ rendering.rbusy = true :=
  ⟨.inl ⟨_, rfl⟩, rfl, rfl⟩

/-- A render idle with one level written. -/
def ready : State := { State.reset with rlen := 1#13, mem := [(0x6000, 0x55#8)] }

/-- Busy; length 0 and one above the capacity; both ends of the legal lengths. -/
theorem witness_RenderStartsOrIsRefused :
    Claims.commandForm .cmdRender 0x3#4 (.cmdRender 0#28) ∧ rendering.rbusy = true ∧ State.reset.rbusy = false ∧
      State.reset.rlen.toNat = 0 ∧ ({ State.reset with rlen := 4097#13 } : State).params.rendLen < (4097#13).toNat ∧
      1 ≤ ready.rlen.toNat ∧ ready.rlen.toNat ≤ ready.params.rendLen ∧ 1 ≤ (4096#13).toNat ∧
      (4096#13).toNat ≤ State.reset.params.rendLen :=
  ⟨.inl ⟨_, rfl⟩, rfl, rfl, rfl, by decide, by decide, by decide, by decide, by decide⟩

/-- One pair, of which only the first two bytes are written. -/
def halfCaptured : State := { State.reset with npairs := 1#16, mem := [(0x2000, 1#8), (0x2001, 0#8)] }

/-- Both ends of the range error; Poison at byte 2; a block that is written whole, in each format, at the capacity of one pair. -/
theorem witness_TransformComputesEveryLevel :
    Claims.commandForm .cmdTransform 0x1#4 (.cmdTransform 0#28) ∧ State.reset.npairs.toNat = 0 ∧
      State.reset.params.capPairs < (1025#16).toNat ∧ 1 ≤ halfCaptured.npairs.toNat ∧
      halfCaptured.npairs.toNat ≤ halfCaptured.params.capPairs ∧ 2 < Claims.bytesRead halfCaptured ∧
      halfCaptured.ramMark .cap 2 = false ∧ (∀ j, j < 2 → halfCaptured.ramMark .cap j = true) ∧
      (∀ k, k < Claims.bytesRead captured → captured.ramMark .cap k = true) ∧
      (∀ k, k < Claims.bytesRead { captured with fmt := .s32, npairs := 1#16 } → captured.ramMark .cap k = true) ∧
      captured.npairs.toNat ≤ captured.params.capPairs ∧ (1024#16).toNat ≤ State.reset.params.capPairs :=
  ⟨.inl ⟨_, rfl⟩, rfl, by decide, by decide, by decide, by decide, by decide, by decide, by decide, by decide, by decide, by decide⟩

theorem witness_TransformIsIdempotent :
    Claims.commandForm .cmdTransform 0x1#4 (.wrCmd .b4 1#32) ∧ captured.memLegal ∧ ∃ t, exec (.wrCmd .b4 1#32) captured = .next t :=
  ⟨.inr ⟨_, rfl, by decide⟩, by decide, _, rfl⟩

/-- Equal sums, ordered sums, sums of each sign, an odd negative sum, and the boundary shift of S16. -/
theorem witness_mix :
    (1 : Int) + 3 = 2 + 2 ∧ (-1 : Int) + 0 ≤ 0 + 0 ∧ (0 : Int) ≤ 0 + 0 ∧ (-1 : Int) + 0 < 0 ∧ (-1 : Int) < 0 ∧ 8 + 7 = 15 ∧
      -(2 ^ 15) ≤ (-32768 : Int) ∧ (-32768 : Int) ≤ 2 ^ 15 - 1 ∧ -(2 ^ 15) ≤ (32767 : Int) ∧ (32767 : Int) ≤ 2 ^ 15 - 1 := by decide

/-- Every RAM: an aligned read over written bytes, one over an unwritten byte, a misaligned one. -/
theorem witness_RamReadsReturnTheWrittenBytes :
    (4#13).toNat % Width.b4.bytes = 0 ∧
      (∀ k, k < Width.b4.bytes → (4#13).toNat + k < Ram.cap.size captured.params → captured.ramMark .cap ((4#13).toNat + k) = true) ∧
      (∀ k, k < Width.b2.bytes → (0#12).toNat + k < Ram.rend.size rendering.params →
        rendering.ramMark .rend ((0#12).toNat + k) = true) ∧
      (∀ k, k < Width.b1.bytes → (1023#10).toNat + k < Ram.out.size small.params → small.ramMark .out ((1023#10).toNat + k) = true) ∧
      halfCaptured.ramMark .cap 2 = false ∧ 2 < Ram.cap.size halfCaptured.params ∧
      (∀ j, j < 2 → (0#13).toNat + j < Ram.cap.size halfCaptured.params → halfCaptured.ramMark .cap ((0#13).toNat + j) = true) ∧
      State.reset.ramMark .out 1023 = false ∧ 1023 < Ram.out.size State.reset.params ∧ State.reset.ramMark .rend 4095 = false ∧
      4095 < Ram.rend.size State.reset.params ∧ (0x1FFF#13).toNat % Width.b2.bytes ≠ 0 ∧ (1#10).toNat % Width.b4.bytes ≠ 0 ∧
      (0xFFE#12).toNat % Width.b4.bytes ≠ 0 := by decide

theorem witness_RamWritesStoreTheirLanes :
    (0x1FFC#13).toNat % Width.b4.bytes = 0 ∧ (0xFFF#12).toNat % Width.b1.bytes = 0 ∧ (3#13).toNat % Width.b2.bytes ≠ 0 ∧
      (3#12).toNat % Width.b2.bytes ≠ 0 := by decide

/-- Both ends of every reserved range, legal and illegal accesses of it, and both alignments of OUT_RAM. -/
theorem witness_OutWritesAndReservedSpace :
    [0x0001#16, 0x003F#16, 0x0040#16, 0x0FFF#16, 0x1000#16, 0x1FFF#16, 0x4400#16, 0x5FFF#16, 0x7000#16, 0xFFFF#16].all reservedOffset =
        true ∧
      Claims.legal 0x0040#16 .b4 ∧ Claims.legal 0x0FFC#16 .b4 ∧ Claims.legal 0x1000#16 .b1 ∧ Claims.legal 0xFFFF#16 .b1 ∧
      ¬ Claims.legal 0x0041#16 .b1 ∧ ¬ Claims.legal 0x0FFF#16 .b1 ∧ ¬ Claims.legal 0x1001#16 .b2 ∧ (1022#10).toNat % Width.b2.bytes = 0 ∧
      (1022#10).toNat % Width.b4.bytes ≠ 0 := by decide

theorem witness_IllegalAccessIsABusErrorAndNothingElse :
    ¬ Claims.legal (Instr.rdCtrl .b2).access.off (Instr.rdCtrl .b2).access.width ∧
      ¬ Claims.legal (Instr.wrCmd .b1 1#32).access.off (Instr.wrCmd .b1 1#32).access.width ∧
      ¬ Claims.legal (Instr.rdCap .b4 2#13).access.off (Instr.rdCap .b4 2#13).access.width ∧
      ¬ Claims.legal (Instr.rsvdWr .b4 0x0006#16 1#32).access.off (Instr.rsvdWr .b4 0x0006#16 1#32).access.width := by decide

theorem witness_LegalAccessIsAnsweredOrPoison :
    Claims.legal (Instr.rdCtrl .b4).access.off (Instr.rdCtrl .b4).access.width ∧
      Claims.legal (Instr.cmdTransform 0#28).access.off (Instr.cmdTransform 0#28).access.width ∧
      Claims.legal (Instr.rdRend .b2 0xFFE#12).access.off (Instr.rdRend .b2 0xFFE#12).access.width := by decide

theorem witness_ReadsHaveNoSideEffect :
    (Instr.rdCap .b2 6#13).access.dir = .read ∧ (Instr.rdIntStatus .b4).access.dir = .read ∧
      (∃ t, exec (.rdCap .b2 6#13) captured = .next t) ∧ ∃ t, exec (.rdIntStatus .b4) rendering = .next t :=
  ⟨rfl, rfl, ⟨_, rfl⟩, _, rfl⟩

/-- The last word of CAP_RAM, and each narrower access inside it. -/
theorem witness_NarrowReadsSeeLittleEndianBytes :
    (0x1FFC#13).toNat % 4 = 0 ∧ (0x1FFC#13).toNat + 4 ≤ Ram.cap.size State.reset.params ∧ 3 % Width.b1.bytes = 0 ∧
      3 + Width.b1.bytes ≤ 4 ∧ 2 % Width.b2.bytes = 0 ∧ 2 + Width.b2.bytes ≤ 4 ∧ 0 % Width.b4.bytes = 0 ∧ 0 + Width.b4.bytes ≤ 4 := by
  decide

/-- A byte changes, by each of its writers; and a clock step. -/
theorem witness_RamBytesHaveOneWriterEach :
    (∃ t, exec (.wrCap .b1 0#13 5#32) State.reset = .next t ∧ t.mem.read 0x2000 ≠ State.reset.mem.read 0x2000) ∧
      (∃ t, exec (.cmdTransform 0#28) captured = .next t ∧ t.mem.read 0x4000 ≠ captured.mem.read 0x4000) ∧
      (∃ t, exec (.wrRend .b1 0xFFF#12 5#32) State.reset = .next t ∧ t.mem.read 0x6FFF ≠ State.reset.mem.read 0x6FFF) ∧
      ∃ t, clockStep rendering = .next t :=
  ⟨⟨_, rfl, by decide⟩, ⟨_, rfl, by decide⟩, ⟨_, rfl, by decide⟩, _, rfl⟩

/-- Every branch of R68: disabled, prescaling, counting, a refresh boundary. -/
theorem witness_ClockStepRunsThePwmPart :
    State.reset.pwmLegal ∧ State.reset.rbusy = false ∧ ({ modulating with pwmDiv := 2#16 } : State).pwmLegal ∧ modulating.pwmLegal ∧
      ({ modulating with pwmCnt := 255#15 } : State).pwmLegal ∧
      ({ modulating with pwmRes := 15#4, pwmDiv := 65535#16, hPre := 65534#16, pwmCnt := 32767#15 } : State).pwmLegal ∧
      ∃ t, clockStep modulating = .next t := by
  refine ⟨by decide, by decide, by decide, by decide, by decide, by decide, _, rfl⟩

/-- Every branch of R73: idle, waiting, completing, ticking at the first and the last level, Poison. -/
theorem witness_ClockStepRunsTheRenderPart :
    State.reset.renderLegal ∧ State.reset.rbusy = false ∧ ({ rendering with hTcnt := 2#24 } : State).renderLegal ∧ rendering.rbusy = true ∧
      ({ rendering with hTcnt := 2#24 } : State).hTcnt ≠ 0#24 ∧ ({ rendering with rpos := 3#13 } : State).renderLegal ∧
      (3#13 : BitVec 13) = rendering.hRlenL ∧ rendering.renderLegal ∧ rendering.hTcnt = 0#24 ∧ rendering.rpos ≠ rendering.hRlenL ∧
      rendering.ramByte .rend rendering.rpos.toNat = some 0x20#8 ∧
      ({ rendering with rpos := 0#13 } : State).ramByte .rend 0 = some 0x10#8 ∧
      ({ rendering with rpos := 2#13 } : State).ramByte .rend 2 = some 0x30#8 ∧
      ({ rendering with mem := [] } : State).renderLegal ∧ ({ rendering with mem := [] } : State).ramMark .rend rendering.rpos.toNat = false := by
  refine ⟨?_, ?_, ?_, ?_, ?_, ?_, ?_, ?_, ?_, ?_, ?_, ?_, ?_, ?_, ?_⟩ <;> decide

theorem witness_ClockStepWritesOnlyItsFields : ∃ t, clockStep { rendering with pwmEn := true, pwmCnt := 255#15 } = .next t := ⟨_, rfl⟩

/-- Just enabled, at both ends of the legal configurations; with a render running whose bytes are written; the first boundary's clock
step; an access that leaves the modulator enabled. -/
theorem witness_PwmCountsThePeriod :
    ({ modulating with pwmCnt := 0#15 } : State).pwmLegal ∧ modulating.pwmEn = true ∧ ({ modulating with pwmCnt := 0#15 } : State).pwmCnt = 0#15 ∧
      modulating.hPre = 0#16 ∧ modulating.rbusy = false ∧
      ({ modulating with pwmCnt := 0#15, pwmRes := 15#4, pwmDiv := 65535#16 } : State).pwmLegal ∧
      ({ rendering with pwmEn := true } : State).pwmLegal ∧ rendering.rbusy = true ∧ renderContinues { rendering with pwmEn := true } ∧
      (∃ t, clockSteps 2 { rendering with pwmEn := true } = .next t) ∧
      (∃ t, clockSteps 256 { modulating with pwmCnt := 0#15 } = .next t) ∧ modulating.pwmDiv.toNat * 2 ^ modulating.pwmRes.toNat ≤ 256 ∧
      ∃ t, exec (.rdPwmCnt .b4) modulating = .next t ∧ t.pwmEn = true := by
  refine ⟨by decide, by decide, by decide, by decide, by decide, by decide, by decide, rfl, ?_, ⟨_, rfl⟩, clockSteps_idle _ _ rfl, by decide, _, rfl,
    rfl⟩
  refine fun _ => ⟨by decide, fun i _ hi => ?_⟩
  have hi : i < 3 := hi
  match i with
  | 0 | 1 | 2 => decide
  | n + 3 => omega

/-- A level that differs from the active one is taken: by an enable, and at a boundary of the clock. -/
theorem witness_ActiveLevelChangesOnlyAtARefresh :
    (∃ t, exec (.wrCtrl .b4 1#32) { State.reset with dutyCommit := 0x40#8 } = .next t ∧ t.dutyActive ≠ 0x80#8) ∧
      ∃ t, clockStep { modulating with pwmCnt := 255#15, dutyCommit := 0x30#8 } = .next t ∧ t.dutyActive ≠ modulating.dutyActive :=
  ⟨⟨_, rfl, by decide⟩, _, rfl, by decide⟩

theorem witness_CommittedLevelChangesOnlyByCommitOrTick :
    (∃ t, exec (.cmdCommit 0#28) { State.reset with dutyStage := 0xC0#8 } = .next t ∧ t.dutyCommit ≠ State.reset.dutyCommit) ∧
      (∃ t, exec (.wrCmd .b4 2#32) { State.reset with dutyStage := 0xC0#8 } = .next t ∧ t.dutyCommit ≠ State.reset.dutyCommit) ∧
      ∃ t, clockStep rendering = .next t ∧ t.dutyCommit ≠ rendering.dutyCommit :=
  ⟨⟨_, rfl, by decide⟩, ⟨_, rfl, by decide⟩, _, rfl, by decide⟩

theorem witness_SetLevelStagesAndCommits : State.reset.rbusy = false := rfl

/-- One level and one clock step per level; the second clause's indexes at their ends. -/
theorem witness_RenderKeepsItsSchedule :
    ready.rbusy = false ∧ 1 ≤ ready.rlen.toNat ∧ ready.rlen.toNat ≤ ready.params.rendLen ∧ 1 ≤ ready.tickDiv.toNat ∧
      renderReady ready ready.rlen.toNat ∧ 0 < ready.rlen.toNat ∧ 1 ≤ ready.tickDiv.toNat ∧
      renderReady { rendering with rbusy := false } 3 ∧ 2 < rendering.rlen.toNat ∧ 3 ≤ rendering.tickDiv.toNat := by
  unfold renderReady
  decide

/-- A running render under a host access, a second RENDER, a completing clock step, and a reset. -/
theorem witness_NothingStopsARenderButReset :
    rendering.rbusy = true ∧ (∃ t, exec (.wrCtrl .b4 0#32) rendering = .next t) ∧
      Claims.commandForm .cmdRender 0x3#4 (.wrCmd .b4 3#32) ∧
      (∃ t, step { rendering with rpos := 3#13 } = .next t ∧ t.rbusy = false) ∧
      ∃ t, step { rendering with inputs := [.reset] } = .next t ∧ t.rbusy = false :=
  ⟨rfl, ⟨_, rfl⟩, .inr ⟨_, rfl, by decide⟩, ⟨_, rfl, rfl⟩, _, rfl, rfl⟩

/-- RV7: three levels, a period of 256 clock steps, an interval of 256. -/
theorem witness_EveryRenderedLevelReachesTheOutput :
    let s : State := { rendering with rbusy := false, pwmEn := true, tickDiv := 256#24 }
    s.rbusy = false ∧ 1 ≤ s.rlen.toNat ∧ s.rlen.toNat ≤ s.params.rendLen ∧ 1 ≤ s.tickDiv.toNat ∧ renderReady s s.rlen.toNat ∧
      s.pwmLegal ∧ s.pwmEn = true ∧ s.pwmDiv.toNat * 2 ^ s.pwmRes.toNat ≤ s.tickDiv.toNat ∧ 2 < s.rlen.toNat := by
  unfold renderReady
  decide

/-- A run of RV2: one tick, the completion, and clock steps that change nothing. -/
def shortRun : Nat → State
  | 0 => { ready with hRlenL := 1#13, rbusy := true, inputs := [.clock] }
  | 1 => { ready with hRlenL := 1#13, rbusy := true, dutyStage := 0x55#8, dutyCommit := 0x55#8, rpos := 1#13 }
  | _ + 2 => { ready with hRlenL := 1#13, dutyStage := 0x55#8, dutyCommit := 0x55#8, rpos := 1#13, intRdone := true }

/-- The same run while the host reads ID without end: after the first clock step every clock step is followed by an access. -/
def pollingArrivals (n : Nat) : List Input := if n % 2 = 0 then [.clock] else [.transfer .mmio (encodeAccess ⟨.read, 0x0000#16, .b4, 0#32⟩)]

/-- Each state of the polling run. -/
def pollingRun : Nat → State
  | 0 => { ready with hRlenL := 1#13, rbusy := true }
  | 1 => { ready with hRlenL := 1#13, rbusy := true, dutyStage := 0x55#8, dutyCommit := 0x55#8, rpos := 1#13 }
  | 2 =>
    { ready with
      hRlenL := 1#13, rbusy := true, dutyStage := 0x55#8, dutyCommit := 0x55#8, rpos := 1#13, resp := .readData .b4 0x444D5201#32 }
  | _ + 3 =>
    { ready with
      hRlenL := 1#13, dutyStage := 0x55#8, dutyCommit := 0x55#8, rpos := 1#13, intRdone := true, resp := .readData .b4 0x444D5201#32 }

theorem pollingRun_isRun : IsRun pollingArrivals pollingRun := by
  intro n
  match n with
  | 0 => rfl
  | 1 => rfl
  | 2 => rfl
  | n + 3 =>
    unfold pollingArrivals
    split <;> rfl

theorem pollingRun_fair : ClockFair pollingArrivals pollingRun := by
  refine fun n => ⟨2 * n, by omega, ?_⟩
  have hi : ∀ m, (pollingRun m).inputs = [] := fun m => by
    match m with
    | 0 | 1 | 2 | _ + 3 => rfl
  simp [clockTurn, State.receive, hi, pollingArrivals]

theorem witness_EveryRenderCompletes :
    IsRun pollingArrivals pollingRun ∧ ClockFair pollingArrivals pollingRun ∧ (pollingRun 0).Inv ∧ .reset ∉ (pollingRun 0).inputs ∧
      (∀ n, .reset ∉ pollingArrivals n) ∧ (pollingRun 0).rbusy = true := by
  refine ⟨pollingRun_isRun, pollingRun_fair, by decide, by decide, fun n => ?_, rfl⟩
  unfold pollingArrivals
  split <;> decide

theorem witness_RunsWithFinitelyManyArrivalsAreFair : IsRun (fun _ => []) shortRun ∧ ∀ m, 0 ≤ m → (fun _ : Nat => ([] : List Input)) m = [] := by
  refine ⟨fun n => ?_, fun _ _ => rfl⟩
  match n with
  | 0 | 1 | _ + 2 => rfl

/-- Every cause of the table records an error in a clean block. -/
theorem witness_OnlyTheNamedCausesRecordAnError :
    State.reset.intErr = false ∧ rendering.intErr = false ∧ modulating.intErr = false ∧
      (∃ t, exec (.cmdRsvd4 3#2 0#28) State.reset = .next t ∧ t.intErr = true) ∧
      (∃ t, exec (.wrDutyStage .b4 1#32) rendering = .next t ∧ t.intErr = true) ∧
      (∃ t, exec (.cmdCommit 0#28) rendering = .next t ∧ t.intErr = true) ∧
      (∃ t, exec (.wrCmd .b4 3#32) rendering = .next t ∧ t.intErr = true) ∧
      (∃ t, exec (.cmdTransform 0#28) State.reset = .next t ∧ t.intErr = true) ∧
      (∃ t, exec (.cmdRender 0#28) State.reset = .next t ∧ t.intErr = true) ∧
      ∃ t, exec (.wrPwmCfg .b4 8#32) modulating = .next t ∧ t.intErr = true :=
  ⟨rfl, rfl, rfl, ⟨_, rfl, rfl⟩, ⟨_, rfl, rfl⟩, ⟨_, rfl, rfl⟩, ⟨_, rfl, rfl⟩, ⟨_, rfl, rfl⟩, ⟨_, rfl, rfl⟩, _, rfl, rfl⟩

theorem witness_FirstErrorCodeIsKept :
    ∃ t, step (({ State.reset with intErr := true, errcode := 2#4 } : State).withFetchWord 8 0x7) = .next t ∧ t.intErr = true :=
  ⟨_, rfl, rfl⟩

theorem witness_ClockSetsDoneAndHostSetsError :
    (∃ t, exec (.rdId .b4) { State.reset with intRdone := true } = .next t ∧ t.intRdone = true) ∧ ∃ t, clockStep rendering = .next t :=
  ⟨⟨_, rfl, rfl⟩, _, rfl⟩

/-- Both pending causes are cleared by one acknowledgement. -/
theorem witness_IrqIsTheEnabledPendingCauses :
    (∃ t, exec (.wrIntStatus .b4 3#32) { State.reset with intRdone := true, intErr := true, errcode := 2#4 } = .next t ∧
      t.intRdone = false ∧ t.intErr = false) ∧ ∃ t, clockStep { rendering with intRdone := true } = .next t :=
  ⟨⟨_, rfl, rfl, rfl⟩, _, rfl⟩

theorem witness_EveryStepKeepsTheInvariant :
    rendering.Inv ∧ (∃ t, step rendering = .next t) ∧ ({ captured with inputs := [.clock] } : State).Inv ∧
      ∃ t, step (captured.withFetchWord 8 0x1) = .next t :=
  ⟨by decide, ⟨_, rfl⟩, by decide, _, rfl⟩

theorem witness_ParametersAndIdentityNeverChange : ∃ t, step { small with inputs := [.reset] } = .next t := ⟨_, rfl⟩

/-- A transfer, bytes that are none, a clock edge, nothing, and a table word. -/
theorem witness_StepRunsTheDecodedAccess :
    ({ State.reset with inputs := [.transfer .cmd [1#8, 0#8, 0#8, 0#8]] } : State).inputs = [.transfer .cmd [1#8, 0#8, 0#8, 0#8]] ∧
      decode .cmd [1#8, 0#8, 0#8, 0#8] = .ok (.cmdTransform 0#28) ∧ decode .cmd [1#8] = .error (.recordLength .cmd 1) ∧
      ({ State.reset with inputs := [.clock] } : State).inputs = [.clock] ∧ State.reset.inputs = [] ∧
      decodeTableWord 24 0x00034 = some (.rdStatus .b4) := ⟨rfl, rfl, rfl, rfl, rfl, rfl⟩

/-- A window at 0x10000: its first and last byte, and the bytes beside them. -/
theorem witness_HostCyclesAreDecodedInsideTheWindow :
    let p : Params := { base := 0x10000, capPairs := 1, rendLen := 1, fClk := 1 }
    ({ State.resetWith p with inputs := [.hostCycle 0x10000 .read .b4 0#32] } : State).inputs = [.hostCycle 0x10000 .read .b4 0#32] ∧
      p.base ≤ 0x10000 ∧ 0x10000 ≤ p.base + 0xFFFF ∧ 0x1FFFF ≤ p.base + 0xFFFF ∧ 0xFFFF < p.base ∧ p.base + 0xFFFF < 0x20000 := by
  decide

theorem witness_DecodeEncodeRoundTrip :
    (Instr.rsvdWr .b2 0xFFFE#16 0xFFFF#32).wf = true ∧ (Instr.wrCap .b4 0x1FFF#13 0xFFFFFFFF#32).wf = true ∧
      (Instr.cmdRsvd8 7#3 0xFFFFFFF#28).wf = true := by decide

/-- A misaligned read, and a write from an unwritten register. -/
theorem witness_HarnessKeepsRegistersOnABusError :
    ¬ Claims.legal 0x2001#16 .b2 ∧ (startHarness State.reset []).reg 3 = none := by decide

/-- Nothing pending at the start, with accesses and clock steps that alternate for ever. -/
theorem witness_EveryInterleavingIsARun : (pollingRun 0).inputs = [] ∧ ∀ n, ∃ a, pollingArrivals n = [a] := by
  refine ⟨rfl, fun n => ?_⟩
  unfold pollingArrivals
  split <;> exact ⟨_, rfl⟩

end Sys2Proof.Tests
end

section
/-! SUPPORT. Proofs of the family 00_scope.md: a legal access is answered normally or is a Poison (R7), and no step changes a parameter
(R1). The answers are said once per shared operation, and exec only selects among them. -/

namespace Sys2Proof.Machine

/-! ## What a legal access can answer (00_scope.md R7, 20_memory.md R40) -/

/-- The normal answer of an access: a read returns data of its width, a write completes. -/
inductive NormalAnswer (w : Width) : Dir → BusResponse → Prop where
  | read (v : Word) : NormalAnswer w .read (.readData w v)
  | write : NormalAnswer w .write .writeDone

/-- What an access that passed the width and alignment check may end in: a normal answer, or a Poison on an implemented byte of `s` that
nothing has written. -/
inductive LegalOutcome (dir : Dir) (w : Width) (s : State) : Result → Prop where
  | answered (t : State) (h : NormalAnswer w dir t.resp) : LegalOutcome dir w s (.next t)
  | poison (r : Ram) (k : Nat) (hk : k < r.size s.params) (hm : s.ramMark r k = false) : LegalOutcome dir w s (.fault (.poison r k))

/-- `LegalOutcome` in the words of R7: the data of a read, the completion of a write, and the byte of a Poison. -/
theorem LegalOutcome.answered_or_poison {dir : Dir} {w : Width} {s : State} {o : Result} (h : LegalOutcome dir w s o) :
    (∃ t, o = .next t ∧ (dir = .read → ∃ v, t.resp = .readData w v) ∧ (dir = .write → t.resp = .writeDone)) ∨
      ∃ r k, o = .fault (.poison r k) ∧ k < r.size s.params ∧ s.ramMark r k = false := by
  cases h with
  | answered t h =>
    refine .inl ⟨t, rfl, ?_⟩
    generalize t.resp = a at h
    cases h with
    | read v => exact ⟨fun _ => ⟨v, rfl⟩, nofun⟩
    | write => exact ⟨nofun, fun _ => rfl⟩
  | poison r k hk hm => exact .inr ⟨r, k, rfl, hk, hm⟩

/-- The check of the model is the rule of R38 and R39 as the statements write it. -/
theorem legalAccess_iff (off : Offset) (w : Width) : legalAccess off w = true ↔ Claims.legal off w := by
  by_cases h : off.toNat < 0x1000
  · simp [legalAccess_register off w h, Claims.legal, h]
  · simp [legalAccess_ram off w (by omega), Claims.legal, h, Nat.not_lt.1 h]

/-! ### The shared operations -/

theorem complete_outcome (w : Width) (s u : State) : LegalOutcome .write w s (complete u) := .answered _ .write

theorem deliver_outcome (w : Width) (v : Word) (s u : State) : LegalOutcome .read w s (deliver w v u) := .answered _ (.read v)

/-- A command error is a normal completion (60_exceptions.md R116). -/
theorem raiseCmdError_outcome (e : ErrCode) (w : Width) (s u : State) : LegalOutcome .write w s (raiseCmdError e u) :=
  complete_outcome w s _

/-- A RAM read that fails is a Poison at an implemented byte without its mark (20_memory.md R40), whatever access it is part of. -/
theorem readBytes_error_outcome {dir : Dir} {w : Width} {s : State} {r : Ram} {i n : Nat} {f : Fault}
    (h : readBytes s r i n = .error f) : LegalOutcome dir w s (.fault f) := by
  obtain ⟨k, -, rfl, hk, hm, -⟩ := readBytes_error s r i n f h
  exact .poison r (i + k) hk hm

theorem loadRam_outcome (r : Ram) (i : Nat) (w : Width) (s : State) : LegalOutcome .read w s (loadRam r i w s) := by
  unfold loadRam
  split
  next bs _ => exact deliver_outcome w (leWord bs) s s
  next f hf => exact readBytes_error_outcome hf

/-- Legal accesses are never a bus error: what remains is the row's own operation. -/
theorem hostAccess_outcome {dir : Dir} {off : Offset} {w : Width} {op : State → Result} {s : State} (h : legalAccess off w = true)
    (hop : LegalOutcome dir w s (op s)) : LegalOutcome dir w s (hostAccess dir off w op s) :=
  hostAccess_legal dir off w op s h ▸ hop

theorem readRegister_outcome {off : Offset} {w : Width} (v : Word) (s : State) (h : legalAccess off w = true) :
    LegalOutcome .read w s (readRegister off w v s) := hostAccess_outcome h (deliver_outcome w v s s)

theorem ignoreWrite_outcome {off : Offset} {w : Width} (s : State) (h : legalAccess off w = true) :
    LegalOutcome .write w s (ignoreWrite off w s) := hostAccess_outcome h (complete_outcome w s s)

/-- A register write whose effect always completes. -/
theorem writeRegister_outcome {off : Offset} {w : Width} (f : State → State) (s : State) (h : legalAccess off w = true) :
    LegalOutcome .write w s (writeRegister off w (fun s => complete (f s)) s) := hostAccess_outcome h (complete_outcome w s (f s))

/-! ### The writes that can be refused, and the commands -/

theorem execWrDutyStage_outcome {w : Width} (d : Word) (s : State) (h : legalAccess 0x0014#16 w = true) :
    LegalOutcome .write w s (execWrDutyStage w d s) := by
  unfold execWrDutyStage writeRegister
  refine hostAccess_outcome h ?_
  split
  · exact raiseCmdError_outcome .busy w s s
  · exact complete_outcome w s _

theorem execWrPwmCfg_outcome {w : Width} (d : Word) (s : State) (h : legalAccess 0x0020#16 w = true) :
    LegalOutcome .write w s (execWrPwmCfg w d s) := by
  unfold execWrPwmCfg writeRegister
  refine hostAccess_outcome h ?_
  split
  · exact raiseCmdError_outcome .locked w s s
  · exact complete_outcome w s _

theorem transform_outcome (w : Width) (s : State) : LegalOutcome .write w s (transform s) := by
  unfold transform
  split
  · split
    next f hf => exact readBytes_error_outcome hf
    next => exact complete_outcome w s _
  · exact raiseCmdError_outcome .range w s s

theorem execCmdCommit_outcome (w : Width) (rsv : BitVec 28) (s : State) : LegalOutcome .write w s (execCmdCommit rsv s) := by
  unfold execCmdCommit
  split
  · exact raiseCmdError_outcome .busy w s s
  · exact complete_outcome w s _

theorem execCmdRender_outcome (w : Width) (rsv : BitVec 28) (s : State) : LegalOutcome .write w s (execCmdRender rsv s) := by
  unfold execCmdRender
  split_ifs
  · exact raiseCmdError_outcome .busy w s s
  · exact complete_outcome w s _
  · exact raiseCmdError_outcome .range w s s

theorem runCommand_outcome (w : Width) (d : Word) (s : State) : LegalOutcome .write w s (runCommand d s) := by
  unfold runCommand
  dsimp only
  split_ifs
  · exact complete_outcome w s s
  · exact transform_outcome w s
  · exact execCmdCommit_outcome w _ s
  · exact execCmdRender_outcome w _ s
  · exact raiseCmdError_outcome .badOp w s s
  · exact raiseCmdError_outcome .badOp w s s

/-! ### Every instruction -/

/-- Every access that passes the check ends in its operation's outcome: a normal answer or a Poison. -/
theorem exec_outcome (i : Instr) (s : State) (h : accessLegal i = true) :
    LegalOutcome i.access.dir i.access.width s (exec i s) := by
  cases i with
  | rdId w | rdCtrl w | rdCfg w | rdNpairs w | rdCmd w | rdDutyStage w | rdDutyCommit w | rdDutyActive w | rdPwmCfg w
  | rdPwmCnt w | rdTickDiv w | rdRlen w | rdRpos w | rdStatus w | rdIntStatus w | rdIntEn w =>
    exact readRegister_outcome _ s h
  | rsvdRd w off => exact hostAccess_outcome h (deliver_outcome w 0#32 s s)
  | wrId w d | wrDutyCommit w d | wrDutyActive w d | wrPwmCnt w d | wrRpos w d | wrStatus w d | rsvdWr w off d =>
    exact ignoreWrite_outcome s h
  | wrCtrl w d | wrCfg w d | wrNpairs w d | wrTickDiv w d | wrRlen w d | wrIntStatus w d | wrIntEn w d =>
    simp only [exec, execWrCtrl, execWrCfg, execWrNpairs, execWrTickDiv, execWrRlen, execWrIntStatus, execWrIntEn]
    exact writeRegister_outcome _ s h
  | wrDutyStage w d => exact execWrDutyStage_outcome d s h
  | wrPwmCfg w d => exact execWrPwmCfg_outcome d s h
  | wrCmd w d => exact hostAccess_outcome h (runCommand_outcome w d s)
  | cmdNop rsv => exact complete_outcome .b4 s s
  | cmdTransform rsv => exact transform_outcome .b4 s
  | cmdCommit rsv => exact execCmdCommit_outcome .b4 rsv s
  | cmdRender rsv => exact execCmdRender_outcome .b4 rsv s
  | cmdRsvd4 opc rsv | cmdRsvd8 opc rsv => exact raiseCmdError_outcome .badOp .b4 s s
  | rdCap w k => exact hostAccess_outcome (Ram.offset_cap k ▸ h) (loadRam_outcome .cap k.toNat w s)
  | rdOut w k => exact hostAccess_outcome (Ram.offset_out k ▸ h) (loadRam_outcome .out k.toNat w s)
  | rdRend w k => exact hostAccess_outcome (Ram.offset_rend k ▸ h) (loadRam_outcome .rend k.toNat w s)
  | wrCap w k d => exact hostAccess_outcome (Ram.offset_cap k ▸ h) (complete_outcome w s _)
  | wrOut w k d => exact ignoreWrite_outcome s (Ram.offset_out k ▸ h)
  | wrRend w k d => exact hostAccess_outcome (Ram.offset_rend k ▸ h) (complete_outcome w s _)

/-- Settles O27: every row's operation ends in a normal answer or a Poison once its check has passed (`exec_outcome`). -/
theorem legalAccessIsAnsweredOrPoison : Obligations.LegalAccessIsAnsweredOrPoison := by
  unfold Obligations.LegalAccessIsAnsweredOrPoison
  intro i s h
  exact (exec_outcome i s ((legalAccess_iff _ _).2 h)).answered_or_poison

/-! ## Parameters and identity (00_scope.md R1, 10_state.md R14) -/

/-- No step of an agent changes a parameter: not a clock edge, a reset, an access, or a bus cycle the block does not decode. -/
theorem step_params (s t : State) (h : step s = .next t) : t.params = s.params := by
  rcases step_cases s t h with ⟨-, hc⟩ | ⟨rest, -, rfl⟩ | ⟨i, -, hi⟩ | ⟨addr, dir, w, d, -, -, rfl⟩
  · obtain ⟨r, -, rfl⟩ := (clockStep_next _ _).1 hc
    exact applyClock_params _ _ _
  · rfl
  · exact (exec_keeps i _ t hi).1
  · rfl

/-- RD.ID returns the constant of R14 in every state. -/
theorem exec_rdId (s : State) : exec (.rdId .b4) s = .next { s with resp := .readData .b4 0x444D5201#32 } :=
  hostAccess_legal .read 0x0000#16 .b4 (deliver .b4 Config.idValue) s (by decide)

/-- Settles O49: each case of `step_cases` keeps the parameters, and RD.ID does not read the state. -/
theorem parametersAndIdentityNeverChange : Obligations.ParametersAndIdentityNeverChange := by
  unfold Obligations.ParametersAndIdentityNeverChange
  exact fun s t h => ⟨step_params s t h, exec_rdId t⟩

end Sys2Proof.Machine
end

section
/-! SUPPORT. Proofs of the family 10_state.md: the invariant of R34 at reset and over every step, the writers of the RAM bytes and of the
levels, and the runs of R9 and R11. What a host access does is read off `HostEffect`, what a clock step does off `renderPart_cases` and the
`pwmPart` lemmas. -/

namespace Sys2Proof.Machine

/-! ## The invariant at reset (10_state.md R34, 70_reset_and_hazards.md R130) -/

/-- The invariant reads no pending input and no answer, so it holds of the reset state whatever is pending. -/
theorem resetWith_inv (p : Params) : (State.resetWith p).Inv :=
  ⟨⟨Nat.le_refl 8, Nat.le_refl 1, Nat.zero_le _, Nat.zero_le _, fun _ => ⟨rfl, rfl⟩⟩,
    ⟨Nat.le_refl 1, fun hb => absurd hb Bool.false_ne_true⟩, ⟨iff_of_true rfl rfl, Nat.zero_le _⟩, rfl, nofun⟩

/-- Settles O2: `State.reset` is one of the reset states of `resetWith_inv`. -/
theorem resetStateIsLegal : Obligations.ResetStateIsLegal := by
  unfold Obligations.ResetStateIsLegal
  exact ⟨resetWith_inv Config.params, resetWith_inv⟩

/-! ## The invariant over a host access -/

/-- `PWM_CFG.RES` is at least 8 after every write (R22). -/
theorem resField_ge (d : Word) : 8 ≤ (resField d).toNat := by
  unfold resField
  split
  · decide
  · omega

/-- A field whose 0 is stored as 1 is never 0 (R22, R24). -/
theorem ite_zero_one_pos {n : Nat} (x : BitVec n) (hn : 0 < n) : 1 ≤ (if x = 0#n then 1#n else x).toNat := by
  split
  · simp [hn]
  next h => exact Nat.one_le_iff_ne_zero.2 fun h0 => h (BitVec.eq_of_toNat_eq h0)

/-- Enabling or disabling the modulator clears its counters, and a disabled modulator has them clear (R67). -/
theorem setPwmEnable_pwmLegal (b : Bool) (s : State) (h : s.pwmLegal) : (setPwmEnable b s).pwmLegal := by
  obtain ⟨hres, hdiv, hcnt, hpre, hoff⟩ := h
  unfold setPwmEnable
  split_ifs
  · exact ⟨hres, hdiv, Nat.zero_le _, Nat.zero_le _, fun _ => ⟨rfl, rfl⟩⟩
  · exact ⟨hres, hdiv, Nat.zero_le _, Nat.zero_le _, fun _ => ⟨rfl, rfl⟩⟩
  · exact ⟨hres, hdiv, hcnt, hpre, hoff⟩

/-- The modulator's part of R34: PWM_CFG is only written while the counters are clear (R66). -/
theorem HostEffect.pwmLegal {s : State} {i : Instr} {u : State} (he : HostEffect s i u) (h : s.pwmLegal) : u.pwmLegal := by
  induction he with
  | ctrl d => exact setPwmEnable_pwmLegal _ s h
  | pwmCfg d hen =>
    obtain ⟨-, -, -, -, hoff⟩ := h
    obtain ⟨hcnt, hpre⟩ := hoff hen
    refine ⟨resField_ge d, ite_zero_one_pos _ (by decide), ?_, ?_, fun _ => ⟨hcnt, hpre⟩⟩
    · simp [hcnt]
    · simp [hpre]
  | transform | cap | rend => rw [storeBytes_eq]; exact h
  | command d u _ ih => exact ih
  | _ => exact h

/-- A started render latches a length in range and an interval of at least 1 (R72). -/
theorem startRender_renderLegal (s : State) (hlen : lengthInRange s = true) (h : s.renderLegal) : (startRender s).renderLegal := by
  simp only [lengthInRange, Bool.and_eq_true, decide_eq_true_eq] at hlen
  exact ⟨h.1, fun _ => ⟨Nat.zero_le _, Nat.one_le_iff_ne_zero.2 hlen.1, hlen.2, Nat.zero_le _, h.1⟩⟩

/-- The render's part of R34. -/
theorem HostEffect.renderLegal {s : State} {i : Instr} {u : State} (he : HostEffect s i u) (h : s.renderLegal) : u.renderLegal := by
  induction he with
  | ctrl d => simpa [State.renderLegal] using h
  | tickDiv d => exact ⟨ite_zero_one_pos _ (by decide), h.2⟩
  | render rsv _ hlen => exact startRender_renderLegal s hlen h
  | transform | cap | rend => rw [storeBytes_eq]; exact h
  | command d u _ ih => exact ih
  | _ => exact h

/-- A recorded error has a code of R115, the first one kept (R116). -/
theorem recordCmdError_errorLegal (e : ErrCode) (s : State) (h : s.errorLegal) : (recordCmdError e s).errorLegal := by
  obtain ⟨hiff, hle⟩ := h
  cases herr : s.intErr with
  | true => simpa [State.errorLegal, herr] using And.intro (by simpa [herr] using hiff) hle
  | false => cases e <;> simp [State.errorLegal, herr, ErrCode.bits]

/-- An acknowledgement of ERR clears the code with it, one of RDONE alone touches neither (R120). -/
theorem acknowledge_errorLegal (x y : Bool) (s : State) (h : s.errorLegal) : (acknowledge x y s).errorLegal := by
  cases y with
  | true => simp [State.errorLegal]
  | false => simpa [State.errorLegal] using h

/-- The error record's part of R34. -/
theorem HostEffect.errorLegal {s : State} {i : Instr} {u : State} (he : HostEffect s i u) (h : s.errorLegal) : u.errorLegal := by
  induction he with
  | ctrl d => simpa [State.errorLegal] using h
  | stageBusy | pwmCfgLocked | transformRange | commitBusy | renderBusy | renderRange | rsvd4 | rsvd8 =>
    exact recordCmdError_errorLegal _ s h
  | intStatus d => exact acknowledge_errorLegal _ _ s h
  | transform | cap | rend => rw [storeBytes_eq]; exact h
  | command d u _ ih => exact ih
  | _ => exact h

/-- The RAM contents stay canonical and implemented: the only writers are stores. -/
theorem HostEffect.memLegal {s : State} {i : Instr} {u : State} (he : HostEffect s i u) (h : s.memLegal) : u.memLegal := by
  induction he with
  | ctrl d => simpa [State.memLegal] using h
  | transform | cap | rend => exact storeBytes_memLegal _ _ _ s h
  | command d u _ ih => exact ih
  | _ => exact h

/-- Every host access keeps the invariant. -/
theorem exec_inv {i : Instr} {s t : State} (h : exec i s = .next t) (hs : s.Inv) : t.Inv := by
  obtain ⟨hpwm, hrender, herror, hmem⟩ := hs
  obtain ⟨u, r, he, rfl⟩ := exec_effect i s t h
  exact ⟨he.pwmLegal hpwm, he.renderLegal hrender, he.errorLegal herror, he.memLegal hmem⟩

/-! ## The invariant over a clock step -/

/-- The counters stay inside their period (R68). -/
theorem applyClock_pwmLegal (s : State) (r : RenderWrites) (h : s.pwmLegal) : (applyClock s r (pwmPart s)).pwmLegal := by
  obtain ⟨hres, hdiv, hcnt, hpre, hoff⟩ := h
  cases hen : s.pwmEn with
  | false => rw [pwmPart_off s hen]; exact ⟨hres, hdiv, hcnt, hpre, hoff⟩
  | true =>
    have hon : s.pwmEn ≠ false := by simp [hen]
    by_cases hfull : s.hPre.toNat + 1 = s.pwmDiv.toNat
    · by_cases hlast : s.pwmCnt.toNat = 2 ^ s.pwmRes.toNat - 1
      · rw [pwmPart_refresh s hen hfull hlast]
        exact ⟨hres, hdiv, Nat.zero_le _, Nat.zero_le _, fun hf => absurd hf hon⟩
      · rw [pwmPart_count s hen hfull hlast]
        refine ⟨hres, hdiv, ?_, Nat.zero_le _, fun hf => absurd hf hon⟩
        show (s.pwmCnt + 1#15).toNat ≤ 2 ^ s.pwmRes.toNat - 1
        rw [BitVec.toNat_add]
        exact (Nat.mod_le _ _).trans (show s.pwmCnt.toNat + 1 ≤ _ by omega)
    · rw [pwmPart_prescale s hen hfull]
      refine ⟨hres, hdiv, hcnt, ?_, fun hf => absurd hf hon⟩
      show (s.hPre + 1#16).toNat ≤ s.pwmDiv.toNat - 1
      bv_omega

/-- A running render stays inside its length and its interval (R73). -/
theorem applyClock_renderLegal (s : State) (r : RenderWrites) (p : PwmWrites) (hr : renderPart s = .ok r) (h : s.renderLegal) :
    (applyClock s r p).renderLegal := by
  obtain ⟨htick, hrun⟩ := h
  refine ⟨htick, fun hb => ?_⟩
  rcases renderPart_cases s r hr with ⟨hidle, rfl⟩ | ⟨hbusy, hwait, rfl⟩ | ⟨-, -, -, rfl⟩ | ⟨b, hbusy, -, hpos, -, rfl⟩
  · exact hrun hb
  · obtain ⟨hle, hlen, hmax, hcnt, hdiv⟩ := hrun hbusy
    refine ⟨hle, hlen, hmax, ?_, hdiv⟩
    show (s.hTcnt - 1#24).toNat ≤ s.hTdivL.toNat - 1
    bv_omega
  · exact absurd hb Bool.false_ne_true
  · obtain ⟨hle, hlen, hmax, -, hdiv⟩ := hrun hbusy
    refine ⟨?_, hlen, hmax, ?_, hdiv⟩
    · show (s.rpos + 1#13).toNat ≤ s.hRlenL.toNat
      bv_omega
    · show (s.hTdivL - 1#24).toNat ≤ s.hTdivL.toNat - 1
      bv_omega

/-- Every clock step keeps the invariant; it touches neither the error record nor the RAMs. -/
theorem clockStep_inv {s t : State} (h : clockStep s = .next t) (hs : s.Inv) : t.Inv := by
  obtain ⟨hpwm, hrender, herror, hmem⟩ := hs
  obtain ⟨r, hr, rfl⟩ := (clockStep_next s t).1 h
  exact ⟨applyClock_pwmLegal s r hpwm, applyClock_renderLegal s r _ hr hrender, herror, hmem⟩

/-! ## The invariant over a step of the machine -/

/-- Every step keeps the invariant: a clock step, a reset, a host access, or a bus cycle the block does not decode. -/
theorem step_inv {s t : State} (h : step s = .next t) (hs : s.Inv) : t.Inv := by
  rcases step_cases s t h with ⟨-, hc⟩ | ⟨rest, -, rfl⟩ | ⟨i, -, hi⟩ | ⟨addr, dir, w, d, -, -, rfl⟩
  · exact clockStep_inv hc hs
  · exact resetWith_inv s.params
  · exact exec_inv hi hs
  · exact hs

/-- Settles O48: the four parts of the invariant are kept by every effect of a host access and by both parts of a clock step. -/
theorem everyStepKeepsTheInvariant : Obligations.EveryStepKeepsTheInvariant := by
  unfold Obligations.EveryStepKeepsTheInvariant
  exact fun s t hs h => step_inv h hs

/-! ## Commands and their CMD words (30_encoding.md R49) -/

/-- The row a CMD word selects is a command row. -/
theorem decodeCmdWord_format (d : Word) : (decodeCmdWord d).format = .cmd := by
  unfold decodeCmdWord
  dsimp only
  split_ifs <;> rfl

/-- The row a CMD word selects carries the whole word, its reserved bits included. -/
theorem decodeCmdWord_data (d : Word) : (decodeCmdWord d).access.data = d := by
  have hsplit : d.extractLsb' 4 28 ++ d.extractLsb' 0 4 = d := BitVec.extractLsb'_append_extractLsb' (w := 28)
  unfold decodeCmdWord
  dsimp only
  split_ifs <;>
  · refine (congrArg (d.extractLsb' 4 28 ++ ·) ?_).trans hsplit
    clear hsplit
    generalize d.extractLsb' 0 4 = opc at *
    revert opc
    decide

/-- A command of opcode `opc` that a CMD word selects is that command in its `WR.CMD` form too. -/
theorem commandForm_wrCmd {mk : BitVec 28 → Instr} {opc : BitVec 4} (hmk : ∀ rsv, (mk rsv).access.data = rsv ++ opc) {d : Word}
    (h : Claims.commandForm mk opc (decodeCmdWord d)) : Claims.commandForm mk opc (.wrCmd .b4 d) := by
  rcases h with ⟨rsv, h⟩ | ⟨d', h, -⟩
  · have hd : d = rsv ++ opc := by rw [← decodeCmdWord_data d, h, hmk]
    exact .inr ⟨d, rfl, by rw [hd]; exact BitVec.extractLsb'_append_eq_right⟩
  · have hf := decodeCmdWord_format d
    rw [h] at hf
    cases hf

/-! ## Who writes what (10_state.md R10, R20, R21, R30 to R32) -/

/-- A store changes implemented bytes of its RAM only. -/
theorem storeBytes_changed {r : Ram} {i : Nat} {bs : List Byte} {s : State} {a : Nat}
    (h : (storeBytes r i bs s).mem.read a ≠ s.mem.read a) : r.addr 0 ≤ a ∧ a < r.addr (r.size s.params) := by
  rw [storeBytes_read] at h
  have hin : r.addr i ≤ a ∧ a < r.addr i + bs.length ∧ a < r.addr 0 + r.size s.params := by
    by_contra hout
    exact h (if_neg hout)
  simp only [Ram.addr] at hin ⊢
  omega

/-- The host's accesses that change a RAM byte: one writer for each RAM, inside its implemented bytes. -/
theorem HostEffect.ram_writer {s : State} {i : Instr} {u : State} {a : Nat} (he : HostEffect s i u) (h : u.mem.read a ≠ s.mem.read a) :
    (Ram.cap.addr 0 ≤ a ∧ a < Ram.cap.addr (Ram.cap.size s.params) ∧ ∃ w k d, i = .wrCap w k d) ∨
    (Ram.out.addr 0 ≤ a ∧ a < Ram.out.addr (Ram.out.size s.params) ∧ Claims.commandForm .cmdTransform 0x1#4 i) ∨
    (Ram.rend.addr 0 ≤ a ∧ a < Ram.rend.addr (Ram.rend.size s.params) ∧ ∃ w k d, i = .wrRend w k d) := by
  induction he with
  | cap w k d =>
    obtain ⟨hlo, hhi⟩ := storeBytes_changed h
    exact .inl ⟨hlo, hhi, w, k, d, rfl⟩
  | transform rsv =>
    obtain ⟨hlo, hhi⟩ := storeBytes_changed h
    exact .inr (.inl ⟨hlo, hhi, .inl ⟨rsv, rfl⟩⟩)
  | rend w k d =>
    obtain ⟨hlo, hhi⟩ := storeBytes_changed h
    exact .inr (.inr ⟨hlo, hhi, w, k, d, rfl⟩)
  | ctrl d => exact absurd (by rw [setPwmEnable_mem]) h
  | command d u _ ih =>
    rcases ih h with ⟨-, -, w, k, x, hi⟩ | ⟨hlo, hhi, hi⟩ | ⟨-, -, w, k, x, hi⟩
    · exact absurd (hi ▸ decodeCmdWord_format d) nofun
    · exact .inr (.inl ⟨hlo, hhi, commandForm_wrCmd (fun _ => rfl) hi⟩)
    · exact absurd (hi ▸ decodeCmdWord_format d) nofun
  | _ => exact absurd rfl h

/-- Settles O30: only the three stores of `HostEffect` write memory, and a clock step writes none. -/
theorem ramBytesHaveOneWriterEach : Obligations.RamBytesHaveOneWriterEach := by
  unfold Obligations.RamBytesHaveOneWriterEach
  refine ⟨fun i s t a h hne => ?_, fun s t h => ?_⟩
  · obtain ⟨u, r, he, rfl⟩ := exec_effect i s t h
    exact he.ram_writer hne
  · obtain ⟨r, -, rfl⟩ := (clockStep_next s t).1 h
    exact applyClock_mem _ _ _

/-- Settles O33: `applyClock` writes R10's fields, and the PWM part reads DUTY_COMMIT of the state before the edge. -/
theorem clockStepWritesOnlyItsFields : Obligations.ClockStepWritesOnlyItsFields := by
  unfold Obligations.ClockStepWritesOnlyItsFields
  intro s t h
  obtain ⟨r, -, rfl⟩ := (clockStep_next s t).1 h
  refine ⟨rfl, ?_⟩
  rw [applyClock_dutyActive, pwmPart_active]
  split
  · exact .inr rfl
  · exact .inl rfl

/-- A write of CTRL that changes the active level is the one that enables the modulator (R67). -/
theorem setPwmEnable_changes_active {b : Bool} {s : State} (h : (setPwmEnable b s).dutyActive ≠ s.dutyActive) :
    (setPwmEnable b s).dutyActive = s.dutyCommit ∧ s.pwmEn = false ∧ b = true := by
  unfold setPwmEnable at h ⊢
  split_ifs at h ⊢ with hon
  · exact ⟨rfl, hon⟩
  · exact absurd rfl h
  · exact absurd rfl h

/-- The host's one access that changes the active level. -/
theorem HostEffect.active_writer {s : State} {i : Instr} {u : State} (he : HostEffect s i u) (h : u.dutyActive ≠ s.dutyActive) :
    u.dutyActive = s.dutyCommit ∧ s.pwmEn = false ∧ u.pwmEn = true ∧ ∃ d, i = .wrCtrl .b4 d := by
  induction he with
  | ctrl d =>
    obtain ⟨hlevel, hoff, hon⟩ := setPwmEnable_changes_active h
    exact ⟨hlevel, hoff, by rw [setPwmEnable_pwmEn, hon], d, rfl⟩
  | transform | cap | rend => exact absurd (storeBytes_dutyActive _ _ _ _) h
  | command d u _ ih =>
    obtain ⟨-, -, -, x, hi⟩ := ih h
    exact absurd (hi ▸ decodeCmdWord_format d) nofun
  | _ => exact absurd rfl h

/-- Settles O36: the enable of the host, and the refresh boundary of `pwmPart_active`. -/
theorem activeLevelChangesOnlyAtARefresh : Obligations.ActiveLevelChangesOnlyAtARefresh := by
  unfold Obligations.ActiveLevelChangesOnlyAtARefresh
  refine ⟨fun i s t h hne => ?_, fun s t h hne => ?_⟩
  · obtain ⟨u, r, he, rfl⟩ := exec_effect i s t h
    exact he.active_writer hne
  · obtain ⟨r, -, rfl⟩ := (clockStep_next s t).1 h
    rw [applyClock_dutyActive, pwmPart_active] at hne ⊢
    split_ifs at hne ⊢ with hb
    · exact ⟨rfl, (refreshBoundary_iff s).1 hb⟩
    · exact absurd rfl hne

/-- The host's one command that changes the committed level (R64). -/
theorem HostEffect.commit_writer {s : State} {i : Instr} {u : State} (he : HostEffect s i u) (h : u.dutyCommit ≠ s.dutyCommit) :
    Claims.commandForm .cmdCommit 0x2#4 i ∧ s.rbusy = false ∧ u.dutyCommit = s.dutyStage := by
  induction he with
  | commit rsv hidle => exact ⟨.inl ⟨rsv, rfl⟩, hidle, rfl⟩
  | ctrl d => exact absurd (setPwmEnable_dutyCommit _ _) h
  | transform | cap | rend => exact absurd (storeBytes_dutyCommit _ _ _ _) h
  | command d u _ ih =>
    obtain ⟨hi, hrest⟩ := ih h
    exact ⟨commandForm_wrCmd (fun _ => rfl) hi, hrest⟩
  | _ => exact absurd rfl h

/-- Settles O37: COMMIT of the host, and of the render part's cases only the tick. -/
theorem committedLevelChangesOnlyByCommitOrTick : Obligations.CommittedLevelChangesOnlyByCommitOrTick := by
  unfold Obligations.CommittedLevelChangesOnlyByCommitOrTick
  refine ⟨fun i s t h hne => ?_, fun s t h hne => ?_⟩
  · obtain ⟨u, r, he, rfl⟩ := exec_effect i s t h
    exact he.commit_writer hne
  · obtain ⟨r, hr, rfl⟩ := (clockStep_next s t).1 h
    rcases renderPart_cases s r hr with ⟨-, rfl⟩ | ⟨-, -, rfl⟩ | ⟨-, -, -, rfl⟩ | ⟨b, hbusy, htick, hpos, hb, rfl⟩
    · exact absurd rfl hne
    · exact absurd rfl hne
    · exact absurd rfl hne
    · exact ⟨hbusy, htick, hpos, hb⟩

/-! ## Pending inputs and runs (10_state.md R9, R11) -/

/-- Settles O50: each clause is one row of `step` and `runInput`. -/
theorem stepRunsTheDecodedAccess : Obligations.StepRunsTheDecodedAccess := by
  unfold Obligations.StepRunsTheDecodedAccess
  refine ⟨fun s f bytes rest i hin hd => ?_, fun s f bytes rest e hin hd => ?_, fun s rest hin => ?_, fun s hin => ?_,
    fun s nbits w i hd => ?_⟩
  · simp [step, hin, runInput, runTransfer, hd]
  · simp [step, hin, runInput, runTransfer, hd]
  · simp [step, hin, runInput]
  · simp [step, hin]
  · unfold decodeTableWord at hd
    split at hd
    next j hj =>
      cases hd
      simp [step, State.withFetchWord, State.offer, runInput, runTransfer, hj]
    next => cases hd

/-- A step takes the input pending first, if any, and no other. -/
theorem step_inputs (s t : State) (h : step s = .next t) : t.inputs = s.inputs.tail := by
  unfold step at h
  split at h
  next hin => rw [runInput_inputs .clock s t h, hin, List.tail_nil]
  next a rest hin => rw [runInput_inputs a _ t h, hin, List.tail_cons]

/-- One step of a run: the inputs that stay pending. -/
theorem IsRun.inputs_succ {arrive : Nat → List Input} {run : Nat → State} (hrun : IsRun arrive run) (n : Nat) :
    (run (n + 1)).inputs = ((run n).inputs ++ arrive n).tail := step_inputs _ _ (hrun n)

/-- Settles O56: one input arrives and one is taken in each step, so nothing is pending before any of them. -/
theorem everyInterleavingIsARun : Obligations.EveryInterleavingIsARun := by
  unfold Obligations.EveryInterleavingIsARun
  intro agent run hstart
  constructor
  · intro hrun n
    have hin : (run n).inputs = [] := by
      induction n with
      | zero => exact hstart
      | succ n ih => rw [hrun.inputs_succ, ih]; rfl
    rw [← step_receive_one _ _ hin]
    exact hrun n
  · intro hagents n
    have hin : (run n).inputs = [] := by
      induction n with
      | zero => exact hstart
      | succ n ih => rw [runInput_inputs _ _ _ (hagents n), ih]
    exact (step_receive_one _ _ hin).trans (hagents n)

/-- Once nothing arrives, each step leaves one pending input fewer. -/
theorem IsRun.inputs_drop {arrive : Nat → List Input} {run : Nat → State} (hrun : IsRun arrive run) {n : Nat}
    (hquiet : ∀ m, n ≤ m → arrive m = []) (k : Nat) : (run (n + k)).inputs = (run n).inputs.drop k := by
  induction k with
  | zero => rfl
  | succ k ih =>
    rw [← Nat.add_assoc, hrun.inputs_succ, ih, hquiet _ (Nat.le_add_right n k), List.append_nil, List.tail_drop]

/-- Settles O43: after as many further steps as inputs are pending none is, and the clock steps. -/
theorem runsWithFinitelyManyArrivalsAreFair : Obligations.RunsWithFinitelyManyArrivalsAreFair := by
  unfold Obligations.RunsWithFinitelyManyArrivalsAreFair
  intro arrive run n hrun hquiet k
  have hlater : ∀ m, max n k ≤ m → arrive m = [] := fun m hm => hquiet m (by omega)
  refine ⟨max n k + (run (max n k)).inputs.length, by omega, ?_⟩
  simp [clockTurn, hrun.inputs_drop hlater, hlater]

/-! ## A fair run completes its render (42_render.md R75, 10_state.md R11) -/

/-- How many clock steps a running render still takes before the one that completes it (R74). -/
def clocksLeft (s : State) : Nat := (s.hRlenL.toNat - s.rpos.toNat) * s.hTdivL.toNat + s.hTcnt.toNat

/-- No host access stops a running render or changes how long it still takes (R75). -/
theorem HostEffect.keeps_render {s : State} {i : Instr} {u : State} (he : HostEffect s i u) (hbusy : s.rbusy = true) :
    u.rbusy = true ∧ clocksLeft u = clocksLeft s := by
  induction he with
  | ctrl d => simp [clocksLeft, hbusy]
  | transform | cap | rend => simp [clocksLeft, hbusy]
  | render rsv hidle => rw [hidle] at hbusy; cases hbusy
  | command d u _ ih => exact ih
  | _ => exact ⟨hbusy, rfl⟩

/-- A clock step completes a running render or brings it one clock step nearer to its end (R73). -/
theorem clockStep_render {s t : State} (h : clockStep s = .next t) (hs : s.renderLegal) (hbusy : s.rbusy = true) :
    (t.rbusy = false ∧ t.intRdone = true) ∨ (t.rbusy = true ∧ clocksLeft t < clocksLeft s) := by
  obtain ⟨hle, -, -, -, hdiv⟩ := hs.2 hbusy
  obtain ⟨r, hr, rfl⟩ := (clockStep_next s t).1 h
  rcases renderPart_cases s r hr with ⟨hidle, -⟩ | ⟨-, hwait, rfl⟩ | ⟨-, -, -, rfl⟩ | ⟨b, -, htick, hpos, -, rfl⟩
  · rw [hidle] at hbusy; cases hbusy
  · refine .inr ⟨hbusy, Nat.add_lt_add_left ?_ _⟩
    show (s.hTcnt - 1#24).toNat < s.hTcnt.toNat
    bv_omega
  · exact .inl ⟨rfl, rfl⟩
  · refine .inr ⟨hbusy, ?_⟩
    have hnext : (s.rpos + 1#13).toNat = s.rpos.toNat + 1 := by bv_omega
    have hcnt : (s.hTdivL - 1#24).toNat = s.hTdivL.toNat - 1 := by bv_omega
    have hlt : s.rpos.toNat < s.hRlenL.toNat := by bv_omega
    have hleft : s.hRlenL.toNat - s.rpos.toNat = (s.hRlenL.toNat - (s.rpos.toNat + 1)) + 1 := by omega
    simp only [clocksLeft, applyClock_hRlenL, applyClock_hTdivL, applyClock_rpos, applyClock_hTcnt, hnext, hcnt, htick, hleft,
      Nat.succ_mul]
    omega

/-- Without a reset, a step of the machine completes a running render or keeps it running, a clock step nearer to its end if it was one. -/
theorem step_render {s t : State} (h : step s = .next t) (hs : s.renderLegal) (hbusy : s.rbusy = true) (hreset : .reset ∉ s.inputs) :
    (t.rbusy = false ∧ t.intRdone = true) ∨
      (t.rbusy = true ∧ clocksLeft t ≤ clocksLeft s ∧ (clockTurn s = true → clocksLeft t < clocksLeft s)) := by
  rcases step_cases s t h with ⟨-, hc⟩ | ⟨rest, hin, -⟩ | ⟨i, hhost, hi⟩ | ⟨addr, dir, w, d, hin, -, rfl⟩
  · exact (clockStep_render hc hs hbusy).imp_right fun ⟨hb, hlt⟩ => ⟨hb, Nat.le_of_lt hlt, fun _ => hlt⟩
  · exact absurd (hin ▸ List.mem_cons_self) hreset
  · obtain ⟨u, r, he, rfl⟩ := exec_effect i _ t hi
    obtain ⟨hb, hleft⟩ := he.keeps_render hbusy
    exact .inr ⟨hb, Nat.le_of_eq hleft, fun hc => by rw [hc] at hhost; cases hhost⟩
  · refine .inr ⟨hbusy, Nat.le_refl _, fun hc => ?_⟩
    simp only [clockTurn, Bool.or_eq_true, decide_eq_true_eq, hin] at hc
    rcases hc with hnone | hclock
    · rw [hnone] at hin; cases hin
    · cases hclock

/-- If no reset is pending or arrives, none is ever pending. -/
theorem IsRun.no_reset {arrive : Nat → List Input} {run : Nat → State} (hrun : IsRun arrive run) (hstart : .reset ∉ (run 0).inputs)
    (harrive : ∀ n, .reset ∉ arrive n) (n : Nat) : .reset ∉ (run n).inputs ++ arrive n := by
  have pending : .reset ∉ (run n).inputs := by
    induction n with
    | zero => exact hstart
    | succ n ih =>
      rw [hrun.inputs_succ]
      exact fun hm => (List.mem_append.1 (List.mem_of_mem_tail hm)).elim ih (harrive n)
  exact fun hm => (List.mem_append.1 hm).elim pending (harrive n)

/-- Settles O42: while the render runs, `clocksLeft` never grows and falls at every clock step, so past the step where it is least the next
clock step, which fairness gives, must complete the render. -/
theorem everyRenderCompletes : Obligations.EveryRenderCompletes := by
  unfold Obligations.EveryRenderCompletes
  intro arrive run hrun hfair hinv hreset harrive hbusy
  by_contra hnever
  have advance : ∀ n, (run n).Inv ∧ (run n).rbusy = true → (run (n + 1)).rbusy = true ∧
      clocksLeft (run (n + 1)) ≤ clocksLeft (run n) ∧
      (clockTurn ((run n).receive (arrive n)) = true → clocksLeft (run (n + 1)) < clocksLeft (run n)) := by
    rintro n ⟨⟨-, hrender, -, -⟩, hb⟩
    exact (step_render (hrun n) hrender hb (hrun.no_reset hreset harrive n)).resolve_left
      fun ⟨hoff, hdone⟩ => hnever ⟨n, hb, hoff, hdone⟩
  have running : ∀ n, (run n).Inv ∧ (run n).rbusy = true := by
    intro n
    induction n with
    | zero => exact ⟨hinv, hbusy⟩
    | succ n ih => exact ⟨step_inv (hrun n) ih.1, (advance n ih).1⟩
  have falling : Antitone fun n => clocksLeft (run n) := antitone_nat_of_succ_le fun n => (advance n (running n)).2.1
  obtain ⟨least, hleast⟩ : ∃ k, ∀ n, clocksLeft (run k) ≤ clocksLeft (run n) :=
    ⟨_, fun n => Function.argmin_le (fun n => clocksLeft (run n)) n⟩
  obtain ⟨m, hm, hclock⟩ := hfair least
  have hlt : clocksLeft (run (m + 1)) < clocksLeft (run least) := ((advance m (running m)).2.2 hclock).trans_le (falling hm)
  exact absurd (hleast (m + 1)) (Nat.not_le.2 hlt)

end Sys2Proof.Machine
end

section
/-! SUPPORT. Proofs of the family 20_memory.md: illegal accesses (R38, R39), reads without side effect (R41), byte order (R37) and the
window of the host's bus (R35). A RAM read returns what a store left there, and no read depends on the answer standing on the bus. -/

namespace Sys2Proof.Machine

/-! ## Illegal accesses (20_memory.md R38, R39) -/

/-- A register write of illegal width or alignment is a bus error and nothing else. -/
theorem writeRegister_illegal {off : Offset} {w : Width} {op : State → Result} (s : State) (h : legalAccess off w = false) :
    writeRegister off w op s = .next (s.respond (.busError off w .write)) := hostAccess_illegal .write off w op s h

/-- Every row checks its own descriptor before anything else; a command's descriptor always passes. -/
theorem exec_illegal (i : Instr) (s : State) (h : accessLegal i = false) :
    exec i s = .next (s.respond (.busError i.access.off i.access.width i.access.dir)) := by
  cases i with
  | cmdNop rsv | cmdTransform rsv | cmdCommit rsv | cmdRender rsv | cmdRsvd4 opc rsv | cmdRsvd8 opc rsv =>
    have hpass : legalAccess 0x0010#16 .b4 = true := by decide
    cases hpass.symm.trans h
  | rdCap w k | wrCap w k d =>
    simp only [accessLegal, Instr.access, ← Ram.offset_cap] at h ⊢
    exact hostAccess_illegal _ _ _ _ s h
  | rdOut w k | wrOut w k d =>
    simp only [accessLegal, Instr.access, ← Ram.offset_out] at h ⊢
    exact hostAccess_illegal _ _ _ _ s h
  | rdRend w k | wrRend w k d =>
    simp only [accessLegal, Instr.access, ← Ram.offset_rend] at h ⊢
    exact hostAccess_illegal _ _ _ _ s h
  | wrCtrl w d | wrCfg w d | wrNpairs w d | wrDutyStage w d | wrPwmCfg w d | wrTickDiv w d | wrRlen w d | wrIntStatus w d
  | wrIntEn w d =>
    simp only [exec, execWrCtrl, execWrCfg, execWrNpairs, execWrDutyStage, execWrPwmCfg, execWrTickDiv, execWrRlen, execWrIntStatus,
      execWrIntEn]
    exact writeRegister_illegal s h
  | _ => exact hostAccess_illegal _ _ _ _ s h

/-- Settles O26: an access of illegal width or alignment fails its row's check (`exec_illegal`), and the bus has three widths. -/
theorem illegalAccessIsABusErrorAndNothingElse : Obligations.IllegalAccessIsABusErrorAndNothingElse := by
  unfold Obligations.IllegalAccessIsABusErrorAndNothingElse
  refine ⟨fun i s h => exec_illegal i s ?_, fun w => ?_⟩
  · exact Bool.eq_false_iff.2 fun hl => h ((legalAccess_iff _ _).1 hl)
  · cases w with
    | b1 => exact .inl rfl
    | b2 => exact .inr (.inl rfl)
    | b4 => exact .inr (.inr rfl)

/-! ## Reads have no side effect (20_memory.md R41) -/

/-- The bytes of a RAM do not depend on the answer standing on the bus. -/
@[simp] theorem readBytes_respond (a : BusResponse) (s : State) (r : Ram) (i n : Nat) :
    readBytes (s.respond a) r i n = readBytes s r i n := by
  induction n generalizing i with
  | zero => rfl
  | succ n ih => simp only [readBytes, ih]; rfl

/-- A RAM read answers the same whatever answer stood on the bus before. -/
theorem loadRam_respond (a : BusResponse) (r : Ram) (i : Nat) (w : Width) (s : State) :
    loadRam r i w (s.respond a) = loadRam r i w s := by
  simp only [loadRam, readBytes_respond]; rfl

/-- So does a checked RAM read. -/
theorem hostAccess_load_respond (a : BusResponse) (off : Offset) (r : Ram) (i : Nat) (w : Width) (s : State) :
    hostAccess .read off w (loadRam r i w) (s.respond a) = hostAccess .read off w (loadRam r i w) s := by
  simp only [hostAccess, loadRam_respond]; rfl

/-- No read depends on the answer standing on the bus. -/
theorem exec_read_respond (a : BusResponse) (i : Instr) (s : State) (h : i.access.dir = .read) : exec i (s.respond a) = exec i s := by
  cases i with
  | rdCap w k => exact hostAccess_load_respond a _ .cap k.toNat w s
  | rdOut w k => exact hostAccess_load_respond a _ .out k.toNat w s
  | rdRend w k => exact hostAccess_load_respond a _ .rend k.toNat w s
  | rdId | rdCtrl | rdCfg | rdNpairs | rdCmd | rdDutyStage | rdDutyCommit | rdDutyActive | rdPwmCfg | rdPwmCnt | rdTickDiv | rdRlen
  | rdRpos | rdStatus | rdIntStatus | rdIntEn | rsvdRd => rfl
  | _ => cases h

/-- A read's only effect is its answer. -/
theorem HostEffect.read_silent {s : State} {i : Instr} {u : State} (he : HostEffect s i u) (h : i.access.dir = .read) : u = s := by
  cases he with
  | silent => rfl
  | _ => cases h

/-- Settles O28: a read's effect is silent (`HostEffect.read_silent`), and the answer it leaves is no operand of the next read
(`exec_read_respond`). -/
theorem readsHaveNoSideEffect : Obligations.ReadsHaveNoSideEffect := by
  unfold Obligations.ReadsHaveNoSideEffect
  intro i s t hread h
  obtain ⟨u, a, he, rfl⟩ := exec_effect i s t h
  obtain rfl := he.read_silent hread
  exact ⟨rfl, (exec_read_respond a i u hread).trans h⟩

/-! ## Byte order (20_memory.md R37) -/

/-- A read of implemented bytes that all hold a value returns those values. -/
theorem readBytes_of_ramByte {s : State} {r : Ram} {i : Nat} {bs : List Byte} (hsize : i + bs.length ≤ r.size s.params)
    (h : ∀ k (hk : k < bs.length), s.ramByte r (i + k) = some bs[k]) : readBytes s r i bs.length = .ok bs := by
  induction bs generalizing i with
  | nil => rfl
  | cons b bs ih =>
    simp only [List.length_cons] at hsize
    have htail : readBytes s r (i + 1) bs.length = .ok bs := ih (by omega) fun k hk => by
      simpa [Nat.add_assoc, Nat.add_comm 1] using h (k + 1) (Nat.succ_lt_succ hk)
    have hhead : s.ramByte r i = some b := h 0 (Nat.succ_pos _)
    simp [readBytes, htail, hhead, show i < r.size s.params by omega]

/-- A read inside a store of implemented bytes returns that part of what was stored. -/
theorem readBytes_storeBytes {r : Ram} {i k n : Nat} {bs : List Byte} {s : State} (hn : k + n ≤ bs.length)
    (hsize : i + bs.length ≤ r.size s.params) : readBytes (storeBytes r i bs s) r (i + k) n = .ok ((bs.drop k).take n) := by
  have hlen : ((bs.drop k).take n).length = n := by simp; omega
  have hread := readBytes_of_ramByte (s := storeBytes r i bs s) (r := r) (i := i + k) (bs := (bs.drop k).take n)
    (by rw [hlen, storeBytes_params]; omega) fun j hj => by
      rw [Nat.add_assoc, storeBytes_ramByte_same r i bs s (k + j) (by omega) (by omega)]
      simp
  rwa [hlen] at hread

/-- A part of a word's bytes is the bytes of the shifted word. -/
theorem drop_take_wordBytes {k : Nat} {w : Width} (d : Word) (h : k + w.bytes ≤ 4) :
    ((wordBytes .b4 d).drop k).take w.bytes = wordBytes w (d >>> (8 * k)) := by
  refine List.ext_getElem? fun j => ?_
  by_cases hj : j < w.bytes
  · rw [List.getElem?_take_of_lt hj, List.getElem?_drop, wordBytes_get .b4 d _ (by simp only [Width.bytes]; omega),
      wordBytes_get w _ j hj]
    congr 1
    ext b hb
    simp [Nat.mul_add, Nat.add_assoc]
  · rw [List.getElem?_eq_none (by simp; omega), List.getElem?_eq_none (by simp; omega)]

/-- Assembling the bytes a transfer carries gives its lanes, bit by bit. -/
theorem leWord_wordBytes (w : Width) (d : Word) : leWord (wordBytes w d) = w.lanes d := by
  cases w with
  | b1 => simp [leWord, wordBytes, Width.lanes]
  | b2 | b4 =>
    ext j hj
    simp only [leWord, wordBytes, Width.lanes, BitVec.zero_shiftLeft, BitVec.zero_or, BitVec.getElem_or, BitVec.getElem_shiftLeft,
      BitVec.getElem_setWidth, BitVec.getLsbD_extractLsb', zero_add]
    grind

/-- A read inside a stored word of implemented bytes returns the low lanes of the shifted word. -/
theorem loadRam_storeBytes_word {r : Ram} {i k : Nat} {w : Width} (d : Word) {s : State} (hk : k + w.bytes ≤ 4)
    (hsize : i + 4 ≤ r.size s.params) :
    loadRam r (i + k) w (storeBytes r i (wordBytes .b4 d) s) =
      deliver w (w.lanes (d >>> (8 * k))) (storeBytes r i (wordBytes .b4 d) s) := by
  have hread : readBytes (storeBytes r i (wordBytes .b4 d) s) r (i + k) w.bytes = .ok (wordBytes w (d >>> (8 * k))) := by
    rw [readBytes_storeBytes (bs := wordBytes .b4 d) hk hsize, drop_take_wordBytes d hk]
  simp only [loadRam, hread, leWord_wordBytes]

/-- An access of CAP_RAM is checked by its byte index alone, since the window starts at a multiple of 4. -/
theorem legalAccess_cap (w : Width) (i : BitVec 13) : legalAccess (Ram.cap.offset i.toNat) w = true ↔ i.toNat % w.bytes = 0 := by
  have hi := i.isLt
  have hoff : (Ram.cap.offset i.toNat).toNat = 0x2000 + i.toNat := by
    simp only [Ram.offset, Ram.addr_cap, BitVec.toNat_ofNat]; omega
  rw [legalAccess_ram _ _ (by omega), hoff]
  cases w <;> simp only [Width.bytes] <;> omega

/-- An aligned read of CAP_RAM loads. -/
theorem exec_rdCap_aligned {w : Width} {i : BitVec 13} (s : State) (h : i.toNat % w.bytes = 0) :
    exec (.rdCap w i) s = loadRam .cap i.toNat w s := hostAccess_legal _ _ _ _ s ((legalAccess_cap w i).2 h)

/-- An aligned write of CAP_RAM stores. -/
theorem exec_wrCap_aligned {w : Width} {i : BitVec 13} (d : Word) (s : State) (h : i.toNat % w.bytes = 0) :
    exec (.wrCap w i d) s = .next ((storeBytes .cap i.toNat (wordBytes w d) s).respond .writeDone) :=
  hostAccess_legal _ _ _ _ s ((legalAccess_cap w i).2 h)

/-- Settles O29: the write stores its four bytes, and the read loads the low lanes of the shifted word from them
(`loadRam_storeBytes_word`). -/
theorem narrowReadsSeeLittleEndianBytes : Obligations.NarrowReadsSeeLittleEndianBytes := by
  unfold Obligations.NarrowReadsSeeLittleEndianBytes
  intro i k w d s hi hsize hk hkw
  have hidx : (i + BitVec.ofNat 13 k).toNat = i.toNat + k := by
    have hlt := i.isLt
    have hw : 0 < w.bytes := by cases w <;> decide
    rw [BitVec.toNat_add, BitVec.toNat_ofNat]
    omega
  have halign : (i + BitVec.ofNat 13 k).toNat % w.bytes = 0 := by
    rw [hidx]
    cases w <;> simp only [Width.bytes] at hk ⊢ <;> omega
  refine ⟨_, _, exec_wrCap_aligned d s hi, ?_, rfl⟩
  rw [exec_rdCap_aligned _ halign, hidx, loadRam_respond, loadRam_storeBytes_word d hkw hsize]
  exact (deliver_next _ _ _ _).2 (respond_respond .writeDone _ _)

/-! ## The window of the host's bus (20_memory.md R35) -/

/-- The next step runs a pending bus cycle. -/
theorem step_hostCycle {s : State} {addr : Nat} {dir : Dir} {w : Width} {d : Word} {rest : List Input}
    (h : s.inputs = .hostCycle addr dir w d :: rest) : step s = runHostCycle addr dir w d { s with inputs := rest } := by
  simp only [step, h, runInput]

/-- Settles O51: `windowOffset` is the offset inside the window and nothing outside it. -/
theorem hostCyclesAreDecodedInsideTheWindow : Obligations.HostCyclesAreDecodedInsideTheWindow := by
  unfold Obligations.HostCyclesAreDecodedInsideTheWindow
  intro s addr dir w d rest hin
  refine ⟨fun hlo hhi => ?_, fun hout => ?_⟩
  · have hwin : windowOffset s.params addr = some (BitVec.ofNat 16 (addr - s.params.base)) := if_pos (by omega)
    simp only [step_hostCycle hin, runHostCycle, hwin]
  · have hwin : windowOffset s.params addr = none := if_neg (by omega)
    simp only [step_hostCycle hin, runHostCycle, hwin]

end Sys2Proof.Machine
end

section
/-! SUPPORT. Proofs of the family 30_encoding.md: decode after encode (R48, R49), the descriptor a decoded row stands for, and the harness's
answer to a bus error (R54, R55). A record is put together from its bytes once (`decode_mmio_encodeAccess`, `decode_cmd_dataBytes`); after
that only the rows of the table are compared. -/

namespace Sys2Proof

/-! ## Records (30_encoding.md R48, R49; log entries 4, 5) -/

/-- The four bytes of a word, highest lane first, are the word. -/
theorem dataBytes_append (d : Word) :
    d.extractLsb' 24 8 ++ d.extractLsb' 16 8 ++ d.extractLsb' 8 8 ++ d.extractLsb' 0 8 = d := by
  rw [BitVec.extractLsb'_append_extractLsb'_eq_extractLsb' (by rfl), BitVec.extractLsb'_append_extractLsb'_eq_extractLsb' (by rfl),
    BitVec.extractLsb'_append_extractLsb'_eq_extractLsb' (by rfl)]
  exact BitVec.extractLsb'_eq_self

/-- A CMD record decodes to the row of its word. -/
theorem decode_cmd_dataBytes (d : Word) : decode .cmd (dataBytes d) = .ok (decodeCmdWord d) :=
  congrArg (fun e => Except.ok (decodeCmdWord e)) (dataBytes_append d)

/-- The third byte of an MMIO record holds zero padding, the width and the direction. -/
theorem recordHeader_fields (w : Width) (dir : Dir) :
    (0#5 ++ w.code ++ dir.bit : Byte).extractLsb' 3 5 = 0#5 ∧
      Width.ofCode ((0#5 ++ w.code ++ dir.bit : Byte).extractLsb' 1 2) = some w ∧
      (if (0#5 ++ w.code ++ dir.bit : Byte).extractLsb' 0 1 = 1#1 then Dir.write else .read) = dir := by
  cases w <;> cases dir <;> decide

/-- An MMIO record decodes to the row its access selects. -/
theorem decode_mmio_encodeAccess (a : BusAccess) :
    decode .mmio (encodeAccess a) = .ok (decodeAccess a.dir a.off a.width a.data) := by
  obtain ⟨hpad, hwidth, hdir⟩ := recordHeader_fields a.width a.dir
  have hoff : a.off.extractLsb' 8 8 ++ a.off.extractLsb' 0 8 = a.off := BitVec.extractLsb'_append_extractLsb' (w := 8)
  simp only [encodeAccess, dataBytes, decode, hpad, hwidth, hdir, hoff, dataBytes_append, ne_eq, not_true_eq_false, if_false]

/-! ## Command words (30_encoding.md R49) -/

theorem cmdWord_opc (rsv : BitVec 28) (opc : BitVec 4) : (rsv ++ opc : Word).extractLsb' 0 4 = opc :=
  BitVec.extractLsb'_append_eq_right

theorem cmdWord_rsv (rsv : BitVec 28) (opc : BitVec 4) : (rsv ++ opc : Word).extractLsb' 4 28 = rsv :=
  BitVec.extractLsb'_append_eq_left

/-- The opcodes 4 to 7 match the row of R98 with pattern 0x4 and no row before it. -/
theorem rsvd4_opcode (opc : BitVec 2) : (1#2 ++ opc : BitVec 4) &&& 0xF#4 ∉ [0x0#4, 0x1#4, 0x2#4, 0x3#4] ∧
    (1#2 ++ opc : BitVec 4) &&& 0xC#4 = 0x4#4 ∧ (1#2 ++ opc : BitVec 4).extractLsb' 0 2 = opc := by
  revert opc
  decide

/-- The opcodes 8 to 15 match no row before the last one of R98. -/
theorem rsvd8_opcode (opc : BitVec 3) : (1#1 ++ opc : BitVec 4) &&& 0xF#4 ∉ [0x0#4, 0x1#4, 0x2#4, 0x3#4] ∧
    (1#1 ++ opc : BitVec 4) &&& 0xC#4 ≠ 0x4#4 ∧ (1#1 ++ opc : BitVec 4).extractLsb' 0 3 = opc := by
  revert opc
  decide

/-- The word of a command row selects that row, with its reserved bits. -/
theorem decodeCmdWord_access (i : Instr) (hf : i.format = .cmd) : decodeCmdWord i.access.data = i := by
  cases i with
  | cmdNop rsv | cmdTransform rsv | cmdCommit rsv | cmdRender rsv =>
    simp [Instr.access, decodeCmdWord, cmdWord_opc, cmdWord_rsv]
  | cmdRsvd4 opc rsv =>
    obtain ⟨hnone, hmask, hopc⟩ := rsvd4_opcode opc
    simp only [List.mem_cons, List.not_mem_nil, or_false, not_or] at hnone
    rw [Instr.access, decodeCmdWord, cmdWord_opc, cmdWord_rsv]
    simp only [hnone, if_false, hmask, if_true, hopc]
  | cmdRsvd8 opc rsv =>
    obtain ⟨hnone, hmask, hopc⟩ := rsvd8_opcode opc
    simp only [List.mem_cons, List.not_mem_nil, or_false, not_or] at hnone
    rw [Instr.access, decodeCmdWord, cmdWord_opc, cmdWord_rsv]
    simp only [hnone, if_false, hmask, hopc]
  | _ => cases hf

/-! ## Window offsets: the bits of a RAM's base above the bits of the byte index (20_memory.md R35) -/

theorem append_toNat {m n : Nat} (b : BitVec m) (i : BitVec n) : (b ++ i).toNat = b.toNat * 2 ^ n + i.toNat := by
  rw [BitVec.toNat_append, ← Nat.shiftLeft_add_eq_or_of_lt i.isLt, Nat.shiftLeft_eq]

/-- An offset inside the window of base `b` is that base and its own byte index. -/
theorem eq_append_setWidth {m n : Nat} {b : BitVec m} {off : BitVec (m + n)} (hlo : b.toNat * 2 ^ n ≤ off.toNat)
    (hhi : off.toNat < (b.toNat + 1) * 2 ^ n) : off = b ++ off.setWidth n := by
  have hq : off.toNat / 2 ^ n = b.toNat := Nat.div_eq_of_lt_le hlo hhi
  rw [← BitVec.toNat_inj, append_toNat, BitVec.toNat_setWidth, ← hq, Nat.div_add_mod']

/-- Every offset is reserved, a register's or a byte's in one of the three RAM windows. -/
theorem offset_cases (off : Offset) :
    reservedOffset off = true ∨ (∃ k : Fin 16, off = BitVec.ofNat 16 (4 * k)) ∨ (∃ k : BitVec 13, off = 1#3 ++ k) ∨
      (∃ k : BitVec 10, off = 0x10#6 ++ k) ∨ ∃ k : BitVec 12, off = 0x6#4 ++ k := by
  have hregions : reservedOffset off = true ∨ (off.toNat < 0x40 ∧ off.toNat % 4 = 0) ∨ (0x2000 ≤ off.toNat ∧ off.toNat < 0x4000) ∨
      (0x4000 ≤ off.toNat ∧ off.toNat < 0x4400) ∨ (0x6000 ≤ off.toNat ∧ off.toNat < 0x7000) := by
    simp only [reservedOffset, Bool.or_eq_true, Bool.and_eq_true, decide_eq_true_eq]
    omega
  rcases hregions with hres | ⟨hlt, halign⟩ | ⟨hlo, hhi⟩ | ⟨hlo, hhi⟩ | ⟨hlo, hhi⟩
  · exact .inl hres
  · refine .inr (.inl ⟨⟨off.toNat / 4, by omega⟩, ?_⟩)
    rw [Nat.mul_div_cancel' (Nat.dvd_of_mod_eq_zero halign), BitVec.ofNat_toNat, BitVec.setWidth_eq]
  · exact .inr (.inr (.inl ⟨_, eq_append_setWidth (n := 13) hlo hhi⟩))
  · exact .inr (.inr (.inr (.inl ⟨_, eq_append_setWidth (n := 10) hlo hhi⟩)))
  · exact .inr (.inr (.inr (.inr ⟨_, eq_append_setWidth (n := 12) hlo hhi⟩)))

/-! ## Rows and their descriptors (30_encoding.md R48) -/

/-- The lanes of a width fit it. -/
theorem lanes_fits (w : Width) (d : Word) : w.fits (w.lanes d) = true := by
  simp only [Width.fits, decide_eq_true_eq]
  cases w with
  | b1 => simp only [Width.lanes, Width.bytes, BitVec.toNat_setWidth]; omega
  | b2 => simp only [Width.lanes, Width.bytes, BitVec.toNat_setWidth]; omega
  | b4 => exact d.isLt

/-- The rows of a byte of CAP_RAM's window. -/
theorem decodeAccess_capByte (w : Width) (k : BitVec 13) (d : Word) :
    decodeAccess .read (1#3 ++ k) w d = .rdCap w k ∧ decodeAccess .write (1#3 ++ k) w d = .wrCap w k (w.lanes d) := by
  have hoff : (1#3 ++ k : Offset).toNat = 0x2000 + k.toNat := append_toNat 1#3 k
  have hidx : (1#3 ++ k : Offset).setWidth 13 = k := BitVec.setWidth_append_eq_right
  constructor <;> rw [decodeAccess_cap _ _ _ _ (by omega) (by omega), hidx]

/-- The rows of a byte of OUT_RAM's window. -/
theorem decodeAccess_outByte (w : Width) (k : BitVec 10) (d : Word) :
    decodeAccess .read (0x10#6 ++ k) w d = .rdOut w k ∧ decodeAccess .write (0x10#6 ++ k) w d = .wrOut w k (w.lanes d) := by
  have hoff : (0x10#6 ++ k : Offset).toNat = 0x4000 + k.toNat := append_toNat 0x10#6 k
  have hidx : (0x10#6 ++ k : Offset).setWidth 10 = k := BitVec.setWidth_append_eq_right
  constructor <;> rw [decodeAccess_out _ _ _ _ (by omega) (by omega), hidx]

/-- The rows of a byte of REND_RAM's window. -/
theorem decodeAccess_rendByte (w : Width) (k : BitVec 12) (d : Word) :
    decodeAccess .read (0x6#4 ++ k) w d = .rdRend w k ∧ decodeAccess .write (0x6#4 ++ k) w d = .wrRend w k (w.lanes d) := by
  have hoff : (0x6#4 ++ k : Offset).toNat = 0x6000 + k.toNat := append_toNat 0x6#4 k
  have hidx : (0x6#4 ++ k : Offset).setWidth 12 = k := BitVec.setWidth_append_eq_right
  constructor <;> rw [decodeAccess_rend _ _ _ _ (by omega) (by omega), hidx]

/-- The descriptor, width and data of a well-formed MMIO row select that row. -/
theorem decodeAccess_access (i : Instr) (hwf : i.wf = true) (hf : i.format = .mmio) :
    decodeAccess i.access.dir i.access.off i.access.width i.access.data = i := by
  cases i with
  | cmdNop | cmdTransform | cmdCommit | cmdRender | cmdRsvd4 | cmdRsvd8 => cases hf
  | rdId | rdCtrl | rdCfg | rdNpairs | rdCmd | rdDutyStage | rdDutyCommit | rdDutyActive | rdPwmCfg | rdPwmCnt | rdTickDiv | rdRlen
  | rdRpos | rdStatus | rdIntStatus | rdIntEn =>
    simp only [Instr.access]
    rfl
  | wrId w d | wrCtrl w d | wrCfg w d | wrNpairs w d | wrCmd w d | wrDutyStage w d | wrDutyCommit w d | wrDutyActive w d
  | wrPwmCfg w d | wrPwmCnt w d | wrTickDiv w d | wrRlen w d | wrRpos w d | wrStatus w d | wrIntStatus w d | wrIntEn w d =>
    refine Eq.trans ?_ (congrArg _ (lanes_of_fits w d hwf))
    simp only [Instr.access]
    rfl
  | rdCap w k => exact (decodeAccess_capByte w k 0#32).1
  | wrCap w k d => exact (decodeAccess_capByte w k d).2.trans (congrArg _ (lanes_of_fits w d hwf))
  | rdOut w k => exact (decodeAccess_outByte w k 0#32).1
  | wrOut w k d => exact (decodeAccess_outByte w k d).2.trans (congrArg _ (lanes_of_fits w d hwf))
  | rdRend w k => exact (decodeAccess_rendByte w k 0#32).1
  | wrRend w k d => exact (decodeAccess_rendByte w k d).2.trans (congrArg _ (lanes_of_fits w d hwf))
  | rsvdRd w off => exact decodeAccess_reserved .read off w 0#32 hwf
  | rsvdWr w off d =>
    obtain ⟨hfits, hres⟩ := Bool.and_eq_true_iff.1 hwf
    exact (decodeAccess_reserved .write off w d hres).trans (congrArg _ (lanes_of_fits w d hfits))

/-- Settles O52: each format's record decodes to the row of its access or word, and each row's own access or word selects it
(`decodeAccess_access`, `decodeCmdWord_access`). -/
theorem decodeEncodeRoundTrip : Obligations.DecodeEncodeRoundTrip := by
  unfold Obligations.DecodeEncodeRoundTrip
  intro i hwf
  unfold encode
  split
  next hf => rw [decode_mmio_encodeAccess, decodeAccess_access i hwf hf]
  next hf => rw [decode_cmd_dataBytes, decodeCmdWord_access i hf]

/-- A fallback row is well formed exactly at a reserved offset. -/
theorem fallbackRow_wf (dir : Dir) (w : Width) (off : Offset) (d : Word) :
    (fallbackRow dir w off (w.lanes d)).wf = reservedOffset off := by
  cases dir with
  | read => rfl
  | write => simp [fallbackRow, Instr.wf, lanes_fits]

/-- The row an access selects is well formed and stands for the access, region by region of the window. -/
theorem decodeAccess_descriptor (dir : Dir) (off : Offset) (w : Width) (d : Word) :
    (decodeAccess dir off w d).wf = true ∧
      (decodeAccess dir off w d).access = ⟨dir, off, w, if dir = .write then w.lanes d else 0#32⟩ := by
  rcases offset_cases off with hres | ⟨k, rfl⟩ | ⟨k, rfl⟩ | ⟨k, rfl⟩ | ⟨k, rfl⟩
  · rw [decodeAccess_reserved dir off w d hres, fallbackRow_wf]
    cases dir <;> exact ⟨hres, rfl⟩
  · cases dir with
    | read => fin_cases k <;> exact ⟨rfl, rfl⟩
    | write => fin_cases k <;> exact ⟨lanes_fits w d, rfl⟩
  · obtain ⟨hread, hwrite⟩ := decodeAccess_capByte w k d
    cases dir with
    | read => rw [hread]; exact ⟨rfl, rfl⟩
    | write => rw [hwrite]; exact ⟨lanes_fits w d, rfl⟩
  · obtain ⟨hread, hwrite⟩ := decodeAccess_outByte w k d
    cases dir with
    | read => rw [hread]; exact ⟨rfl, rfl⟩
    | write => rw [hwrite]; exact ⟨lanes_fits w d, rfl⟩
  · obtain ⟨hread, hwrite⟩ := decodeAccess_rendByte w k d
    cases dir with
    | read => rw [hread]; exact ⟨rfl, rfl⟩
    | write => rw [hwrite]; exact ⟨lanes_fits w d, rfl⟩

/-- Settles O53: the descriptor is kept in every region (`decodeAccess_descriptor`), and a row that is a fallback row is a well-formed one,
so its offset is reserved. -/
theorem decodingKeepsTheDescriptor : Obligations.DecodingKeepsTheDescriptor := by
  unfold Obligations.DecodingKeepsTheDescriptor
  intro dir off w d
  obtain ⟨hwf, haccess⟩ := decodeAccess_descriptor dir off w d
  refine ⟨hwf, haccess, fun hfall => ?_, decodeAccess_reserved dir off w d⟩
  rwa [hfall, fallbackRow_wf] at hwf

/-- Settles O54: the decoder evaluated at each of the sixteen words. -/
theorem tableWordsDecodeToTheirInstructions : Obligations.TableWordsDecodeToTheirInstructions := by
  unfold Obligations.TableWordsDecodeToTheirInstructions
  exact ⟨rfl, rfl, rfl, rfl, rfl, rfl, rfl, rfl, rfl, rfl, rfl, rfl, rfl, rfl, rfl, rfl⟩

end Sys2Proof

namespace Sys2Proof.Machine

/-! ## The harness (30_encoding.md R54, R55) -/

/-- An offered MMIO record is executed as the row its access selects. -/
theorem step_offer_access (s : State) (a : BusAccess) :
    step (s.offer (.mmio, encodeAccess a)) = exec (decodeAccess a.dir a.off a.width a.data) s :=
  stepRunsTheDecodedAccess.1 _ .mmio _ s.inputs _ rfl (decode_mmio_encodeAccess a)

/-- An access of illegal width or alignment is answered by a bus error at its own descriptor and changes nothing else. -/
theorem exec_decodeAccess_illegal {dir : Dir} {off : Offset} {w : Width} (d : Word) (s : State) (h : ¬ Claims.legal off w) :
    exec (decodeAccess dir off w d) s = .next (s.respond (.busError off w dir)) := by
  obtain ⟨-, haccess⟩ := decodeAccess_descriptor dir off w d
  have hillegal : accessLegal (decodeAccess dir off w d) = false := by
    rw [accessLegal, haccess]
    exact Bool.eq_false_iff.2 fun hl => h ((legalAccess_iff off w).1 hl)
  rw [exec_illegal _ s hillegal, haccess]

/-- Settles O55: the block answers the illegal read with a bus error (`exec_decodeAccess_illegal`), and the harness only records it. -/
theorem harnessKeepsRegistersOnABusError : Obligations.HarnessKeepsRegistersOnABusError := by
  unfold Obligations.HarnessKeepsRegistersOnABusError
  refine ⟨fun h prog w xd off hillegal => ?_, fun h prog w off x hx => ?_⟩
  · have hstep : step (h.block.offer (.mmio, encodeAccess ⟨.read, off, w, 0#32⟩)) =
        .next (h.block.respond (.busError off w .read)) :=
      (step_offer_access _ _).trans (exec_decodeAccess_illegal 0#32 h.block hillegal)
    have hrun : h.execute prog (.rd w xd off) = .running (h.take (some xd) (h.block.respond (.busError off w .read))).advance := by
      simp only [Harness.execute, Harness.busAccess, hstep]
    exact ⟨_, hrun, rfl, rfl, rfl, rfl⟩
  · simp only [Harness.execute, hx]

end Sys2Proof.Machine
end

section
/-! SUPPORT. Proofs of the family 40_transform.md: the per-pair function (R57, R60, R61) and the TRANSFORM command (R59). The level is read
off `mix_level`, whose shift is a floor quotient of the halved sum; TRANSFORM's answers are the three of `transform`. -/

namespace Sys2Proof.Machine

/-! ## The per-pair function (40_transform.md R57) -/

/-- The arithmetic shift is a floor quotient by the power of two (R5). -/
theorem asr_eq_ediv (x : Int) (s : Nat) : asr x s = x / 2 ^ s := Int.fdiv_eq_ediv_of_nonneg x (by positivity)

/-- The half of the sum, the shift, the offset and the clamp of R57, as one integer formula. -/
theorem mix_level (a b : Int) (s : Nat) : ((mix a b s).toNat : Int) = max 0 (min 255 (asr (tdiv2 (a + b)) s + 128)) := by
  rw [mix_toInt]
  unfold mixValue clamp Config.midScale
  split_ifs <;> omega

/-- Settles O18: the operations `tdiv2` and `asr` of `mix_level` are the formula's two divisions. -/
theorem mixIsTheExactFormula : Obligations.MixIsTheExactFormula := by
  unfold Obligations.MixIsTheExactFormula
  exact mix_level

/-! ## Symmetry and order (40_transform.md R60 laws 3 and 4) -/

/-- The level is a function of the sum. -/
theorem mix_of_sum_eq {a b a' b' : Int} (s : Nat) (h : a + b = a' + b') : mix a b s = mix a' b' s := by
  unfold mix mixValue
  rw [h]

/-- Truncating halving keeps the order (R5). -/
theorem tdiv2_mono {x y : Int} (h : x ≤ y) : tdiv2 x ≤ tdiv2 y := Int.tdiv_le_tdiv two_pos h

/-- The arithmetic shift keeps the order (R5). -/
theorem asr_mono {x y : Int} (s : Nat) (h : x ≤ y) : asr x s ≤ asr y s := by
  rw [asr_eq_ediv, asr_eq_ediv]
  exact Int.ediv_le_ediv (by positivity) h

/-- A larger sum never gives a lower level. -/
theorem mix_mono {a b a' b' : Int} (s : Nat) (h : a + b ≤ a' + b') : (mix a b s).toNat ≤ (mix a' b' s).toNat := by
  have hshift := asr_mono s (tdiv2_mono h)
  have hlow := mix_level a b s
  have hhigh := mix_level a' b' s
  omega

/-- Settles O19: the level reads the sum only, and each operation on it keeps the order (`mix_mono`). -/
theorem mixIsMonotoneInTheSum : Obligations.MixIsMonotoneInTheSum := by
  unfold Obligations.MixIsMonotoneInTheSum
  exact ⟨fun a b s => mix_of_sum_eq s (Int.add_comm a b), fun a b a' b' s => mix_of_sum_eq s, fun a b a' b' s => mix_mono s⟩

/-! ## Where the level is 128, 255 and 0 (40_transform.md R60 law 2, R61) -/

theorem le_asr_iff (k x : Int) (s : Nat) : k ≤ asr x s ↔ k * 2 ^ s ≤ x := by
  rw [asr_eq_ediv, Int.le_ediv_iff_mul_le (by positivity)]

theorem asr_lt_iff (k x : Int) (s : Nat) : asr x s < k ↔ x < k * 2 ^ s := by
  rw [asr_eq_ediv, Int.ediv_lt_iff_lt_mul (by positivity)]

/-- Mid-scale: the shifted half-sum is 0. -/
theorem mix_eq_mid_iff (a b : Int) (s : Nat) : (mix a b s).toNat = 128 ↔ 0 ≤ tdiv2 (a + b) ∧ tdiv2 (a + b) < 2 ^ s := by
  have hlevel := mix_level a b s
  have hlo := le_asr_iff 0 (tdiv2 (a + b)) s
  have hhi := asr_lt_iff 1 (tdiv2 (a + b)) s
  rw [zero_mul] at hlo
  rw [one_mul] at hhi
  rw [← hlo, ← hhi]
  omega

/-- Settles O20: silence has half-sum 0, which lies in every `[0, 2^s)` of `mix_eq_mid_iff`. -/
theorem mixIsMidScaleExactlyNearSilence : Obligations.MixIsMidScaleExactlyNearSilence := by
  unfold Obligations.MixIsMidScaleExactlyNearSilence
  exact ⟨fun s => (mix_eq_mid_iff 0 0 s).2 ⟨le_rfl, show (0 : Int) < 2 ^ s by positivity⟩, mix_eq_mid_iff⟩

/-- Full scale: the shifted half-sum is at least 127. -/
theorem mix_eq_max_iff (a b : Int) (s : Nat) : (mix a b s).toNat = 255 ↔ 127 * 2 ^ s ≤ tdiv2 (a + b) := by
  have hlevel := mix_level a b s
  rw [← le_asr_iff]
  omega

/-- Level 0: the shifted half-sum is at most -128. -/
theorem mix_eq_zero_iff (a b : Int) (s : Nat) : (mix a b s).toNat = 0 ↔ tdiv2 (a + b) < -127 * 2 ^ s := by
  have hlevel := mix_level a b s
  rw [← asr_lt_iff]
  omega

/-- A half-sum in `[-128 * 2^s, 128 * 2^s)` is not clamped. -/
theorem mix_of_unclamped {a b : Int} {s : Nat} (hlo : -128 * 2 ^ s ≤ tdiv2 (a + b)) (hhi : tdiv2 (a + b) < 128 * 2 ^ s) :
    ((mix a b s).toNat : Int) = asr (tdiv2 (a + b)) s + 128 := by
  have hlevel := mix_level a b s
  rw [← le_asr_iff] at hlo
  rw [← asr_lt_iff] at hhi
  omega

/-- Two equal samples have that sample as their half-sum. -/
theorem tdiv2_add_self (x : Int) : tdiv2 (x + x) = x := by
  rw [← two_mul]
  exact Int.mul_tdiv_cancel_left x two_ne_zero

/-- A power of two exceeds 127 times another exactly when it is at least 128 times that one. -/
theorem mul_two_pow_lt_iff (m s : Nat) : (127 * 2 ^ s : Int) < 2 ^ m ↔ s + 7 ≤ m := by
  have hpos : (0 : Int) < 2 ^ s := by positivity
  constructor
  · intro hlt
    by_contra hm
    have hle : (2 : Int) ^ m ≤ 2 ^ (s + 6) := pow_le_pow_right₀ one_le_two (by omega)
    rw [pow_add] at hle
    omega
  · intro hm
    have hle : (2 : Int) ^ (s + 7) ≤ 2 ^ m := pow_le_pow_right₀ one_le_two hm
    rw [pow_add] at hle
    omega

/-- Settles O22: both full scales compare 127 * 2^s with 2^m (`mul_two_pow_lt_iff`), and at s + 7 = m every half-sum lies in
`[-128 * 2^s, 128 * 2^s)`. -/
theorem saturationBoundaryOfTheShift : Obligations.SaturationBoundaryOfTheShift := by
  unfold Obligations.SaturationBoundaryOfTheShift
  intro m s
  have hbound := mul_two_pow_lt_iff m s
  refine ⟨?_, ?_, ?_⟩
  · rw [mix_eq_max_iff, tdiv2_add_self, ← hbound]
    omega
  · rw [mix_eq_zero_iff, tdiv2_add_self, ← hbound]
    omega
  · rintro rfl a b halo hahi hblo hbhi
    rw [pow_add] at halo hahi hblo hbhi
    have hlo := tdiv2_mono (show -(2 ^ s * 2 ^ 7) + -(2 ^ s * 2 ^ 7) ≤ a + b by omega)
    have hhi := tdiv2_mono (show a + b ≤ 2 ^ s * 2 ^ 7 - 1 + (2 ^ s * 2 ^ 7 - 1) by omega)
    rw [tdiv2_add_self] at hlo hhi
    exact mix_of_unclamped (by omega) (by omega)

/-! ## The closed form (40_transform.md R60 law 7) -/

/-- A nonnegative sum is halved and shifted by one floor quotient. -/
theorem asr_tdiv2_of_nonneg {x : Int} (s : Nat) (h : 0 ≤ x) : asr (tdiv2 x) s = asr x (s + 1) := by
  rw [asr_eq_ediv, asr_eq_ediv, tdiv2, Int.tdiv_eq_ediv_of_nonneg h, pow_succ', Int.ediv_ediv_of_nonneg two_pos.le]

/-- Truncation rounds a negative half up. -/
theorem tdiv2_of_neg {x : Int} (h : x < 0) : tdiv2 x = -Int.fdiv (-x) 2 := by
  rw [Int.fdiv_eq_ediv_of_nonneg _ two_pos.le, ← Int.tdiv_eq_ediv_of_nonneg (by omega), Int.neg_tdiv, neg_neg, tdiv2]

/-- A floor quotient steps up at the multiples of the divisor. -/
theorem ediv_eq_pred_ediv_add (y : Int) {d : Int} (hd : 0 < d) : y / d = (y - 1) / d + if d ∣ y then 1 else 0 := by
  have hsplit := Int.ediv_mul_add_emod y d
  have hrem := Int.emod_lt_of_pos y hd
  split
  next hdvd =>
    rw [Int.emod_eq_zero_of_dvd hdvd] at hsplit
    have hpred : (y - 1) / d = y / d - 1 := (Int.ediv_eq_iff_of_pos hd).2 (by rw [sub_mul]; omega)
    omega
  next hdvd =>
    have hne := mt Int.dvd_of_emod_eq_zero hdvd
    have hnonneg := Int.emod_nonneg y hd.ne'
    have hpred : (y - 1) / d = y / d := (Int.ediv_eq_iff_of_pos hd).2 (by omega)
    omega

/-- The half rounded up, shifted, exceeds the one floor quotient exactly at an odd sum whose upper half is a multiple of 2^s. -/
theorem asr_ceil_half (x : Int) (s : Nat) :
    asr (-Int.fdiv (-x) 2) s = asr x (s + 1) + if x % 2 = 1 ∧ (2 ^ s : Int) ∣ (x + 1) / 2 then 1 else 0 := by
  have hceil : -Int.fdiv (-x) 2 = (x + 1) / 2 := by
    rw [Int.fdiv_eq_ediv_of_nonneg _ two_pos.le]
    omega
  rw [hceil, asr_eq_ediv, asr_eq_ediv, pow_succ', ← Int.ediv_ediv_of_nonneg two_pos.le]
  by_cases hodd : x % 2 = 1
  · rw [show x / 2 = (x + 1) / 2 - 1 by omega]
    simpa only [hodd, true_and] using ediv_eq_pred_ediv_add ((x + 1) / 2) (by positivity)
  · rw [show x / 2 = (x + 1) / 2 by omega, if_neg fun h => hodd h.1, add_zero]

/-- Settles O21: `mix_level` with the half of each sign (`asr_tdiv2_of_nonneg`, `tdiv2_of_neg`), and `asr_ceil_half`. -/
theorem mixClosedForm : Obligations.MixClosedForm := by
  unfold Obligations.MixClosedForm
  refine ⟨fun a b s h => ?_, fun a b s h => ?_, fun x s _ => asr_ceil_half x s⟩
  · rw [mix_level, asr_tdiv2_of_nonneg s h]
    rfl
  · rw [mix_level, tdiv2_of_neg h]
    rfl

/-! ## The command (40_transform.md R59) -/

/-- Both forms of the command run the operation (R49, R96). -/
theorem exec_transformForm {i : Instr} (s : State) (h : Claims.commandForm .cmdTransform 0x1#4 i) : exec i s = transform s := by
  rcases h with ⟨rsv, rfl⟩ | ⟨d, rfl, hopc⟩
  · rfl
  · rw [exec_wrCmd, ← runCommand_eq]
    simp only [runCommand, opcField, hopc]
    rfl

/-- Out of range, the operation is the range error and nothing else (R116). -/
theorem transform_range {s : State} (h : pairsInRange s = false) : transform s = raiseCmdError .range s := by
  simp [transform, h]

/-- In range, over a readable capture block, the levels are stored. -/
theorem transform_of_readBytes {s : State} {bs : List Byte} (h : pairsInRange s = true)
    (hbs : readBytes s .cap 0 (captureBytes s) = .ok bs) :
    transform s = .next ((storeBytes .out 0 (mixAll s bs) s).respond .writeDone) := by
  simp [transform, h, hbs, complete]

/-- Everything a completed TRANSFORM can be: a recorded range error, or the levels of the capture block stored. -/
theorem transform_next {s t : State} (h : transform s = .next t) :
    (pairsInRange s = false ∧ t = (recordCmdError .range s).respond .writeDone) ∨
      ∃ bs, pairsInRange s = true ∧ readBytes s .cap 0 (captureBytes s) = .ok bs ∧
        t = (storeBytes .out 0 (mixAll s bs) s).respond .writeDone := by
  cases hr : pairsInRange s with
  | false =>
    rw [transform_range hr] at h
    exact .inl ⟨rfl, (raiseCmdError_next _ _ _).1 h⟩
  | true =>
    cases hbs : readBytes s .cap 0 (captureBytes s) with
    | error f => simp [transform, hr, hbs] at h
    | ok bs =>
      rw [transform_of_readBytes hr hbs, Host.Outcome.next.injEq] at h
      exact .inr ⟨bs, rfl, rfl, h.symm⟩

/-! ## The levels of a capture block (30_encoding.md R51, 40_transform.md R59) -/

theorem bytesRead_eq (s : State) : Claims.bytesRead s = captureBytes s := by
  unfold Claims.bytesRead captureBytes
  cases s.fmt <;> rfl

/-- The block a TRANSFORM reads holds the bytes of CAP_RAM. -/
theorem capByte_of_readBytes {s : State} {bs : List Byte} (hr : pairsInRange s = true)
    (hbs : readBytes s .cap 0 (captureBytes s) = .ok bs) {k : Nat} (hk : k < captureBytes s) :
    bs[k]?.getD 0#8 = Claims.capByte s k := by
  have hread := (readBytes_ok _ _ _ _ _ hbs).2 k hk
  rw [Nat.zero_add, if_pos (hk.trans_le (captureBytes_le s hr))] at hread
  rw [← hread]

/-- The pairs of the block are those of R51, in either format. -/
theorem samplePairs_get {s : State} {bs : List Byte} (hr : pairsInRange s = true)
    (hbs : readBytes s .cap 0 (captureBytes s) = .ok bs) {j : Nat} (hj : j < s.npairs.toNat) :
    (samplePairs s.fmt bs)[j]? = some (Claims.pairOf s j) := by
  have hlen := (readBytes_ok _ _ _ _ _ hbs).1
  have hbyte := fun k => capByte_of_readBytes hr hbs (k := k)
  unfold captureBytes at hlen hbyte
  unfold samplePairs Claims.pairOf
  cases hf : s.fmt with
  | s16 =>
    simp only [hf, SampleFormat.pairBytes] at hlen hbyte ⊢
    rw [(pairs16_get bs _ hlen).2 j hj]
    simp (disch := omega) only [sample16, hbyte]
  | s32 =>
    simp only [hf, SampleFormat.pairBytes] at hlen hbyte ⊢
    rw [(pairs32_get bs _ hlen).2 j hj]
    simp (disch := omega) only [sample32, hbyte]

/-- Level `j` of the block is the level of pair `j`. -/
theorem mixAll_get {s : State} {bs : List Byte} (hr : pairsInRange s = true)
    (hbs : readBytes s .cap 0 (captureBytes s) = .ok bs) {j : Nat} (hj : j < s.npairs.toNat) :
    (mixAll s bs)[j]? = some (mix (Claims.pairOf s j).1 (Claims.pairOf s j).2 s.shift.toNat) := by
  simp only [mixAll, List.getElem?_map, samplePairs_get hr hbs hj, Option.map_some]

/-- What a completed TRANSFORM leaves at every offset: the levels at OUT[0 .. N-1], and every other byte as before. -/
theorem storeBytes_mixAll_read {s : State} {bs : List Byte} (hr : pairsInRange s = true)
    (hbs : readBytes s .cap 0 (captureBytes s) = .ok bs) (a : Nat) :
    (storeBytes .out 0 (mixAll s bs) s).mem.read a =
      if Ram.out.addr 0 ≤ a ∧ a < Ram.out.addr s.npairs.toNat then (mixAll s bs)[a - Ram.out.addr 0]? else s.mem.read a := by
  have hlen : (mixAll s bs).length = s.npairs.toNat := mixAll_length s bs _ (readBytes_ok _ _ _ _ _ hbs).1
  have hcap := ((pairsInRange_iff s).1 hr).2
  rw [storeBytes_read, hlen]
  refine if_congr ?_ rfl rfl
  simp only [Ram.addr_out, Ram.size_out]
  omega

/-- Settles O16: the range check, the first unwritten byte (`transform_poison`), or the levels stored (`storeBytes_mixAll_read`). -/
theorem transformComputesEveryLevel : Obligations.TransformComputesEveryLevel := by
  unfold Obligations.TransformComputesEveryLevel
  intro i s hi
  simp only [exec_transformForm s hi, bytesRead_eq]
  refine ⟨fun hout => ?_, fun hlo hhi => ?_⟩
  · exact transform_range (Bool.eq_false_iff.2 (mt (pairsInRange_iff s).1 (by omega)))
  · have hr : pairsInRange s = true := (pairsInRange_iff s).2 ⟨hlo, hhi⟩
    refine ⟨transform_poison s hr, fun hmarked => ?_⟩
    obtain ⟨bs, hbs, -⟩ := transform_ready s hr hmarked
    refine ⟨_, transform_of_readBytes hr hbs, ?_, fun j hj => ?_, fun a ha => ?_⟩
    · rw [storeBytes_eq]
      rfl
    · have hlevel : (storeBytes .out 0 (mixAll s bs) s).ramByte .out j =
          some (mix (Claims.pairOf s j).1 (Claims.pairOf s j).2 s.shift.toNat) := by
        unfold State.ramByte
        rw [storeBytes_mixAll_read hr hbs, if_pos (by simp only [Ram.addr_out]; omega), ← mixAll_get hr hbs hj]
        simp
      exact ⟨hlevel, Option.isSome_iff_exists.2 ⟨_, hlevel⟩⟩
    · rw [respond_mem, storeBytes_mixAll_read hr hbs, if_neg (by omega)]

/-! ## A second TRANSFORM (40_transform.md R59) -/

/-- A store to another RAM changes no implemented byte that a read covers. -/
theorem readBytes_storeBytes_other {r q : Ram} (h : r ≠ q) (i n k : Nat) (bs : List Byte) (s : State) :
    readBytes (storeBytes r k bs s) q i n = readBytes s q i n := by
  induction n generalizing i with
  | zero => rfl
  | succ n ih =>
    simp only [readBytes, storeBytes_params, ih]
    split
    next hi => rw [storeBytes_ramByte_other r q k bs s i h hi]
    next => rfl

/-- A recorded error records a second time what it recorded (R116). -/
theorem recordCmdError_twice (e f : ErrCode) (a : BusResponse) (s : State) :
    recordCmdError f ((recordCmdError e s).respond a) = (recordCmdError e s).respond a := by
  simp [recordCmdError, State.respond]

/-- A stored block is stored a second time without a change, in a canonical memory. -/
theorem storeBytes_twice (r : Ram) (i : Nat) (bs : List Byte) (a : BusResponse) {s : State} (h : s.memLegal) :
    storeBytes r i bs ((storeBytes r i bs s).respond a) = (storeBytes r i bs s).respond a := by
  refine storeBytes_same r i bs _ (storeBytes_memLegal r i bs s h).1 fun k hk hsize => ?_
  rw [respond_params, storeBytes_params] at hsize
  exact storeBytes_ramByte_same r i bs s k hk hsize

/-- An operation that has completed answers the state it left. -/
theorem transform_again {s t : State} (hmem : s.memLegal) (h : transform s = .next t) : transform t = .next t := by
  rcases transform_next h with ⟨hr, rfl⟩ | ⟨bs, hr, hbs, rfl⟩
  · rw [transform_range (s := (recordCmdError .range s).respond .writeDone) hr, raiseCmdError_next, recordCmdError_twice,
      respond_respond]
  · have hops : pairsInRange ((storeBytes .out 0 (mixAll s bs) s).respond .writeDone) = pairsInRange s ∧
        captureBytes ((storeBytes .out 0 (mixAll s bs) s).respond .writeDone) = captureBytes s ∧
        mixAll ((storeBytes .out 0 (mixAll s bs) s).respond .writeDone) bs = mixAll s bs := by
      simp [pairsInRange, captureBytes, mixAll]
    obtain ⟨hrange, hbytes, hlevels⟩ := hops
    have hread := (readBytes_storeBytes_other (show Ram.out ≠ Ram.cap by decide) 0 (captureBytes s) 0 (mixAll s bs) s).trans hbs
    rw [transform_of_readBytes (bs := bs) (hrange.trans hr) (by rw [hbytes, readBytes_respond, hread]), hlevels,
      storeBytes_twice .out 0 _ _ hmem, respond_respond]

/-- Settles O17: both accesses run the operation, and its second run answers the state the first one left (`transform_again`). -/
theorem transformIsIdempotent : Obligations.TransformIsIdempotent := by
  unfold Obligations.TransformIsIdempotent
  intro i j s t hi hj hmem h
  rw [exec_transformForm t hj]
  rw [exec_transformForm s hi] at h
  exact transform_again hmem h

end Sys2Proof.Machine
end

section
/-! SUPPORT. Proofs of the family 41_duty_sink.md: the sink's register writes and COMMIT (R63 to R67), and the PWM part of the clock step
(R68) with the period it counts (R70, R71). The two PWM counters are read as one number, the phase of the period, which a clock step moves
one on; the counts, the refresh boundaries and the duty cycle are all read off it. -/

namespace Sys2Proof.Machine

/-! ## Register writes (20_memory.md R38, 60_exceptions.md R116) -/

/-- A register's row is a write of that register at width 4 and a bus error at any other width. -/
theorem writesAs_of_row {off : Offset} {mk : Width → Word → Instr} {op : Word → State → Result} {f : Word → State → State}
    (hoff : off.toNat < 0x1000 ∧ off.toNat % 4 = 0) (hrow : ∀ w d, decodeAccess .write off w d = mk w (w.lanes d))
    (hexec : ∀ w d s, exec (mk w d) s = writeRegister off w (op d) s)
    (hop : ∀ d s, op d s = .next { f d s with resp := .writeDone }) : Claims.writesAs off mk f := by
  refine ⟨hrow, fun d s => ?_, fun w d s hw => ?_⟩
  · have hlegal : legalAccess off .b4 = true := (legalAccess_register off .b4 hoff.1).2 ⟨rfl, hoff.2⟩
    rw [hexec, writeRegister, hostAccess_legal _ _ _ _ _ hlegal, hop]
  · have hillegal : legalAccess off w = false := Bool.eq_false_iff.2 fun hl => hw (width_of_legal off w hoff.1 hl)
    rw [hexec, writeRegister_illegal s hillegal]
    rfl

/-- A misaligned offset beside a register is below 0x1000, so no width makes the access legal. -/
theorem misalignedIsBusError_of_register {off : Offset} (hoff : off.toNat < 0x1000) : Claims.misalignedIsBusError off := by
  intro o w d s hword halign
  refine exec_decodeAccess_illegal d s fun hlegal => halign ?_
  exact (hlegal.1 (by omega)).2

/-! ## Staging and committing (41_duty_sink.md R63 to R65) -/

/-- The stage of R63, as one next state. -/
theorem stageWrite_eq (d : Word) (s : State) :
    (if s.rbusy then raiseCmdError .busy s else complete { s with dutyStage := levelField d }) =
      .next { (if s.rbusy = true then Claims.recorded 2#4 s else { s with dutyStage := d.extractLsb' 0 8 }) with
        resp := .writeDone } := by
  split <;> rfl

/-- Settles O8: the row writes the stage or records E_BUSY, and its misaligned neighbours are illegal accesses. -/
theorem stageWriteStoresOrIsBusy : Obligations.StageWriteStoresOrIsBusy := by
  unfold Obligations.StageWriteStoresOrIsBusy
  exact ⟨writesAs_of_row (by decide) (fun _ _ => rfl) (fun _ _ _ => rfl) stageWrite_eq, misalignedIsBusError_of_register (by decide)⟩

/-- With no render running a 4-byte write of DUTY_STAGE stages its level. -/
theorem exec_wrDutyStage_idle (d : Word) {s : State} (h : s.rbusy = false) :
    exec (.wrDutyStage .b4 d) s = .next { s with dutyStage := d.extractLsb' 0 8, resp := .writeDone } :=
  (hostAccess_legal .write 0x0014#16 .b4 _ s (by decide)).trans (if_neg (by simp [h]))

/-- Both forms of COMMIT run one operation (R49, R96). -/
theorem exec_commitForm {i : Instr} (s : State) (h : Claims.commandForm .cmdCommit 0x2#4 i) : exec i s = execCmdCommit 0#28 s := by
  rcases h with ⟨rsv, rfl⟩ | ⟨d, rfl, hopc⟩
  · rfl
  · rw [exec_wrCmd, ← runCommand_eq]
    simp only [runCommand, opcField, hopc]
    rfl

/-- With no render running the operation commits the staged level (R64). -/
theorem execCmdCommit_idle (rsv : BitVec 28) {s : State} (h : s.rbusy = false) :
    execCmdCommit rsv s = .next { s with dutyCommit := s.dutyStage, resp := .writeDone } := if_neg (by simp [h])

/-- While a render runs the operation is refused (R64). -/
theorem execCmdCommit_busy (rsv : BitVec 28) {s : State} (h : s.rbusy = true) :
    execCmdCommit rsv s = .next (Claims.recorded 2#4 s) := if_pos h

/-- Settles O14: the two answers of the operation that both forms run. -/
theorem commitCopiesTheStagedLevelOrIsBusy : Obligations.CommitCopiesTheStagedLevelOrIsBusy := by
  unfold Obligations.CommitCopiesTheStagedLevelOrIsBusy
  intro i s hi
  rw [exec_commitForm s hi]
  exact ⟨execCmdCommit_idle 0#28, execCmdCommit_busy 0#28⟩

/-- Settles O38: a stage and then a commit, neither refused while no render runs. -/
theorem setLevelStagesAndCommits : Obligations.SetLevelStagesAndCommits := by
  unfold Obligations.SetLevelStagesAndCommits
  intro s d rsv hidle
  exact ⟨_, _, exec_wrDutyStage_idle d hidle, execCmdCommit_idle rsv hidle, rfl, rfl, rfl⟩

/-! ## Configuration and enable (R66, R67) -/

/-- The configuration of R66, as one next state. -/
theorem pwmCfgWrite_eq (d : Word) (s : State) :
    (if s.pwmEn then raiseCmdError .locked s else complete { s with pwmRes := resField d, pwmDiv := divField d }) =
      .next { (if s.pwmEn = true then Claims.recorded 4#4 s else { s with
          pwmRes := if (d.extractLsb' 0 4).toNat < 8 then 8#4 else d.extractLsb' 0 4
          pwmDiv := if d.extractLsb' 16 16 = 0#16 then 1#16 else d.extractLsb' 16 16 }) with resp := .writeDone } := by
  split <;> rfl

/-- Settles O9: the row stores the WARL fields or records E_LOCKED. -/
theorem pwmConfigurationWriteStoresOrIsLocked : Obligations.PwmConfigurationWriteStoresOrIsLocked := by
  unfold Obligations.PwmConfigurationWriteStoresOrIsLocked
  exact writesAs_of_row (by decide) (fun _ _ => rfl) (fun _ _ _ => rfl) pwmCfgWrite_eq

/-- Settles O10: the row stores the enable bit by `setPwmEnable`, whose three cases are R67's. -/
theorem ctrlWriteEnablesAndDisables : Obligations.CtrlWriteEnablesAndDisables := by
  unfold Obligations.CtrlWriteEnablesAndDisables
  exact ⟨writesAs_of_row (by decide) (fun _ _ => rfl) (fun _ _ _ => rfl) fun _ _ => rfl,
    misalignedIsBusError_of_register (by decide)⟩


/-! ## The PWM part of a clock step (R68) -/

/-- The four cases of R68 on integers: no counter overflows inside a legal configuration. -/
theorem applyClock_pwmAfter {s : State} (r : RenderWrites) (h : s.pwmLegal) : Claims.pwmAfter s (applyClock s r (pwmPart s)) := by
  obtain ⟨-, hdiv, hcnt, hpre, -⟩ := h
  have hfull_iff : s.hPre.toNat = s.pwmDiv.toNat - 1 ↔ s.hPre.toNat + 1 = s.pwmDiv.toNat := by omega
  simp only [Claims.pwmAfter, hfull_iff]
  cases hen : s.pwmEn with
  | false => simp [pwmPart_off s hen]
  | true =>
    by_cases hfull : s.hPre.toNat + 1 = s.pwmDiv.toNat
    · by_cases hlast : s.pwmCnt.toNat = 2 ^ s.pwmRes.toNat - 1
      · simp [hfull, hlast, pwmPart_refresh s hen hfull hlast]
      · have hmax : 2 ^ s.pwmRes.toNat ≤ 2 ^ 15 := Nat.pow_le_pow_right (by decide) (by omega)
        have hnext : (s.pwmCnt + 1#15).toNat = s.pwmCnt.toNat + 1 := by bv_omega
        simp [hfull, hlast, pwmPart_count s hen hfull hlast, hnext]
    · have hnext : (s.hPre + 1#16).toNat = s.hPre.toNat + 1 := by bv_omega
      simp [hfull, pwmPart_prescale s hen hfull, hnext]

/-- A clock step runs the PWM part, whatever its render part does. -/
theorem clockStep_pwmAfter {s t : State} (h : clockStep s = .next t) (hs : s.pwmLegal) : Claims.pwmAfter s t := by
  obtain ⟨r, -, rfl⟩ := (clockStep_next s t).1 h
  exact applyClock_pwmAfter r hs

/-- With no render running a clock step is its PWM part alone. -/
theorem clockStep_idle {s : State} (h : s.rbusy = false) : clockStep s = .next (applyClock s (renderHold s) (pwmPart s)) :=
  (clockStep_next _ _).2 ⟨_, renderPart_idle s h, rfl⟩

/-- Settles O31: the PWM part's four cases (`applyClock_pwmAfter`), and a render part that holds when no render runs. -/
theorem clockStepRunsThePwmPart : Obligations.ClockStepRunsThePwmPart := by
  unfold Obligations.ClockStepRunsThePwmPart
  exact fun s hs => ⟨fun hidle => ⟨_, clockStep_idle hidle⟩, fun t h => clockStep_pwmAfter h hs⟩

/-! ## The phase of the modulator (R70): how many clock steps of its period have passed -/

/-- The clock steps of a period. -/
def pwmPeriod (s : State) : Nat := s.pwmDiv.toNat * 2 ^ s.pwmRes.toNat

/-- The clock steps of the current period that have passed, the two counters read as one number. -/
def pwmPhase (s : State) : Nat := s.pwmDiv.toNat * s.pwmCnt.toNat + s.hPre.toNat

/-- PWM_CNT is the phase in units of DIV clock steps. -/
theorem pwmPhase_div {s : State} (h : s.pwmLegal) : pwmPhase s / s.pwmDiv.toNat = s.pwmCnt.toNat := by
  obtain ⟨-, hdiv, -, hpre, -⟩ := h
  rw [pwmPhase, Nat.mul_add_div hdiv, Nat.div_eq_of_lt (by omega), Nat.add_zero]

/-- h.PRE is the rest. -/
theorem pwmPhase_mod {s : State} (h : s.pwmLegal) : pwmPhase s % s.pwmDiv.toNat = s.hPre.toNat := by
  obtain ⟨-, hdiv, -, hpre, -⟩ := h
  rw [pwmPhase, Nat.mul_add_mod, Nat.mod_eq_of_lt (by omega)]

/-- The phase stays below the period. -/
theorem pwmPhase_lt {s : State} (h : s.pwmLegal) : pwmPhase s < pwmPeriod s := by
  obtain ⟨-, hdiv, hcnt, hpre, -⟩ := h
  have hpow := Nat.two_pow_pos s.pwmRes.toNat
  calc pwmPhase s < s.pwmDiv.toNat * s.pwmCnt.toNat + s.pwmDiv.toNat := Nat.add_lt_add_left (by omega) _
    _ ≤ pwmPeriod s := Nat.mul_le_mul_left s.pwmDiv.toNat (show s.pwmCnt.toNat + 1 ≤ _ by omega)

/-- The last number below `d * n` has the last digits, `d - 1` and `n - 1`. -/
theorem mul_add_succ_eq_mul_iff {d c p n : Nat} (hp : p < d) (hc : c < n) : d * c + p + 1 = d * n ↔ p + 1 = d ∧ c + 1 = n := by
  constructor
  · intro h
    have hle : d * c + d ≤ d * n := Nat.mul_le_mul_left d hc
    have hlast : p + 1 = d := by omega
    exact ⟨hlast, Nat.eq_of_mul_eq_mul_left (show 0 < d by omega) (by rw [Nat.mul_succ]; omega)⟩
  · rintro ⟨hlast, rfl⟩
    rw [Nat.mul_succ]
    omega

/-- A running modulator is at a refresh boundary in the last phase of its period. -/
theorem refreshBoundary_iff_phase {s : State} (h : s.pwmLegal) (hen : s.pwmEn = true) :
    refreshBoundary s = true ↔ pwmPhase s + 1 = pwmPeriod s := by
  obtain ⟨-, hdiv, hcnt, hpre, -⟩ := h
  have hpow := Nat.two_pow_pos s.pwmRes.toNat
  have hlast : s.pwmCnt.toNat = 2 ^ s.pwmRes.toNat - 1 ↔ s.pwmCnt.toNat + 1 = 2 ^ s.pwmRes.toNat := by omega
  rw [refreshBoundary_iff, hlast, pwmPhase, pwmPeriod, mul_add_succ_eq_mul_iff (by omega) (by omega)]
  exact and_iff_right hen

/-- A clock step that is no refresh boundary moves a running modulator one phase on. -/
theorem clockStep_phase_succ {s t : State} (h : clockStep s = .next t) (hs : s.pwmLegal) (hen : s.pwmEn = true)
    (hb : refreshBoundary s = false) : pwmPhase t = pwmPhase s + 1 := by
  have hafter := clockStep_pwmAfter h hs
  obtain ⟨-, hdiv, -, hpre, -⟩ := hs
  have hnot : s.hPre.toNat + 1 = s.pwmDiv.toNat → s.pwmCnt.toNat ≠ 2 ^ s.pwmRes.toNat - 1 := fun hfull hlast =>
    absurd ((refreshBoundary_iff s).2 ⟨hen, hfull, hlast⟩) (by simp [hb])
  obtain ⟨r, -, rfl⟩ := (clockStep_next s t).1 h
  simp only [Claims.pwmAfter, hen, if_true] at hafter
  split at hafter
  next hfull =>
    rw [if_neg (hnot (by omega))] at hafter
    obtain ⟨hpre', hcnt', -⟩ := hafter
    rw [pwmPhase, hpre', hcnt', applyClock_pwmDiv, Nat.mul_succ, pwmPhase]
    simp only [BitVec.toNat_ofNat]
    omega
  next =>
    obtain ⟨hpre', hcnt', -⟩ := hafter
    rw [pwmPhase, hpre', hcnt', applyClock_pwmDiv, pwmPhase, Nat.add_assoc]

/-- A refresh boundary starts the next period. -/
theorem clockStep_phase_refresh {s t : State} (h : clockStep s = .next t) (hb : refreshBoundary s = true) : pwmPhase t = 0 := by
  obtain ⟨hen, hfull, hlast⟩ := (refreshBoundary_iff s).1 hb
  obtain ⟨r, -, rfl⟩ := (clockStep_next s t).1 h
  simp [pwmPhase, pwmPart_refresh s hen hfull hlast]

/-- DUTY_ACTIVE takes the level committed before the edge at a refresh boundary, and stays otherwise. -/
theorem clockStep_active {s t : State} (h : clockStep s = .next t) :
    t.dutyActive = if refreshBoundary s then s.dutyCommit else s.dutyActive := by
  obtain ⟨r, -, rfl⟩ := (clockStep_next s t).1 h
  exact pwmPart_active s

/-- `t` is where the running modulator of `s` stands `k` clock steps later: still running with the same configuration, `k` phases on. -/
structure PhaseAfter (s : State) (k : Nat) (t : State) : Prop where
  legal : t.pwmLegal
  en : t.pwmEn = true
  res : t.pwmRes = s.pwmRes
  div : t.pwmDiv = s.pwmDiv
  phase : pwmPhase t = (pwmPhase s + k) % pwmPeriod s

/-- The period is the configuration's. -/
theorem PhaseAfter.period {s t : State} {k : Nat} (h : PhaseAfter s k t) : pwmPeriod t = pwmPeriod s := by
  rw [pwmPeriod, h.div, h.res, pwmPeriod]

/-- Phases add up around the period. -/
theorem PhaseAfter.trans {s t u : State} {k m : Nat} (h : PhaseAfter s k t) (h' : PhaseAfter t m u) : PhaseAfter s (k + m) u where
  legal := h'.legal
  en := h'.en
  res := h'.res.trans h.res
  div := h'.div.trans h.div
  phase := by rw [h'.phase, h.phase, h.period, Nat.mod_add_mod, Nat.add_assoc]

/-- A clock step moves a running modulator one phase on, around the end of the period. -/
theorem clockStep_phaseAfter {s t : State} (h : clockStep s = .next t) (hs : s.pwmLegal) (hen : s.pwmEn = true) :
    PhaseAfter s 1 t := by
  have hphase : pwmPhase t = (pwmPhase s + 1) % pwmPeriod s := by
    have hlt := pwmPhase_lt hs
    have hiff := refreshBoundary_iff_phase hs hen
    cases hb : refreshBoundary s with
    | true => rw [clockStep_phase_refresh h hb, hiff.1 hb, Nat.mod_self]
    | false =>
      have hne : pwmPhase s + 1 ≠ pwmPeriod s := fun heq => by simp [hiff.2 heq] at hb
      rw [clockStep_phase_succ h hs hen hb, Nat.mod_eq_of_lt (by omega)]
  obtain ⟨r, -, rfl⟩ := (clockStep_next s t).1 h
  exact ⟨applyClock_pwmLegal s r hs, hen, rfl, rfl, hphase⟩

/-! ## Clock steps in a row -/

/-- One clock step and then `n`. -/
theorem clockSteps_succ_next {n : Nat} {s t : State} :
    clockSteps (n + 1) s = .next t ↔ ∃ u, clockStep s = .next u ∧ clockSteps n u = .next t := by
  simp only [clockSteps]
  cases clockStep s <;> simp

/-- Completed clock steps, cut in two. -/
theorem clockSteps_add_next {n m : Nat} {s t : State} (h : clockSteps (n + m) s = .next t) :
    ∃ u, clockSteps n s = .next u ∧ clockSteps m u = .next t := by
  induction n generalizing s with
  | zero => exact ⟨s, rfl, by rwa [Nat.zero_add] at h⟩
  | succ n ih =>
    rw [Nat.succ_add, clockSteps_succ_next] at h
    obtain ⟨v, hv, h⟩ := h
    obtain ⟨u, hu, h⟩ := ih h
    exact ⟨u, clockSteps_succ_next.2 ⟨v, hv, hu⟩, h⟩

/-- R70: `k` clock steps move a running modulator `k` phases on. -/
theorem clockSteps_phaseAfter {k : Nat} {s t : State} (h : clockSteps k s = .next t) (hs : s.pwmLegal) (hen : s.pwmEn = true) :
    PhaseAfter s k t := by
  induction k generalizing s with
  | zero =>
    cases h
    exact ⟨hs, hen, rfl, rfl, (Nat.mod_eq_of_lt (pwmPhase_lt hs)).symm⟩
  | succ k ih =>
    obtain ⟨u, hu, h⟩ := clockSteps_succ_next.1 h
    have hone := clockStep_phaseAfter hu hs hen
    rw [Nat.add_comm]
    exact hone.trans (ih h hone.legal hone.en)

/-- R71: the active level is latched within a period. -/
theorem clockSteps_active_within {k : Nat} {s t : State} (h : clockSteps k s = .next t) (hs : s.pwmLegal) (hen : s.pwmEn = true)
    (hk : pwmPhase s + k < pwmPeriod s) : t.dutyActive = s.dutyActive := by
  induction k generalizing s with
  | zero => cases h; rfl
  | succ k ih =>
    obtain ⟨u, hu, h⟩ := clockSteps_succ_next.1 h
    have hb : refreshBoundary s = false := Bool.eq_false_iff.2 fun hb => by
      have := (refreshBoundary_iff_phase hs hen).1 hb
      omega
    have hone := clockStep_phaseAfter hu hs hen
    rw [ih h hone.legal hone.en (by rw [hone.period, clockStep_phase_succ hu hs hen hb]; omega), clockStep_active hu, hb]
    rfl

/-- R71: past a refresh boundary and before the next one, the active level is what was committed just before it. -/
theorem clockSteps_active_refreshed {k : Nat} {s t : State} (h : clockSteps k s = .next t) (hs : s.pwmLegal) (hen : s.pwmEn = true)
    (hstart : pwmPhase s = 0) (hk : pwmPeriod s ≤ k) :
    ∃ u, clockSteps (k / pwmPeriod s * pwmPeriod s - 1) s = .next u ∧ t.dutyActive = u.dutyCommit := by
  have hpos : 0 < pwmPeriod s := Nat.zero_lt_of_lt (pwmPhase_lt hs)
  have hsplit : k = (k / pwmPeriod s * pwmPeriod s - 1) + (1 + k % pwmPeriod s) := by
    have hdiv := Nat.div_add_mod' k (pwmPeriod s)
    have hmod := Nat.mod_lt k hpos
    omega
  have hlast : (k / pwmPeriod s * pwmPeriod s - 1) % pwmPeriod s + 1 = pwmPeriod s := by
    obtain ⟨q, hq⟩ := Nat.exists_eq_add_of_le' (Nat.div_pos hk hpos)
    rw [hq, Nat.succ_mul, Nat.add_sub_assoc hpos, Nat.mul_add_mod', Nat.mod_eq_of_lt (by omega)]
    omega
  rw [hsplit] at h
  obtain ⟨u, hu, h⟩ := clockSteps_add_next h
  rw [Nat.add_comm, clockSteps_succ_next] at h
  obtain ⟨v, hv, h⟩ := h
  have hat := clockSteps_phaseAfter hu hs hen
  have hb : refreshBoundary u = true := by
    rw [refreshBoundary_iff_phase hat.legal hat.en, hat.phase, hat.period, hstart, Nat.zero_add, hlast]
  have hone := clockStep_phaseAfter hv hat.legal hat.en
  refine ⟨u, hu, ?_⟩
  rw [clockSteps_active_within h hone.legal hone.en, clockStep_active hv, hb]
  · rfl
  · rw [clockStep_phase_refresh hv hb, hone.period, hat.period, Nat.zero_add]
    exact Nat.mod_lt k hpos

/-- With no render running, clock steps change nothing but the PWM part's fields. -/
theorem clockSteps_idle_frame {k : Nat} {s t : State} (h : clockSteps k s = .next t) (hidle : s.rbusy = false) :
    t = { s with pwmCnt := t.pwmCnt, hPre := t.hPre, dutyActive := t.dutyActive } := by
  induction k generalizing s with
  | zero => cases h; rfl
  | succ k ih =>
    obtain ⟨u, hu, h⟩ := clockSteps_succ_next.1 h
    rw [clockStep_idle hidle, Host.Outcome.next.injEq] at hu
    subst hu
    exact ih (s := applyClock s (renderHold s) (pwmPart s)) h hidle

/-- A render that meets no Poison completes the clock step, and meets none from there. -/
theorem clockStep_of_renderContinues {s : State} (hs : renderContinues s) : ∃ t, clockStep s = .next t ∧ renderContinues t := by
  cases hbusy : s.rbusy with
  | false => exact ⟨_, clockStep_idle hbusy, fun hb => by simp [renderHold, hbusy] at hb⟩
  | true =>
    obtain ⟨hlegal, hmarks⟩ := hs hbusy
    obtain ⟨hle, -⟩ := hlegal.2 hbusy
    have complete_by (r : RenderWrites) (hr : renderPart s = .ok r) (hpos : s.rpos.toNat ≤ r.rpos.toNat) :
        ∃ t, clockStep s = .next t ∧ renderContinues t :=
      ⟨_, (clockStep_next _ _).2 ⟨r, hr, rfl⟩, fun _ =>
        ⟨applyClock_renderLegal s r _ hr hlegal, fun i hi hlt => hmarks i (hpos.trans hi) hlt⟩⟩
    by_cases hwait : s.hTcnt = 0#24
    · by_cases hend : s.rpos = s.hRlenL
      · exact complete_by _ (renderPart_done s hbusy hwait hend) (Nat.le_refl _)
      · have hlt : s.rpos.toNat < s.hRlenL.toNat := by bv_omega
        obtain ⟨b, hb⟩ := Option.isSome_iff_exists.1 (hmarks _ (Nat.le_refl _) hlt)
        refine complete_by _ (renderPart_tick s b hbusy hwait hend hb) ?_
        show s.rpos.toNat ≤ (s.rpos + 1#13).toNat
        bv_omega
    · exact complete_by _ (renderPart_wait s hbusy hwait) (Nat.le_refl _)

/-- So every number of clock steps completes. -/
theorem clockSteps_of_renderContinues (k : Nat) {s : State} (hs : renderContinues s) : ∃ t, clockSteps k s = .next t := by
  induction k generalizing s with
  | zero => exact ⟨s, rfl⟩
  | succ k ih =>
    obtain ⟨u, hu, hcont⟩ := clockStep_of_renderContinues hs
    obtain ⟨t, ht⟩ := ih hcont
    exact ⟨t, clockSteps_succ_next.2 ⟨u, hu, ht⟩⟩

/-! ## Host accesses and the period (R66, R67) -/

/-- No host access that leaves the modulator running moves its period: CTRL then changes nothing, and PWM_CFG is locked. -/
theorem HostEffect.keeps_period {s : State} {i : Instr} {u : State} (he : HostEffect s i u) (hen : s.pwmEn = true)
    (hon : u.pwmEn = true) :
    u.pwmCnt = s.pwmCnt ∧ u.hPre = s.hPre ∧ u.pwmRes = s.pwmRes ∧ u.pwmDiv = s.pwmDiv ∧ u.dutyActive = s.dutyActive := by
  induction he with
  | ctrl d =>
    have hsame : setPwmEnable (bitOf d 0) s = s := by
      rw [setPwmEnable_pwmEn] at hon
      simp [setPwmEnable, hen, hon]
    rw [hsame]
    exact ⟨rfl, rfl, rfl, rfl, rfl⟩
  | pwmCfg d hoff => rw [hoff] at hen; cases hen
  | transform | cap | rend => rw [storeBytes_eq]; exact ⟨rfl, rfl, rfl, rfl, rfl⟩
  | command d u _ ih => exact ih hon
  | _ => exact ⟨rfl, rfl, rfl, rfl, rfl⟩

/-- A period has just started where both counters are clear. -/
theorem pwmPhase_zero {s : State} (hcnt : s.pwmCnt = 0#15) (hpre : s.hPre = 0#16) : pwmPhase s = 0 := by
  simp [pwmPhase, hcnt, hpre]

/-- The last phase of a period, on the number of clock steps since one started. -/
theorem mod_succ_eq_iff (k : Nat) {n : Nat} (hn : 0 < n) : k % n + 1 = n ↔ (k + 1) % n = 0 := by
  obtain ⟨m, rfl⟩ := Nat.exists_eq_add_one.2 hn
  rw [Nat.succ_mod_succ_eq_zero_iff, Nat.add_right_cancel_iff]

/-- Settles O34: the two counters, the boundary and the active level are read off the phase `k mod (DIV x 2^RES)`. -/
theorem pwmCountsThePeriod : Obligations.PwmCountsThePeriod := by
  unfold Obligations.PwmCountsThePeriod
  refine ⟨fun s k hs hen hcnt hpre => ⟨clockSteps_of_renderContinues k, fun t h => ?_⟩, fun i s t hen h hon => ?_⟩
  · have hstart := pwmPhase_zero hcnt hpre
    have hat := clockSteps_phaseAfter h hs hen
    have hphase : pwmPhase t = k % (s.pwmDiv.toNat * 2 ^ s.pwmRes.toNat) := by rw [hat.phase, hstart, Nat.zero_add, pwmPeriod]
    have hwithin (hk : k < s.pwmDiv.toNat * 2 ^ s.pwmRes.toNat) : t.dutyActive = s.dutyActive :=
      clockSteps_active_within h hs hen (by rwa [hstart, Nat.zero_add])
    have hrefreshed := clockSteps_active_refreshed h hs hen hstart
    refine ⟨?_, ?_, ?_, hwithin, hrefreshed, fun hidle => ?_⟩
    · rw [← pwmPhase_div hat.legal, hphase, hat.div, Nat.mod_mul_right_div_self]
    · rw [← pwmPhase_mod hat.legal, hphase, hat.div, Nat.mod_mul_right_mod]
    · rw [refreshBoundary_iff_phase hat.legal hat.en, hphase, hat.period, pwmPeriod, mod_succ_eq_iff]
      exact Nat.zero_lt_of_lt (pwmPhase_lt hs)
    · have hactive : t.dutyActive = if s.pwmDiv.toNat * 2 ^ s.pwmRes.toNat ≤ k then s.dutyCommit else s.dutyActive := by
        split
        next hk =>
          obtain ⟨u, hu, hcommit⟩ := hrefreshed hk
          rw [hcommit, clockSteps_idle_frame hu hidle]
        next hk => exact hwithin (Nat.not_le.1 hk)
      rw [← hactive]
      exact clockSteps_idle_frame h hidle
  · obtain ⟨u, r, he, rfl⟩ := exec_effect i s t h
    exact he.keeps_period hen hon

/-! ## The duty cycle (R70) -/

/-- The output is high in the first `DC x DIV` phases of a period (R69). -/
theorem pwmOut_iff_phase {s : State} (hs : s.pwmLegal) (hen : s.pwmEn = true) :
    pwmOut s = true ↔ pwmPhase s < compareValue s * s.pwmDiv.toNat := by
  have hdiv : 0 < s.pwmDiv.toNat := hs.2.1
  rw [← Nat.div_lt_iff_lt_mul hdiv, pwmPhase_div hs, pwmOut, hen, Bool.true_and, decide_eq_true_eq]

/-- The compare value never passes the end of the period. -/
theorem compareValue_le {s : State} (hs : s.pwmLegal) : compareValue s ≤ 2 ^ s.pwmRes.toNat := by
  calc compareValue s ≤ 2 ^ 8 * 2 ^ (s.pwmRes.toNat - 8) := Nat.mul_le_mul_right _ s.dutyActive.isLt.le
    _ = 2 ^ s.pwmRes.toNat := by rw [← Nat.pow_add, Nat.add_sub_cancel' hs.1]

/-- One more clock step adds the output of the state before it. -/
theorem highSteps_succ {n : Nat} {s t : State} (h : clockSteps n s = .next t) :
    Claims.highSteps (n + 1) s = Claims.highSteps n s + if pwmOut t = true then 1 else 0 := by
  induction n generalizing s with
  | zero =>
    obtain rfl : s = t := by simpa [clockSteps] using h
    simp only [Claims.highSteps]
    cases clockStep s <;> simp
  | succ n ih =>
    obtain ⟨u, hu, h⟩ := clockSteps_succ_next.1 h
    have hhead (m : Nat) : Claims.highSteps (m + 1) s = (if pwmOut s = true then 1 else 0) + Claims.highSteps m u := by
      simp only [Claims.highSteps, hu]
    rw [hhead, ih h, hhead, Nat.add_assoc]

/-- Inside the first period the high steps come first: they are the steps below `DC x DIV`. -/
theorem highSteps_eq_min {n : Nat} {s t : State} (h : clockSteps n s = .next t) (hs : s.pwmLegal) (hen : s.pwmEn = true)
    (hstart : pwmPhase s = 0) (hn : n ≤ pwmPeriod s) : Claims.highSteps n s = min n (compareValue s * s.pwmDiv.toNat) := by
  induction n generalizing t with
  | zero => simp [Claims.highSteps]
  | succ n ih =>
    obtain ⟨u, hu, -⟩ := clockSteps_add_next h
    have hat := clockSteps_phaseAfter hu hs hen
    have hphase : pwmPhase u = n := by rw [hat.phase, hstart, Nat.zero_add, Nat.mod_eq_of_lt hn]
    have hdc : compareValue u = compareValue s := by
      rw [compareValue, compareValue, hat.res, clockSteps_active_within hu hs hen (by omega)]
    rw [highSteps_succ hu, ih hu (by omega)]
    simp only [pwmOut_iff_phase hat.legal hat.en, hphase, hdc, hat.div]
    split <;> omega

/-- Settles O35: over a whole period the high steps are all `DC x DIV` of them (`highSteps_eq_min`), since `DC` is at most `2^RES`. -/
theorem pwmDutyIsExact : Obligations.PwmDutyIsExact := by
  unfold Obligations.PwmDutyIsExact
  intro s hs hen hcnt hpre
  refine ⟨clockSteps_of_renderContinues _, fun t h => ?_⟩
  have hle : compareValue s * s.pwmDiv.toNat ≤ pwmPeriod s :=
    (Nat.mul_le_mul_right _ (compareValue_le hs)).trans_eq (Nat.mul_comm _ _)
  exact (highSteps_eq_min h hs hen (pwmPhase_zero hcnt hpre) (Nat.le_refl _)).trans (Nat.min_eq_right hle)

end Sys2Proof.Machine
end

section
/-! SUPPORT. Proofs of the family 42_render.md: the RENDER command (R72), the render part of the clock step (R73), what ends a render (R75),
and the schedule of its levels (R74) with their way to the output (R76). Where a render stands is read as two numbers, the levels taken and
the clock steps left to the next tick; the schedule is how clock steps move them. -/

namespace Sys2Proof.Machine

/-! ## The command (R72) -/

/-- Both forms of RENDER run one operation (R49, R96). -/
theorem exec_renderForm {i : Instr} (s : State) (h : Claims.commandForm .cmdRender 0x3#4 i) : exec i s = execCmdRender 0#28 s := by
  rcases h with ⟨rsv, rfl⟩ | ⟨d, rfl, hopc⟩
  · rfl
  · rw [exec_wrCmd, ← runCommand_eq]
    simp only [runCommand, opcField, hopc]
    rfl

/-- The lengths a RENDER may play. -/
theorem lengthInRange_iff (s : State) : lengthInRange s = true ↔ 1 ≤ s.rlen.toNat ∧ s.rlen.toNat ≤ s.params.rendLen := by
  simp [lengthInRange, Nat.one_le_iff_ne_zero]

/-- While a render runs the operation is refused, whatever the length. -/
theorem execCmdRender_busy (rsv : BitVec 28) {s : State} (h : s.rbusy = true) :
    execCmdRender rsv s = .next (Claims.recorded 2#4 s) := if_pos h

/-- With no render running a length that cannot be played is refused. -/
theorem execCmdRender_range (rsv : BitVec 28) {s : State} (h : s.rbusy = false) (hlen : lengthInRange s = false) :
    execCmdRender rsv s = .next (Claims.recorded 3#4 s) :=
  (if_neg (by simp [h])).trans (if_neg (by simp [hlen]))

/-- With no render running a length in range starts one. -/
theorem execCmdRender_start (rsv : BitVec 28) {s : State} (h : s.rbusy = false) (hlen : lengthInRange s = true) :
    execCmdRender rsv s = .next ((startRender s).respond .writeDone) :=
  (if_neg (by simp [h])).trans (if_pos hlen)

/-- Settles O15: the three answers of the operation that both forms run. -/
theorem renderStartsOrIsRefused : Obligations.RenderStartsOrIsRefused := by
  unfold Obligations.RenderStartsOrIsRefused
  intro i s hi
  rw [exec_renderForm s hi]
  refine ⟨execCmdRender_busy 0#28, fun hidle hout => execCmdRender_range 0#28 hidle ?_,
    fun hidle hpos hmax => execCmdRender_start 0#28 hidle ((lengthInRange_iff s).2 ⟨hpos, hmax⟩)⟩
  rw [Bool.eq_false_iff, Ne, lengthInRange_iff]
  omega

/-! ## The render part of a clock step (R73) -/

/-- Between ticks a clock step counts `h.TCNT` down. -/
theorem clockStep_wait {s : State} (h : s.rbusy = true) (ht : s.hTcnt ≠ 0#24) :
    clockStep s = .next (applyClock s { renderHold s with tcnt := s.hTcnt - 1#24 } (pwmPart s)) :=
  (clockStep_next _ _).2 ⟨_, renderPart_wait s h ht, rfl⟩

/-- A tick after the last level completes the render. -/
theorem clockStep_done {s : State} (h : s.rbusy = true) (ht : s.hTcnt = 0#24) (hp : s.rpos = s.hRlenL) :
    clockStep s = .next (applyClock s { renderHold s with rbusy := false, rdone := true } (pwmPart s)) :=
  (clockStep_next _ _).2 ⟨_, renderPart_done s h ht hp, rfl⟩

/-- A tick before it takes the level at RPOS. -/
theorem clockStep_tick {s : State} {b : Byte} (h : s.rbusy = true) (ht : s.hTcnt = 0#24) (hp : s.rpos ≠ s.hRlenL)
    (hb : s.ramByte .rend s.rpos.toNat = some b) :
    clockStep s = .next (applyClock s
      { renderHold s with stage := b, commit := b, rpos := s.rpos + 1#13, tcnt := s.hTdivL - 1#24 } (pwmPart s)) :=
  (clockStep_next _ _).2 ⟨_, renderPart_tick s b h ht hp hb, rfl⟩

/-- A tick over an unwritten level is Poison. -/
theorem clockStep_poison {s : State} (h : s.rbusy = true) (ht : s.hTcnt = 0#24) (hp : s.rpos ≠ s.hRlenL)
    (hb : s.ramByte .rend s.rpos.toNat = none) : clockStep s = .fault (.poison .rend s.rpos.toNat) := by
  rw [clockStep, renderPart_poison s h ht hp hb]

/-- A tick count above 0 goes down by 1. -/
theorem toNat_sub_one {x : BitVec 24} (h : 1 ≤ x.toNat) : (x - 1#24).toNat = x.toNat - 1 := by
  bv_omega

/-- Settles O32: one equation of the clock step per case of R73; inside R34 neither RPOS nor `h.TCNT` overflows. -/
theorem clockStepRunsTheRenderPart : Obligations.ClockStepRunsTheRenderPart := by
  unfold Obligations.ClockStepRunsTheRenderPart
  rintro s ⟨-, hrun⟩
  refine ⟨fun hidle => ⟨_, clockStep_idle hidle, rfl, rfl, rfl, hidle, rfl, rfl⟩,
    fun hbusy hwait => ⟨_, clockStep_wait hbusy hwait, rfl, rfl, rfl, hbusy, rfl, ?_⟩,
    fun hbusy htick hend => ⟨_, clockStep_done hbusy htick hend, rfl, rfl, rfl, rfl, rfl, rfl⟩,
    fun b hbusy htick hpos hb => ?_,
    fun hbusy htick hpos hmark => clockStep_poison hbusy htick hpos (by simpa [State.ramMark] using hmark)⟩
  · exact toNat_sub_one (by bv_omega)
  · obtain ⟨hle, -, -, -, hdiv⟩ := hrun hbusy
    refine ⟨_, clockStep_tick hbusy htick hpos hb, rfl, rfl, ?_, hbusy, rfl, toNat_sub_one hdiv⟩
    show (s.rpos + 1#13).toNat = s.rpos.toNat + 1
    bv_omega

/-! ## What ends a render (R75) -/

/-- No host access changes where a running render stands or what it has staged and committed. -/
theorem HostEffect.keeps_levels {s : State} {i : Instr} {u : State} (he : HostEffect s i u) (hbusy : s.rbusy = true) :
    u.rbusy = true ∧ u.rpos = s.rpos ∧ u.hRlenL = s.hRlenL ∧ u.hTdivL = s.hTdivL ∧ u.hTcnt = s.hTcnt ∧
      u.dutyStage = s.dutyStage ∧ u.dutyCommit = s.dutyCommit := by
  induction he with
  | ctrl d => simp [hbusy]
  | transform | cap | rend => simp [hbusy]
  | stage d hidle | commit rsv hidle | render rsv hidle => rw [hidle] at hbusy; cases hbusy
  | command d u _ ih => exact ih
  | _ => exact ⟨hbusy, rfl, rfl, rfl, rfl, rfl, rfl⟩

/-- A clock step that ends a render is the tick after its last level, and sets RDONE. -/
theorem clockStep_ends_render {s t : State} (h : clockStep s = .next t) (hbusy : s.rbusy = true) (hoff : t.rbusy = false) :
    s.rpos = s.hRlenL ∧ s.hTcnt = 0#24 ∧ t.intRdone = true := by
  obtain ⟨r, hr, rfl⟩ := (clockStep_next s t).1 h
  have hon : s.rbusy ≠ false := by simp [hbusy]
  rcases renderPart_cases s r hr with ⟨hidle, -⟩ | ⟨-, -, rfl⟩ | ⟨-, htick, hend, rfl⟩ | ⟨b, -, -, -, -, rfl⟩
  · exact absurd hidle hon
  · exact absurd hoff hon
  · exact ⟨hend, htick, rfl⟩
  · exact absurd hoff hon

/-- Settles O40: of a step's four kinds, a host access keeps the render running and a bus cycle outside the window changes nothing. -/
theorem nothingStopsARenderButReset : Obligations.NothingStopsARenderButReset := by
  unfold Obligations.NothingStopsARenderButReset
  refine ⟨fun i s t hbusy h => ?_, fun i s hbusy hi => ?_, fun s t hbusy h hoff => ?_⟩
  · obtain ⟨u, r, he, rfl⟩ := exec_effect i s t h
    exact he.keeps_levels hbusy
  · rw [exec_renderForm s hi]
    exact execCmdRender_busy 0#28 hbusy
  · rcases step_cases s t h with ⟨hturn, hc⟩ | ⟨rest, hin, -⟩ | ⟨i, -, hi⟩ | ⟨-, -, -, -, -, -, rfl⟩
    · exact .inr ⟨hturn, clockStep_ends_render (s := { s with inputs := s.inputs.tail }) hc hbusy hoff⟩
    · exact .inl (by rw [hin]; rfl)
    · obtain ⟨u, r, he, rfl⟩ := exec_effect i _ t hi
      exact absurd hoff (by simp [(he.keeps_levels hbusy).1])
    · exact absurd hoff (by simp [hbusy])

/-! ## The schedule (R74) -/

/-- `t` is inside the render that RENDER starts in `s`: `p` levels have been taken, the last of them is staged and committed, and the
next tick is `c` clock steps away. -/
structure RenderAt (s : State) (p c : Nat) (t : State) : Prop where
  busy : t.rbusy = true
  len : t.hRlenL = s.rlen
  interval : t.hTdivL = s.tickDiv
  mem : t.mem = s.mem
  pos : t.rpos.toNat = p
  left : t.hTcnt.toNat = c
  level : ∀ i, p = i + 1 → s.ramByte .rend i = some t.dutyCommit ∧ t.dutyStage = t.dutyCommit

/-- RENDER takes no level itself, and the first tick is due at once. -/
theorem startRender_renderAt (s : State) (a : BusResponse) : RenderAt s 0 0 ((startRender s).respond a) :=
  ⟨rfl, rfl, rfl, rfl, rfl, rfl, nofun⟩

/-- A clock step between ticks. -/
theorem RenderAt.wait {s t : State} {p c : Nat} (h : RenderAt s p (c + 1) t) : ∃ u, clockStep t = .next u ∧ RenderAt s p c u := by
  obtain ⟨hbusy, hlen, hint, hmem, hpos, hleft, hlevel⟩ := h
  refine ⟨_, clockStep_wait hbusy fun h0 => ?_, hbusy, hlen, hint, hmem, hpos, ?_, hlevel⟩
  · simp [h0] at hleft
  · exact (toNat_sub_one (by omega)).trans (by omega)

/-- The clock steps up to the next tick. -/
theorem RenderAt.waits {s t : State} {p c : Nat} (k : Nat) (h : RenderAt s p (c + k) t) :
    ∃ u, clockSteps k t = .next u ∧ RenderAt s p c u := by
  induction k generalizing t with
  | zero => exact ⟨t, rfl, h⟩
  | succ k ih =>
    obtain ⟨v, hv, hat⟩ := h.wait
    obtain ⟨u, hu, hat⟩ := ih hat
    exact ⟨u, clockSteps_succ_next.2 ⟨v, hv, hu⟩, hat⟩

/-- The tick before the last level takes a written byte of REND_RAM. -/
theorem RenderAt.tick {s t : State} {p : Nat} (h : RenderAt s p 0 t) (hT : 1 ≤ s.tickDiv.toNat) (hp : p < s.rlen.toNat)
    (hmark : s.ramMark .rend p = true) : ∃ u, clockStep t = .next u ∧ RenderAt s (p + 1) (s.tickDiv.toNat - 1) u := by
  obtain ⟨hbusy, hlen, hint, hmem, rfl, hleft, -⟩ := h
  obtain ⟨b, hb⟩ := Option.isSome_iff_exists.1 hmark
  have hbt : t.ramByte .rend t.rpos.toNat = some b := by rw [State.ramByte, hmem]; exact hb
  have hne : t.rpos ≠ t.hRlenL := fun heq => by rw [heq, hlen] at hp; exact Nat.lt_irrefl _ hp
  refine ⟨_, clockStep_tick hbusy (BitVec.eq_of_toNat_eq hleft) hne hbt, hbusy, hlen, hint, hmem, ?_, ?_, fun i hi => ?_⟩
  · show (t.rpos + 1#13).toNat = t.rpos.toNat + 1
    bv_omega
  · rw [← hint] at hT ⊢
    exact toNat_sub_one hT
  · rw [← Nat.succ.inj hi]
    exact ⟨hb, rfl⟩

/-- The `k`-th clock step from a due tick on, up to the next one: the level is taken at the first of them and stands at each. -/
theorem RenderAt.play {s t : State} {p k : Nat} (h : RenderAt s p 0 t) (hp : p < s.rlen.toNat) (hmark : s.ramMark .rend p = true)
    (hk : 1 ≤ k) (hkT : k ≤ s.tickDiv.toNat) : ∃ u, clockSteps k t = .next u ∧ RenderAt s (p + 1) (s.tickDiv.toNat - k) u := by
  obtain ⟨v, hv, hat⟩ := h.tick (hk.trans hkT) hp hmark
  obtain ⟨j, rfl⟩ := Nat.exists_eq_add_of_le' hk
  rw [show s.tickDiv.toNat - 1 = s.tickDiv.toNat - (j + 1) + j by omega] at hat
  obtain ⟨u, hu, hat⟩ := hat.waits j
  exact ⟨u, clockSteps_succ_next.2 ⟨v, hv, hu⟩, hat⟩

/-- `n` levels take `n x T` clock steps. -/
theorem RenderAt.levels {s t : State} (h : RenderAt s 0 0 t) (hT : 1 ≤ s.tickDiv.toNat) (hready : renderReady s s.rlen.toNat) {n : Nat}
    (hn : n ≤ s.rlen.toNat) : ∃ u, clockSteps (n * s.tickDiv.toNat) t = .next u ∧ RenderAt s n 0 u := by
  induction n with
  | zero => exact ⟨t, by rw [Nat.zero_mul]; rfl, h⟩
  | succ n ih =>
    obtain ⟨v, hv, hat⟩ := ih (by omega)
    obtain ⟨u, hu, hat⟩ := hat.play hn (hready n hn) hT (Nat.le_refl _)
    rw [Nat.sub_self] at hat
    exact ⟨u, by rw [Nat.succ_mul]; exact (clockSteps_add _ _ _ _ hv).trans hu, hat⟩

/-- R74: level `i` stands from clock step `i x T + 1` to `(i + 1) x T`. -/
theorem RenderAt.schedule {s t : State} (h : RenderAt s 0 0 t) (hready : renderReady s s.rlen.toNat) {i k : Nat} (hi : i < s.rlen.toNat)
    (hk : 1 ≤ k) (hkT : k ≤ s.tickDiv.toNat) :
    ∃ u, clockSteps (i * s.tickDiv.toNat + k) t = .next u ∧ RenderAt s (i + 1) (s.tickDiv.toNat - k) u := by
  obtain ⟨v, hv, hat⟩ := h.levels (hk.trans hkT) hready hi.le
  obtain ⟨u, hu, hat⟩ := hat.play hi (hready i hi) hk hkT
  exact ⟨u, (clockSteps_add _ _ _ _ hv).trans hu, hat⟩

/-- The tick after the last level completes the render and leaves that level staged and committed. -/
theorem RenderAt.done {s t : State} (h : RenderAt s s.rlen.toNat 0 t) (hlen : 1 ≤ s.rlen.toNat) :
    ∃ u, clockStep t = .next u ∧ u.rbusy = false ∧ u.intRdone = true ∧ u.rpos = s.rlen ∧ u.dutyStage = u.dutyCommit ∧
      s.ramByte .rend (s.rlen.toNat - 1) = some u.dutyCommit := by
  have hpos : t.rpos = s.rlen := BitVec.eq_of_toNat_eq h.pos
  obtain ⟨hcommit, hstage⟩ := h.level (s.rlen.toNat - 1) (by omega)
  exact ⟨_, clockStep_done h.busy (BitVec.eq_of_toNat_eq h.left) (hpos.trans h.len.symm), rfl, rfl, hpos, hstage, hcommit⟩

/-- Settles O39: `RenderAt.schedule` from the state RENDER answers, and the tick after the last level. -/
theorem renderKeepsItsSchedule : Obligations.RenderKeepsItsSchedule := by
  unfold Obligations.RenderKeepsItsSchedule
  intro rsv s hidle hpos hmax hT hready
  have hstart := startRender_renderAt s .writeDone
  refine ⟨_, execCmdRender_start rsv hidle ((lengthInRange_iff s).2 ⟨hpos, hmax⟩), rfl, rfl, rfl, fun i k hi hk hkT => ?_, ?_⟩
  · obtain ⟨t, ht, hat⟩ := hstart.schedule hready hi hk hkT
    obtain ⟨hcommit, -⟩ := hat.level i rfl
    exact ⟨t, ht, hcommit, hat.pos, hat.busy⟩
  · obtain ⟨v, hv, hat⟩ := hstart.levels hT hready (Nat.le_refl _)
    obtain ⟨t, ht, hdone⟩ := hat.done hpos
    exact ⟨t, (clockSteps_succ _ _ _ hv).trans ht, hdone⟩

/-! ## The way to the output (R76) -/

/-- A period's number of clock steps in a row hold one at a refresh boundary. -/
theorem exists_boundary_within (a x : Nat) {n : Nat} (hn : 0 < n) : ∃ m, a ≤ m ∧ m < a + n ∧ (x + m) % n + 1 = n := by
  have hlt := Nat.mod_lt (x + a) hn
  have hdiv := Nat.div_add_mod (x + a) n
  refine ⟨a + (n - 1 - (x + a) % n), by omega, by omega, ?_⟩
  rw [mod_succ_eq_iff _ hn, show x + (a + (n - 1 - (x + a) % n)) + 1 = n * ((x + a) / n + 1) by rw [Nat.mul_succ]; omega,
    Nat.mul_mod_right]

/-- The clock step of a refresh boundary makes the committed level the active one. -/
theorem clockSteps_refresh {m : Nat} {s u t : State} (h : clockSteps m s = .next u) (ht : clockStep u = .next t) (hs : s.pwmLegal)
    (hen : s.pwmEn = true) (hm : (pwmPhase s + m) % pwmPeriod s + 1 = pwmPeriod s) : t.dutyActive = u.dutyCommit := by
  have hat := clockSteps_phaseAfter h hs hen
  have hb : refreshBoundary u = true := by rw [refreshBoundary_iff_phase hat.legal hat.en, hat.phase, hat.period, hm]
  rw [clockStep_active ht, hb]
  rfl

/-- A started render over written levels meets no Poison. -/
theorem startRender_continues {s : State} (a : BusResponse) (hlen : lengthInRange s = true) (hs : s.renderLegal)
    (hready : renderReady s s.rlen.toNat) : renderContinues ((startRender s).respond a) :=
  fun _ => ⟨startRender_renderLegal s hlen hs, fun i _ hi => hready i hi⟩

/-- Settles O41: among the `T` clock steps that find REND[i] committed (`RenderAt.schedule`) one is at a refresh boundary, since a period has
no more than `T`, and it makes that level the active one. -/
theorem everyRenderedLevelReachesTheOutput : Obligations.EveryRenderedLevelReachesTheOutput := by
  unfold Obligations.EveryRenderedLevelReachesTheOutput
  intro rsv s hidle hpos hmax hT hready hpwm hen hperiod
  have hlen := (lengthInRange_iff s).2 ⟨hpos, hmax⟩
  have hlegal : s.renderLegal := ⟨hT, fun hbusy => absurd hbusy (by simp [hidle])⟩
  refine ⟨_, execCmdRender_start rsv hidle hlen, fun i hi => ?_⟩
  obtain ⟨m, hlo, hhi, hboundary⟩ := exists_boundary_within (i * s.tickDiv.toNat + 1) (pwmPhase s) (Nat.zero_lt_of_lt (pwmPhase_lt hpwm))
  have hhi' : m < i * s.tickDiv.toNat + 1 + s.tickDiv.toNat := hhi.trans_le (Nat.add_le_add_left hperiod _)
  obtain ⟨u, hu, hat⟩ := (startRender_renderAt s .writeDone).schedule (k := m - i * s.tickDiv.toNat) hready hi (by omega) (by omega)
  rw [show i * s.tickDiv.toNat + (m - i * s.tickDiv.toNat) = m by omega] at hu
  obtain ⟨t, ht⟩ := clockSteps_of_renderContinues (m + 1) (startRender_continues .writeDone hlen hlegal hready)
  have hstep : clockStep u = .next t := (clockSteps_succ _ _ _ hu).symm.trans ht
  refine ⟨m + 1, t, by omega, by rw [Nat.succ_mul]; omega, ht, ?_⟩
  rw [clockSteps_refresh hu hstep hpwm hen hboundary]
  exact (hat.level i rfl).1

end Sys2Proof.Machine
end

section
/-! SUPPORT. Proofs of the family 43_register_access.md: register reads (R77 to R92), register writes (R93 to R106), CMD and its commands
without a family (R96 to R98), the RAM windows (R107 to R112) and reserved space (R113, R114). Registers share one check and windows share
one check, so each shape of row is proved once, over the row; the statements put the rows of the table into it. -/

namespace Sys2Proof.Machine

/-! ## Register reads (R77 to R92) -/

/-- Below 0x1000 no narrower access is legal (20_memory.md R38). -/
theorem legalAccess_narrow {off : Offset} {w : Width} (hoff : off.toNat < 0x1000) (hw : w ≠ .b4) : legalAccess off w = false :=
  Bool.eq_false_iff.2 fun hl => hw (width_of_legal off w hoff hl)

/-- A 4-byte read of a register answers its word and changes nothing else. -/
theorem readRegister_word (off : Offset) (v : Word) (s : State) (hoff : off.toNat < 0x1000 ∧ off.toNat % 4 = 0) :
    readRegister off .b4 v s = .next (s.respond (.readData .b4 v)) :=
  hostAccess_legal _ _ _ _ s ((legalAccess_register off .b4 hoff.1).2 ⟨rfl, hoff.2⟩)

/-- A register's row is a read of that register at width 4 and a bus error at any other width. -/
theorem readsAs_of_row {off : Offset} {mk : Width → Instr} {v : State → Word} (hoff : off.toNat < 0x1000 ∧ off.toNat % 4 = 0)
    (hrow : ∀ w d, decodeAccess .read off w d = mk w) (hexec : ∀ w s, exec (mk w) s = readRegister off w (v s) s) :
    Claims.readsAs off mk v :=
  ⟨hrow, fun s => (hexec .b4 s).trans (readRegister_word off (v s) s hoff),
    fun w s hw => (hexec w s).trans (hostAccess_illegal _ _ _ _ s (legalAccess_narrow hoff.1 hw))⟩

/-- The format bit of CFG, as R79 writes it. -/
theorem SampleFormat.bit_eq (f : SampleFormat) : f.bit = if f = .s32 then 1#1 else 0#1 := by
  cases f <;> rfl

/-- Settles O3: eight register rows (`readsAs_of_row`); CFG alone needs its format bit rewritten. -/
theorem identityAndLevelRegistersRead : Obligations.IdentityAndLevelRegistersRead := by
  unfold Obligations.IdentityAndLevelRegistersRead
  refine ⟨?_, ?_, ?cfg, ?_, ?_, ?_, ?_, ?_⟩
  case cfg =>
    refine readsAs_of_row (by decide) (fun _ _ => rfl) fun w s => ?_
    rw [← SampleFormat.bit_eq]
    rfl
  all_goals exact readsAs_of_row (by decide) (fun _ _ => rfl) fun _ _ => rfl

/-- PWM_CNT's word is 0 while the modulator is disabled (R34's PWM part). -/
theorem pwmCntWord_disabled {s : State} (hs : s.pwmLegal) (hoff : s.pwmEn = false) : pwmCntWord s = 0#32 := by
  obtain ⟨-, -, -, -, hdisabled⟩ := hs
  obtain ⟨hcnt, -⟩ := hdisabled hoff
  rw [pwmCntWord, hcnt]
  rfl

/-- TICK_DIV's word is 0 only where its field is. -/
theorem tickDivWord_ne_zero {s : State} (h : 1 ≤ s.tickDiv.toNat) : tickDivWord s ≠ 0#32 := by
  intro hzero
  have hnat : (tickDivWord s).toNat = 0 := congrArg BitVec.toNat hzero
  rw [tickDivWord, append_toNat, BitVec.toNat_ofNat] at hnat
  omega

/-- The clock step that ends a render leaves RPOS at the latched length (42_render.md R73). -/
theorem clockStep_ends_render_rpos {s t : State} (h : clockStep s = .next t) (hbusy : s.rbusy = true) (hoff : t.rbusy = false) :
    t.rpos = s.hRlenL := by
  obtain ⟨hend, htick, -⟩ := clockStep_ends_render h hbusy hoff
  rw [clockStep_done hbusy htick hend, Host.Outcome.next.injEq] at h
  rw [← h]
  exact hend

/-- Settles O4: seven register rows (`readsAs_of_row`), and the words of PWM_CNT, TICK_DIV and RPOS where R34 or the completing clock step
fixes them. -/
theorem counterAndInterruptRegistersRead : Obligations.CounterAndInterruptRegistersRead := by
  unfold Obligations.CounterAndInterruptRegistersRead
  refine ⟨?_, ?_, ?_, ?_, ?_, ?_, ?_, fun s hs hoff => ?cnt, fun s ⟨hdiv, _⟩ => ?div, fun s t hbusy h hoff => ?pos⟩
  case cnt =>
    rw [← pwmCntWord_disabled hs hoff]
    exact readRegister_word 0x0024#16 (pwmCntWord s) s (by decide)
  case div => exact ⟨_, readRegister_word 0x0028#16 (tickDivWord s) s (by decide), tickDivWord_ne_zero hdiv⟩
  case pos =>
    rw [← clockStep_ends_render_rpos h hbusy hoff]
    exact readRegister_word 0x0030#16 (rposWord t) t (by decide)
  all_goals exact readsAs_of_row (by decide) (fun _ _ => rfl) fun _ _ => rfl

/-- The pin is the comparison of R69. -/
theorem pwmOut_iff (s : State) :
    pwmOut s = true ↔ s.pwmEn = true ∧ s.pwmCnt.toNat < s.dutyActive.toNat * 2 ^ (s.pwmRes.toNat - 8) := by
  rw [pwmOut, Bool.and_eq_true, decide_eq_true_eq, compareValue]

/-- Settles O5: STATUS's row, the pin's comparison (`pwmOut_iff`), and the error part of R34. -/
theorem statusShowsErrorPinAndBusy : Obligations.StatusShowsErrorPinAndBusy := by
  unfold Obligations.StatusShowsErrorPinAndBusy
  exact ⟨readsAs_of_row (by decide) (fun _ _ => rfl) fun _ _ => rfl, fun s _ => pwmOut_iff s,
    fun _ ⟨hcode, _⟩ hclear => hcode.2 hclear⟩

/-! ## Register writes (R93 to R106) -/

/-- A read-only register's row ignores a write at width 4 and is a bus error at any other width. -/
theorem writesAs_of_readOnly {off : Offset} {mk : Width → Word → Instr} (hoff : off.toNat < 0x1000 ∧ off.toNat % 4 = 0)
    (hrow : ∀ w d, decodeAccess .write off w d = mk w (w.lanes d)) (hexec : ∀ w d s, exec (mk w d) s = ignoreWrite off w s) :
    Claims.writesAs off mk fun _ s => s :=
  writesAs_of_row (op := fun _ => complete) hoff hrow hexec fun _ _ => rfl

/-- Settles O6: six read-only rows (`writesAs_of_readOnly`). -/
theorem readOnlyRegistersIgnoreWrites : Obligations.ReadOnlyRegistersIgnoreWrites := by
  unfold Obligations.ReadOnlyRegistersIgnoreWrites
  refine ⟨?_, ?_, ?_, ?_, ?_, ?_⟩
  all_goals exact writesAs_of_readOnly (by decide) (fun _ _ => rfl) fun _ _ _ => rfl

/-- Settles O7: five rows whose effect always completes, with the fields the rules name (`writesAs_of_row`). -/
theorem configurationWritesStoreTheirFields : Obligations.ConfigurationWritesStoreTheirFields := by
  unfold Obligations.ConfigurationWritesStoreTheirFields
  refine ⟨?_, ?_, ?_, ?_, ?_⟩
  all_goals exact writesAs_of_row (by decide) (fun _ _ => rfl) (fun _ _ _ => rfl) fun _ _ => rfl

/-! ## CMD (R96 to R98) -/

/-- Both forms of NOP complete. -/
theorem exec_nopForm {i : Instr} (s : State) (h : Claims.commandForm .cmdNop 0x0#4 i) : exec i s = complete s := by
  rcases h with ⟨rsv, rfl⟩ | ⟨d, rfl, hopc⟩
  · rfl
  · rw [exec_wrCmd, ← runCommand_eq]
    simp only [runCommand, opcField, hopc]
    rfl

/-- An opcode above RENDER's is one of the reserved commands, which record E_BADOP whichever row of R98 they are. -/
theorem runCommand_reserved {d : Word} (s : State) (h : 4 ≤ (opcField d).toNat) : runCommand d s = raiseCmdError .badOp s := by
  have hne : ∀ o : BitVec 4, o.toNat < 4 → opcField d ≠ o := fun o ho heq => by rw [heq] at h; omega
  rw [runCommand, if_neg (hne _ (by decide)), if_neg (hne _ (by decide)), if_neg (hne _ (by decide)), if_neg (hne _ (by decide))]
  exact ite_self _

/-- Every form of a reserved command records E_BADOP. -/
theorem exec_reservedForm {i : Instr} (s : State) (h : Claims.reservedForm i) : exec i s = raiseCmdError .badOp s := by
  rcases h with ⟨opc, rsv, rfl⟩ | ⟨opc, rsv, rfl⟩ | ⟨d, rfl, hopc⟩
  · rfl
  · rfl
  · rw [exec_wrCmd, ← runCommand_eq, runCommand_reserved s hopc]

/-- Settles O13: the one operation behind the forms of each command. -/
theorem nopAndReservedCommands : Obligations.NopAndReservedCommands := by
  unfold Obligations.NopAndReservedCommands
  exact ⟨fun i s => exec_nopForm s, fun i s => exec_reservedForm s⟩

/-- Settles O12: a write of CMD with a command's opcode is a form of that command, and every form runs the command's operation. -/
theorem cmdWriteRunsTheCommandOfItsOpcode : Obligations.CmdWriteRunsTheCommandOfItsOpcode := by
  unfold Obligations.CmdWriteRunsTheCommandOfItsOpcode
  exact ⟨fun _ _ => rfl, fun d s _ hopc => exec_nopForm s (.inr ⟨d, rfl, hopc⟩),
    fun d s _ hopc => exec_transformForm s (.inr ⟨d, rfl, hopc⟩), fun d s _ hopc => exec_commitForm s (.inr ⟨d, rfl, hopc⟩),
    fun d s _ hopc => exec_renderForm s (.inr ⟨d, rfl, hopc⟩),
    fun d s _ _ hopc _ => exec_reservedForm s (.inr (.inr ⟨d, rfl, hopc⟩)),
    fun d s _ _ hopc => exec_reservedForm s (.inr (.inr ⟨d, rfl, (by decide : 4 ≤ 8).trans hopc⟩)),
    fun _ _ s hw => writeRegister_illegal s (legalAccess_narrow (by decide) hw)⟩

/-! ## The check of the RAM windows (20_memory.md R39) -/

/-- An access of a RAM window is checked by its byte index alone, since every window starts at a multiple of 4. -/
theorem legalAccess_offset {r : Ram} {k : Nat} (w : Width) (hk : r.addr k < 0x10000) :
    legalAccess (r.offset k) w = true ↔ k % w.bytes = 0 := by
  have hoff : (r.offset k).toNat = r.base + k := Nat.mod_eq_of_lt hk
  have hbase : 0x1000 ≤ r.base ∧ r.base % 4 = 0 := by cases r <;> decide
  rw [legalAccess_ram _ _ (by omega), hoff]
  cases w <;> simp only [Width.bytes] <;> omega

section Window

variable {n : Nat} {r : Ram} (hwin : r.base + 2 ^ n ≤ 0x10000)
include hwin

/-- An aligned access of a window runs the row's operation. -/
theorem hostAccess_aligned {dir : Dir} {w : Width} {i : BitVec n} {op : State → Result} {s : State} (h : i.toNat % w.bytes = 0) :
    hostAccess dir (r.offset i.toNat) w op s = op s :=
  hostAccess_legal _ _ _ _ s ((legalAccess_offset w ((Nat.add_lt_add_left i.isLt _).trans_le hwin)).2 h)

/-- A misaligned access of a window is a bus error and nothing else. -/
theorem hostAccess_misaligned {dir : Dir} {w : Width} {i : BitVec n} {op : State → Result} {s : State} (h : i.toNat % w.bytes ≠ 0) :
    hostAccess dir (r.offset i.toNat) w op s = .next (s.respond (.busError (r.offset i.toNat) w dir)) :=
  hostAccess_illegal _ _ _ _ s
    (Bool.eq_false_iff.2 fun hl => h ((legalAccess_offset w ((Nat.add_lt_add_left i.isLt _).trans_le hwin)).1 hl))

end Window

/-! ## Reads of the RAM windows (R107, R109, R111) -/

/-- A RAM read over written bytes answers each byte at its lane, and 0 beyond the implemented size and beyond the width. -/
theorem loadRam_of_marked {s : State} {r : Ram} {i : Nat} {w : Width}
    (h : ∀ k, k < w.bytes → i + k < r.size s.params → s.ramMark r (i + k) = true) :
    ∃ v, loadRam r i w s = .next (s.respond (.readData w v)) ∧
      ∀ k, k < 4 → v.extractLsb' (8 * k) 8 =
        if k < w.bytes ∧ i + k < r.size s.params then (s.ramByte r (i + k)).getD 0#8 else 0#8 := by
  obtain ⟨bs, hbs⟩ := readBytes_of_marked s r i w.bytes h
  obtain ⟨hlen, hbyte⟩ := readBytes_ok s r i w.bytes bs hbs
  refine ⟨leWord bs, by simp [loadRam, hbs], fun k hk => ?_⟩
  rw [leWord_lane bs k hk]
  by_cases hw : k < w.bytes
  · have hread := hbyte k hw
    by_cases hsize : i + k < r.size s.params
    · rw [if_pos hsize] at hread
      rw [if_pos ⟨hw, hsize⟩, hread]
    · rw [if_neg hsize] at hread
      rw [if_neg fun hin => hsize hin.2, hread, Option.getD_some]
  · rw [if_neg fun hin => hw hin.1, List.getElem?_eq_none (by omega), Option.getD_none]

/-- A RAM read raises Poison at the first implemented byte that nothing has written (20_memory.md R40). -/
theorem loadRam_of_unmarked {s : State} {r : Ram} {i k : Nat} {w : Width} (hk : k < w.bytes) (hsize : i + k < r.size s.params)
    (hmark : s.ramMark r (i + k) = false) (hbefore : ∀ j, j < k → i + j < r.size s.params → s.ramMark r (i + j) = true) :
    loadRam r i w s = .fault (.poison r (i + k)) := by
  simp only [loadRam, readBytes_of_unmarked s r i w.bytes k hk hsize hmark hbefore]

/-- A window's read row loads its bytes when aligned and is a bus error when not. -/
theorem ramReads_of_row {n : Nat} {r : Ram} {mk : Width → BitVec n → Instr} (hwin : r.base + 2 ^ n ≤ 0x10000)
    (hrow : ∀ w d (i : BitVec n), decodeAccess .read (r.offset i.toNat) w d = mk w i)
    (hexec : ∀ w (i : BitVec n) s, exec (mk w i) s = hostAccess .read (r.offset i.toNat) w (loadRam r i.toNat w) s) :
    Claims.ramReads n r r.base mk := by
  refine ⟨fun _ => rfl, hrow, fun w i s halign hmarked => ?_, fun w i s k halign hk hsize hmark hbefore => ?_, fun w i s halign => ?_⟩
  · rw [hexec, hostAccess_aligned hwin halign]
    exact loadRam_of_marked hmarked
  · rw [hexec, hostAccess_aligned hwin halign]
    exact loadRam_of_unmarked hk hsize hmark hbefore
  · exact (hexec w i s).trans (hostAccess_misaligned hwin halign)

/-- Settles O23: the read rows of the three windows (`ramReads_of_row`). -/
theorem ramReadsReturnTheWrittenBytes : Obligations.RamReadsReturnTheWrittenBytes := by
  unfold Obligations.RamReadsReturnTheWrittenBytes
  exact ⟨ramReads_of_row (by decide) (fun w d i => Ram.offset_cap i ▸ (decodeAccess_capByte w i d).1) fun _ _ _ => rfl,
    ramReads_of_row (by decide) (fun w d i => Ram.offset_out i ▸ (decodeAccess_outByte w i d).1) fun _ _ _ => rfl,
    ramReads_of_row (by decide) (fun w d i => Ram.offset_rend i ▸ (decodeAccess_rendByte w i d).1) fun _ _ _ => rfl⟩

/-! ## Writes of the RAM windows (R108, R112) -/

/-- A store of a transfer's bytes leaves the lanes of its data at its implemented bytes and every other offset as before. -/
theorem storeBytes_wordBytes_read (r : Ram) (i : Nat) (w : Width) (d : Word) (s : State) (a : Nat) :
    (storeBytes r i (wordBytes w d) s).mem.read a =
      if r.addr i ≤ a ∧ a < r.addr i + w.bytes ∧ a < r.addr 0 + r.size s.params then some (d.extractLsb' (8 * (a - r.addr i)) 8)
      else s.mem.read a := by
  rw [storeBytes_read, wordBytes_length]
  split
  next hin => exact wordBytes_get w d _ (by omega)
  next => rfl

/-- A window's write row stores its lanes when aligned and is a bus error when not. -/
theorem ramWrites_of_row {n : Nat} {r : Ram} {mk : Width → BitVec n → Word → Instr} (hwin : r.base + 2 ^ n ≤ 0x10000)
    (hrow : ∀ w d (i : BitVec n), decodeAccess .write (r.offset i.toNat) w d = mk w i (w.lanes d))
    (hexec : ∀ w (i : BitVec n) d s, exec (mk w i d) s = hostAccess .write (r.offset i.toNat) w (storeRam r i.toNat w d) s) :
    Claims.ramWrites n r r.base mk := by
  refine ⟨fun _ => rfl, hrow, fun w i d s halign => ?_, fun w i d s halign => ?_⟩
  · refine ⟨(storeBytes r i.toNat (wordBytes w d) s).respond .writeDone, ?_, ?_, storeBytes_wordBytes_read r i.toNat w d s⟩
    · rw [hexec, hostAccess_aligned hwin halign, storeRam, complete]
    · rw [storeBytes_frame]
      rfl
  · exact (hexec w i d s).trans (hostAccess_misaligned hwin halign)

/-- Settles O24: the write rows of the two windows the host writes (`ramWrites_of_row`). -/
theorem ramWritesStoreTheirLanes : Obligations.RamWritesStoreTheirLanes := by
  unfold Obligations.RamWritesStoreTheirLanes
  exact ⟨ramWrites_of_row (by decide) (fun w d i => Ram.offset_cap i ▸ (decodeAccess_capByte w i d).2) fun _ _ _ _ => rfl,
    ramWrites_of_row (by decide) (fun w d i => Ram.offset_rend i ▸ (decodeAccess_rendByte w i d).2) fun _ _ _ _ => rfl⟩

/-! ## OUT_RAM's writes and reserved space (R110, R113, R114) -/

/-- The check in the words of R38 and R39: an access that passes it runs the row's operation. -/
theorem hostAccess_of_legal {dir : Dir} {off : Offset} {w : Width} {op : State → Result} {s : State} (h : Claims.legal off w) :
    hostAccess dir off w op s = op s := hostAccess_legal _ _ _ _ s ((legalAccess_iff off w).2 h)

/-- An access that does not is a bus error and nothing else. -/
theorem hostAccess_of_not_legal {dir : Dir} {off : Offset} {w : Width} {op : State → Result} {s : State} (h : ¬ Claims.legal off w) :
    hostAccess dir off w op s = .next (s.respond (.busError off w dir)) :=
  hostAccess_illegal _ _ _ _ s (Bool.eq_false_iff.2 fun hl => h ((legalAccess_iff off w).1 hl))

/-- Settles O25: the rows that ignore a write or read as zero do nothing else once their check has passed. -/
theorem outWritesAndReservedSpace : Obligations.OutWritesAndReservedSpace := by
  unfold Obligations.OutWritesAndReservedSpace
  have hwin : Ram.out.base + 2 ^ 10 ≤ 0x10000 := by decide
  have hrow : ∀ (w : Width) (d : Word) (i : BitVec 10), decodeAccess .write (Ram.out.offset i.toNat) w d = .wrOut w i (w.lanes d) :=
    fun w d i => Ram.offset_out i ▸ (decodeAccess_outByte w i d).2
  exact ⟨hrow,
    fun w i d s => ⟨hostAccess_aligned hwin, hostAccess_misaligned hwin⟩,
    fun w d off hres => ⟨decodeAccess_reserved .read off w d hres, decodeAccess_reserved .write off w d hres⟩,
    fun w off s => ⟨hostAccess_of_legal, hostAccess_of_not_legal⟩,
    fun w off d s => ⟨hostAccess_of_legal, hostAccess_of_not_legal⟩⟩

end Sys2Proof.Machine
end

section
/-! SUPPORT. Proofs of the family 60_exceptions.md: the causes of a command error (R115), its record (R116), its acknowledgement (R120), and
the interrupt (R119, R121). What a host access can do to `RDONE`, `ERR` and `ERRCODE` is said once (`HostEffect.record_cases`). -/

namespace Sys2Proof.Machine

/-! ## The acknowledgement (60_exceptions.md R120) -/

/-- Write-1-to-clear, bit by bit, as R120 writes it. -/
theorem acknowledge_eq (x y : Bool) (s : State) :
    acknowledge x y s = { s with
      intRdone := if x = true then false else s.intRdone
      intErr := if y = true then false else s.intErr
      errcode := if y = true then 0#4 else s.errcode } := by
  cases x <;> cases y <;> simp [acknowledge]

/-- Settles O11: INT_STATUS's row runs the acknowledgement, which always completes. -/
theorem intStatusWriteClearsWhatIsOne : Obligations.IntStatusWriteClearsWhatIsOne := by
  unfold Obligations.IntStatusWriteClearsWhatIsOne
  exact writesAs_of_row (by decide) (fun _ _ => rfl) (fun _ _ _ => rfl)
    fun d s => congrArg complete (acknowledge_eq (bitOf d 0) (bitOf d 1) s)

/-! ## The causes of a command error (R115) -/

/-- The table of R115: when an access is refused with each code. -/
def ErrorCause (s : State) (i : Instr) : ErrCode → Prop
  | .badOp => Claims.reservedForm i
  | .busy => s.rbusy = true ∧
      ((∃ d, i = .wrDutyStage .b4 d) ∨ Claims.commandForm .cmdCommit 0x2#4 i ∨ Claims.commandForm .cmdRender 0x3#4 i)
  | .range => (Claims.commandForm .cmdTransform 0x1#4 i ∧ pairsInRange s = false) ∨
      (Claims.commandForm .cmdRender 0x3#4 i ∧ s.rbusy = false ∧ lengthInRange s = false)
  | .locked => s.pwmEn = true ∧ ∃ d, i = .wrPwmCfg .b4 d

/-- The numbers of pairs a TRANSFORM is refused for (R59). -/
theorem pairsInRange_eq_false_iff (s : State) :
    pairsInRange s = false ↔ s.npairs.toNat = 0 ∨ s.params.capPairs < s.npairs.toNat := by
  rw [Bool.eq_false_iff, Ne, pairsInRange_iff]
  omega

/-- The lengths a RENDER is refused for (R72). -/
theorem lengthInRange_eq_false_iff (s : State) :
    lengthInRange s = false ↔ s.rlen.toNat = 0 ∨ s.params.rendLen < s.rlen.toNat := by
  rw [Bool.eq_false_iff, Ne, lengthInRange_iff]
  omega

/-- An access with a cause is refused with its code, and does nothing but record it. -/
theorem ErrorCause.exec_eq {s : State} {i : Instr} {e : ErrCode} (h : ErrorCause s i e) :
    exec i s = .next (Claims.recorded e.bits s) := by
  cases e with
  | badOp => exact exec_reservedForm s h
  | busy =>
    obtain ⟨hbusy, ⟨d, rfl⟩ | hi | hi⟩ := h
    · exact (hostAccess_legal .write 0x0014#16 .b4 _ s (by decide)).trans (if_pos hbusy)
    · exact (exec_commitForm s hi).trans (execCmdCommit_busy 0#28 hbusy)
    · exact (exec_renderForm s hi).trans (execCmdRender_busy 0#28 hbusy)
  | range =>
    rcases h with ⟨hi, hout⟩ | ⟨hi, hidle, hout⟩
    · exact (exec_transformForm s hi).trans (transform_range hout)
    · exact (exec_renderForm s hi).trans (execCmdRender_range 0#28 hidle hout)
  | locked =>
    obtain ⟨hen, d, rfl⟩ := h
    exact (hostAccess_legal .write 0x0020#16 .b4 _ s (by decide)).trans (if_pos hen)

/-- The opcode of a CMD word is the low half-byte of the row it selects (30_encoding.md R49). -/
theorem opcode_of_decodeCmdWord {d : Word} {i : Instr} {rsv : BitVec 28} {opc : BitVec 4} (h : decodeCmdWord d = i)
    (hdata : i.access.data = rsv ++ opc) : d.extractLsb' 0 4 = opc := by
  rw [← decodeCmdWord_data d, h, hdata]
  exact BitVec.extractLsb'_append_eq_right

/-- A reserved command that a CMD word selects is that command in its `WR.CMD` form too. -/
theorem reservedForm_wrCmd {d : Word} (h : Claims.reservedForm (decodeCmdWord d)) : Claims.reservedForm (.wrCmd .b4 d) := by
  have hrsvd4 : ∀ opc : BitVec 2, 4 ≤ (1#2 ++ opc).toNat := by decide
  have hrsvd8 : ∀ opc : BitVec 3, 4 ≤ (1#1 ++ opc).toNat := by decide
  rcases h with ⟨opc, rsv, h⟩ | ⟨opc, rsv, h⟩ | ⟨x, h, -⟩
  · exact .inr (.inr ⟨d, rfl, opcode_of_decodeCmdWord h rfl ▸ hrsvd4 opc⟩)
  · exact .inr (.inr ⟨d, rfl, opcode_of_decodeCmdWord h rfl ▸ hrsvd8 opc⟩)
  · exact absurd (h ▸ decodeCmdWord_format d) nofun

/-- The causes do not tell the two forms of a command apart. -/
theorem ErrorCause.wrCmd {s : State} {d : Word} {e : ErrCode} (h : ErrorCause s (decodeCmdWord d) e) : ErrorCause s (.wrCmd .b4 d) e := by
  cases e with
  | badOp => exact reservedForm_wrCmd h
  | busy =>
    obtain ⟨hbusy, ⟨x, hi⟩ | hi | hi⟩ := h
    · exact absurd (hi ▸ decodeCmdWord_format d) nofun
    · exact ⟨hbusy, .inr (.inl (commandForm_wrCmd (fun _ => rfl) hi))⟩
    · exact ⟨hbusy, .inr (.inr (commandForm_wrCmd (fun _ => rfl) hi))⟩
  | range => exact h.imp (.imp_left (commandForm_wrCmd fun _ => rfl)) (.imp_left (commandForm_wrCmd fun _ => rfl))
  | locked =>
    obtain ⟨-, x, hi⟩ := h
    exact absurd (hi ▸ decodeCmdWord_format d) nofun

/-! ## The error record and the pending causes over a host access (R116, R119 to R121) -/

/-- All a host access can do to `RDONE`, `ERR` and `ERRCODE`: keep them, be refused for a cause of R115, or acknowledge them. -/
theorem HostEffect.record_cases {s : State} {i : Instr} {u : State} (he : HostEffect s i u) :
    (u.intRdone = s.intRdone ∧ u.intErr = s.intErr ∧ u.errcode = s.errcode) ∨
    (∃ e, ErrorCause s i e) ∨
    (∃ d, i = .wrIntStatus .b4 d ∧ u = acknowledge (bitOf d 0) (bitOf d 1) s) := by
  induction he with
  | stageBusy d hbusy => exact .inr (.inl ⟨.busy, hbusy, .inl ⟨d, rfl⟩⟩)
  | pwmCfgLocked d hen => exact .inr (.inl ⟨.locked, hen, d, rfl⟩)
  | transformRange rsv hout => exact .inr (.inl ⟨.range, .inl ⟨.inl ⟨rsv, rfl⟩, hout⟩⟩)
  | commitBusy rsv hbusy => exact .inr (.inl ⟨.busy, hbusy, .inr (.inl (.inl ⟨rsv, rfl⟩))⟩)
  | renderBusy rsv hbusy => exact .inr (.inl ⟨.busy, hbusy, .inr (.inr (.inl ⟨rsv, rfl⟩))⟩)
  | renderRange rsv hidle hout => exact .inr (.inl ⟨.range, .inr ⟨.inl ⟨rsv, rfl⟩, hidle, hout⟩⟩)
  | rsvd4 opc rsv => exact .inr (.inl ⟨.badOp, .inl ⟨opc, rsv, rfl⟩⟩)
  | rsvd8 opc rsv => exact .inr (.inl ⟨.badOp, .inr (.inl ⟨opc, rsv, rfl⟩)⟩)
  | intStatus d => exact .inr (.inr ⟨d, rfl, rfl⟩)
  | ctrl d => exact .inl (by simp)
  | transform | cap | rend => exact .inl (by simp)
  | command d u _ ih =>
    rcases ih with hkept | ⟨e, hcause⟩ | ⟨x, hi, -⟩
    · exact .inl hkept
    · exact .inr (.inl ⟨e, hcause.wrCmd⟩)
    · exact absurd (hi ▸ decodeCmdWord_format d) nofun
  | _ => exact .inl ⟨rfl, rfl, rfl⟩

/-- The same of `exec`; a refused access answers the record of R116 alone (`ErrorCause.exec_eq`). -/
theorem exec_record_cases {i : Instr} {s t : State} (h : exec i s = .next t) :
    (t.intRdone = s.intRdone ∧ t.intErr = s.intErr ∧ t.errcode = s.errcode) ∨
    (∃ e, ErrorCause s i e ∧ t = Claims.recorded e.bits s) ∨
    (∃ d r, i = .wrIntStatus .b4 d ∧ t = (acknowledge (bitOf d 0) (bitOf d 1) s).respond r) := by
  obtain ⟨u, r, he, rfl⟩ := exec_effect i s t h
  rcases he.record_cases with hkept | ⟨e, hcause⟩ | ⟨d, hi, rfl⟩
  · exact .inl hkept
  · rw [hcause.exec_eq, Host.Outcome.next.injEq] at h
    exact .inr (.inl ⟨e, hcause, h.symm⟩)
  · exact .inr (.inr ⟨d, r, hi, rfl⟩)

/-- Settles O44: of the cases of a host access only a record sets a clear `ERR`, and it has a cause. -/
theorem onlyTheNamedCausesRecordAnError : Obligations.OnlyTheNamedCausesRecordAnError := by
  unfold Obligations.OnlyTheNamedCausesRecordAnError
  intro i s t h hclear hset
  rcases exec_record_cases h with ⟨-, herr, -⟩ | ⟨e, hcause, rfl⟩ | ⟨d, r, -, rfl⟩
  · exact absurd (hset.symm.trans (herr.trans hclear)) nofun
  · cases e with
    | badOp => exact .inl ⟨rfl, hcause⟩
    | busy => exact .inr (.inl ⟨rfl, hcause⟩)
    | range =>
      simp only [ErrorCause, pairsInRange_eq_false_iff, lengthInRange_eq_false_iff] at hcause
      exact .inr (.inr (.inl ⟨rfl, hcause⟩))
    | locked => exact .inr (.inr (.inr ⟨rfl, hcause⟩))
  · simp [hclear] at hset

/-- A host access that leaves `ERR` set keeps the code it had (R116). -/
theorem exec_keeps_errcode {i : Instr} {s t : State} (h : exec i s = .next t) (hs : s.intErr = true) (ht : t.intErr = true) :
    t.errcode = s.errcode := by
  rcases exec_record_cases h with ⟨-, -, hcode⟩ | ⟨e, -, rfl⟩ | ⟨d, r, -, rfl⟩
  · exact hcode
  · exact if_pos hs
  · have hbit : bitOf d 1 = false := by simpa [hs] using ht
    simp [hbit]

/-- A clock step leaves the error record alone (R121). -/
theorem clockStep_keeps_error {s t : State} (h : clockStep s = .next t) : t.intErr = s.intErr ∧ t.errcode = s.errcode := by
  obtain ⟨r, -, rfl⟩ := (clockStep_next s t).1 h
  exact ⟨applyClock_intErr _ _ _, applyClock_errcode _ _ _⟩

/-- Settles O45: a host access keeps the first code, a clock step and a bus cycle outside the window any code, and a reset clears `ERR`. -/
theorem firstErrorCodeIsKept : Obligations.FirstErrorCodeIsKept := by
  unfold Obligations.FirstErrorCodeIsKept
  intro s t h hs ht
  rcases step_cases s t h with ⟨-, hc⟩ | ⟨rest, -, rfl⟩ | ⟨i, -, hi⟩ | ⟨addr, dir, w, d, -, -, rfl⟩
  · exact (clockStep_keeps_error hc).2
  · exact absurd ht nofun
  · exact exec_keeps_errcode (s := { s with inputs := s.inputs.tail }) hi hs ht
  · rfl

/-- Settles O46: no case of a host access sets RDONE, and a clock step leaves the error record alone. -/
theorem clockSetsDoneAndHostSetsError : Obligations.ClockSetsDoneAndHostSetsError := by
  unfold Obligations.ClockSetsDoneAndHostSetsError
  refine ⟨fun i s t h hdone => ?_, fun s t => clockStep_keeps_error⟩
  rcases exec_record_cases h with ⟨hkept, -⟩ | ⟨e, -, rfl⟩ | ⟨d, r, -, rfl⟩
  · exact hkept.symm.trans hdone
  · exact hdone
  · exact (Bool.and_eq_true_iff.1 hdone).1

/-! ## The interrupt (R119) -/

/-- The output is the two enabled pending causes. -/
theorem irq_iff (s : State) : irq s = true ↔ (s.intRdone = true ∧ s.rdoneEn = true) ∨ (s.intErr = true ∧ s.errEn = true) := by
  simp [irq]

/-- A host access that clears a pending cause is the write of INT_STATUS with a 1 in its bit (R120). -/
theorem exec_clears_cause {i : Instr} {s t : State} (h : exec i s = .next t) :
    (s.intRdone = true → t.intRdone = false → ∃ d, i = .wrIntStatus .b4 d ∧ d.getLsbD 0 = true) ∧
      (s.intErr = true → t.intErr = false → ∃ d, i = .wrIntStatus .b4 d ∧ d.getLsbD 1 = true) := by
  rcases exec_record_cases h with ⟨hdone, herr, -⟩ | ⟨e, -, rfl⟩ | ⟨d, r, rfl, rfl⟩
  · exact ⟨fun hs ht => absurd (hs.symm.trans (hdone.symm.trans ht)) nofun,
      fun hs ht => absurd (hs.symm.trans (herr.symm.trans ht)) nofun⟩
  · exact ⟨fun hs ht => absurd (hs.symm.trans ht) nofun, fun _ ht => absurd ht nofun⟩
  · exact ⟨fun hs ht => ⟨d, rfl, by simpa [hs, bitOf] using ht⟩, fun hs ht => ⟨d, rfl, by simpa [hs, bitOf] using ht⟩⟩

/-- A clock step clears no RDONE: the render part keeps it or sets it (42_render.md R73). -/
theorem clockStep_keeps_rdone {s t : State} (h : clockStep s = .next t) (hs : s.intRdone = true) : t.intRdone = true := by
  obtain ⟨r, hr, rfl⟩ := (clockStep_next s t).1 h
  rcases renderPart_cases s r hr with ⟨-, rfl⟩ | ⟨-, -, rfl⟩ | ⟨-, -, -, rfl⟩ | ⟨b, -, -, -, -, rfl⟩
  · exact hs
  · exact hs
  · rfl
  · exact hs

/-- Settles O47: the output is read off the state the two writes leave, and the causes go by `exec_clears_cause` alone. -/
theorem irqIsTheEnabledPendingCauses : Obligations.IrqIsTheEnabledPendingCauses := by
  unfold Obligations.IrqIsTheEnabledPendingCauses
  refine ⟨irq_iff, fun d s => ⟨_, hostAccess_legal .write 0x003C#16 .b4 _ s (by decide), rfl⟩,
    fun s => ⟨_, hostAccess_legal .write 0x0038#16 .b4 _ s (by decide), ?_⟩, fun i s t => exec_clears_cause,
    fun s t h => ⟨clockStep_keeps_rdone h, (clockStep_keeps_error h).1⟩⟩
  simp [irq, bitOf]

end Sys2Proof.Machine
end

section
/-! SUPPORT. Proofs of the family 70_reset_and_hazards.md: the values of R130 at the reset state and after a reset input. What is computed
there (the marks, the two outputs) follows from the registers it depends on. -/

namespace Sys2Proof.Machine

/-! ## What the registers say of the marks and the outputs -/

/-- With nothing written, every mark of R33 is 0. -/
theorem ramMark_of_mem_nil {s : State} (h : s.mem = []) (r : Ram) (k : Nat) : s.ramMark r k = false := by
  simp [State.ramMark, State.ramByte, h, Memory.read]

/-- A stopped modulator drives its output low (41_duty_sink.md R69). -/
theorem pwmOut_of_stopped {s : State} (h : s.pwmEn = false) : pwmOut s = false := by simp [pwmOut, h]

/-- With no pending cause the interrupt output is low, whatever is enabled (60_exceptions.md R119). -/
theorem irq_of_nothing_pending {s : State} (hdone : s.intRdone = false) (herr : s.intErr = false) : irq s = false := by
  simp [irq, hdone, herr]

/-! ## Reset (R130) -/

/-- The values of R130 name no pending input, so the reset state has them whatever is pending. -/
theorem resetWith_resetValues (p : Params) (rest : List Input) :
    Claims.resetValues p { State.resetWith p with inputs := rest } := by
  simp [Claims.resetValues, State.resetWith, ramMark_of_mem_nil, pwmOut_of_stopped, irq_of_nothing_pending]

/-- A reset input takes the block to its reset state, from any state, and leaves what is pending behind it. -/
theorem step_reset {s : State} {rest : List Input} (h : s.inputs = .reset :: rest) :
    step s = .next { State.resetWith s.params with inputs := rest } := by
  simp [step, h, runInput]

/-- Settles O1: `State.reset` and every `State.resetWith` have nothing pending, a reset input leaves the rest of the inputs pending. -/
theorem resetStateIsTheSpecs : Obligations.ResetStateIsTheSpecs := by
  unfold Obligations.ResetStateIsTheSpecs
  exact ⟨⟨Config.params, resetWith_resetValues Config.params []⟩, fun p => resetWith_resetValues p [],
    fun s rest h => ⟨_, step_reset h, resetWith_resetValues s.params rest⟩⟩

end Sys2Proof.Machine
end
